-- ==== Sys2Proof/Word.lean ====
section
/-! DEFINITION. The word types of SEPT20-CORE and the RGB pixel. -/

namespace Sys2Proof

/-- A 32-bit operand, result or header field (R79, R80). -/
abbrev Word := BitVec 32

/-- One byte of WBUF, of SRC or of the sink stream (R29, R33, R61). -/
abbrev Byte := BitVec 8

/-- A quantized-colour key: red in bits 17:12, green in 11:6, blue in 5:0 (R19). A rank has the same width (R44). -/
abbrev Key := BitVec 18

/-- One CMD128 command word (R78). -/
abbrev Command := BitVec 128

/-- An RGB pixel, each channel 0..255 (R18). -/
structure Pixel where
  r : Byte
  g : Byte
  b : Byte
deriving DecidableEq, Repr

end Sys2Proof
end

