-- ==== Sys2Proof/Config.lean ====
section
/-! DEFINITION. The constants the spec fixes (R11, R12; each an unaudited literal named once, R5) and the free values:
opaque constants nothing in Lean can evaluate, so that no proof can lean on what they are. -/

namespace Sys2Proof.Config

/-- WBUF_BYTES: the writer buffer's capacity in bytes (R11). -/
def wbufBytes : Nat := 4096

/-- The buffer's capacity in bits: the cursor value at which it is emitted (R29, R107). -/
def wbufBits : Nat := 32768

/-- MAX_WIDTH: the largest bit width of one WRITE_BITS or READ_BITS (R11, R84). -/
def maxWidth : Nat := 32

/-- MAGIC: the header's first field (R11). -/
def magic : Word := 0xFFBEADFF

/-- KEY_BITS: the width of a key and of a palette entry on the wire (R11). -/
def keyBits : Nat := 18

/-- MAX_COLORS = 2^18: the largest legal distinct-colour count (R11). -/
def maxColors : Nat := 262144

/-- FREE. The sink's answer to the n-th byte offered, where the host's list of answers is used up: "a free input the host
side supplies, under no law" (R61; log 4). -/
opaque sinkOk : Nat → Bool

/-- FREE. A value of width w that a state element, or a register read in the error state, holds after an error (R165; log 6).
`draw` numbers the error or the read, `tag` the element. -/
opaque freeBits (w draw tag : Nat) : BitVec w

/-- FREE. The contents of a table after an error (R165; log 6), before `freeTable` puts them in canonical form. -/
opaque freeCells (w draw tag : Nat) : List (Nat × BitVec w)

/-- FREE. What an entry of SEEN, PAL or RANKOF (`tag`) reads as where the spec leaves its contents unspecified (R38, R57, R128;
log 10). -/
opaque staleEntry (draw tag index : Nat) : Key

end Sys2Proof.Config
end

