-- ==== Sys2Proof/Machine/State.lean ====
section
/-! DEFINITION. Everything the spec gives the block to hold (10_state.md), the host's side of its ports as plain data, the
reasons a step can stop, and the state after reset (R57, R185). -/

namespace Sys2Proof.Machine

/-- The one model-level stop. -/
inductive Fault where
  /-- Raised by READ_BITS, READ_HEADER, DEC_HEADER, DEC_PALETTE and DEC_PIXEL where a bit they take lies in the byte of SRC at
  `offset` and no SRC_WRITE has written it since reset: "a read of a byte not written since reset is treated by a model as a
  fault" (R33, R57, D31). Safe: hardware goes on with an unspecified value, the model proves nothing of it. -/
  | srcUnwritten (offset : Nat)
deriving DecidableEq, Repr

/-- Why an instruction has no meaning in the model. No instruction of SEPT20-CORE is refused. -/
inductive Refusal where
  /-- Raised by an arm of `exec` that has no meaning yet; no arm is one. Safe: the machine stops. -/
  | notModelled (mnemonic : String)
deriving DecidableEq, Repr

/-- The codes of ERR and RSTATUS: 0 none, 1 IOError, 2 FormatError, 3 CapacityError, 4 UsageError; 5 to 7 are never used
(R49, R163; log 11). -/
inductive ErrCode where
  | noError
  | ioError
  | formatError
  | capacityError
  | usageError
deriving DecidableEq, Repr

/-- The values of CPHASE: 0 IDLE, 1 ENC_PAL, 2 ENC_PIX, 3 ENC_DONE, 4 DEC_PAL, 5 DEC_PIX; 6 and 7 never occur (R45; log 11). -/
inductive Phase where
  | idle
  | encPal
  | encPix
  | encDone
  | decPal
  | decPix
deriving DecidableEq, Repr

/-- TIE_BREAK: the order of equal-count keys (R12, R135). -/
inductive TieBreak where
  | firstSeen
  | keyAsc
deriving DecidableEq, Repr

/-- The parameters of an instance, fixed for its life (R12, R25; log 2). -/
structure Params where
  srcMax : Word
  tieBreak : TieBreak
deriving DecidableEq, Repr

/-- A response: RSTATUS and RES0 to RES2 (R51, R80). -/
structure Response where
  status : ErrCode
  r0 : Word
  r1 : Word
  r2 : Word
deriving DecidableEq, Repr

/-- What the host sends the block (R180; log 1, log 14). -/
inductive HostInput where
  /-- a command word at the command port -/
  | command (w : Command)
  /-- the reset input, asserted between commands (R186) -/
  | reset
  /-- the reset input, asserted while the command w is executed, when at most `offered` of its bytes have been offered to the
  sink (R186, R187) -/
  | commandCutByReset (w : Command) (offered : Nat)
deriving DecidableEq, Repr

/-- A byte memory: the listed bytes, addresses strictly rising (`Memory.wf`). -/
abbrev Memory := List Host.Cell

/-- The block and, as plain data, what the host has done and will do at its ports. -/
structure State where
  /-- SRC_MAX and TIE_BREAK, R12 -/
  params : Params
  /-- WBUF, R29 -/
  wbuf : Memory
  /-- WPOS, R30 -/
  wpos : BitVec 16
  /-- WCLOSED, R31 -/
  wclosed : Bool
  /-- SINKCNT, R32 -/
  sinkcnt : BitVec 64
  /-- the sink stream, oldest byte first, R59, R61 -/
  sink : List Byte
  /-- SRC: the bytes written since reset, R33 -/
  src : Memory
  /-- SRC_LEN, R34 -/
  srcLen : Word
  /-- ROPEN, R35 -/
  ropen : Bool
  /-- RPOS, R36 -/
  rpos : BitVec 35
  /-- CNT: the nonzero counts by key, R37 -/
  cnt : List (Nat × BitVec 64)
  /-- SEEN: the entries the spec gives a value, R38 -/
  seen : List (Nat × Key)
  /-- NDIST, R39 -/
  ndist : BitVec 19
  /-- TOTAL, R40 -/
  total : BitVec 64
  /-- RSORTED, R41 -/
  rsorted : Bool
  /-- PAL: the entries the spec gives a value, R42 -/
  pal : List (Nat × Key)
  /-- PAL_LEN, R43 -/
  palLen : BitVec 19
  /-- RANKOF: the entries the spec gives a value, by key, R44 -/
  rankof : List (Nat × Key)
  /-- CPHASE, R45 -/
  cphase : Phase
  /-- ROWS, R46 -/
  rows : Word
  /-- COLS, R46 -/
  cols : Word
  /-- NCOLORS, R46 -/
  ncolors : Word
  /-- RCW, R47 -/
  rcw : BitVec 6
  /-- PIXREM, R48 -/
  pixrem : BitVec 64
  /-- ERR, R49 -/
  err : ErrCode
  /-- RSTATUS, R51 -/
  rstatus : ErrCode
  /-- RES0, R51 -/
  res0 : Word
  /-- RES1, R51 -/
  res1 : Word
  /-- RES2, R51 -/
  res2 : Word
  /-- the model's own: what the host sends, oldest first (log 1) -/
  inputs : List HostInput
  /-- the model's own: every response delivered, oldest first (log 13) -/
  responses : List Response
  /-- the model's own: the sink's answers to the next bytes offered (R61; log 4) -/
  sinkAnswers : List Bool
  /-- the model's own: how many bytes were offered to the sink (log 4) -/
  sinkOffers : Nat
  /-- the model's own: how many times free values were drawn (log 6) -/
  freeDraws : Nat
deriving DecidableEq, Repr

/-- ABORT, "equal to ERR != 0 at all times" (R50; log 12). -/
def State.abort (s : State) : Bool := decide (s.err ≠ .noError)

/-- The machine right after reset, for an instance with parameters p (R57, R185, R186): power-up acts as reset. The values the
spec leaves open are named in log 5, log 8, log 9 and log 10, the model's own fields in log 1, log 4, log 6 and log 13. -/
def State.resetWith (p : Params) : State :=
  { params := p,
    wbuf := [], wpos := 0, wclosed := false, sinkcnt := 0, sink := [],
    src := [], srcLen := 0, ropen := false, rpos := 0,
    cnt := [], seen := [], ndist := 0, total := 0, rsorted := false, pal := [], palLen := 0, rankof := [],
    cphase := .idle, rows := 0, cols := 0, ncolors := 0, rcw := 0, pixrem := 0,
    err := .noError, rstatus := .noError, res0 := 0, res1 := 0, res2 := 0,
    inputs := [], responses := [], sinkAnswers := [], sinkOffers := 0, freeDraws := 0 }

/-- The parameters of the instance that `State.reset` stands for: TIE_BREAK's default (R12) and, DESIGN CHOICE, the largest
SRC_MAX the spec admits (log 2; unsafe: no statement may rest on it). -/
def Params.ofReset : Params := { srcMax := 0xFFFFFFFF, tieBreak := .firstSeen }

/-- The machine right after reset. -/
def State.reset : State := State.resetWith Params.ofReset

end Sys2Proof.Machine
end

