-- ==== Sys2Proof/Machine/Memory.lean ====
section
/-! DEFINITION. The block's memories as lists of (index, value) in one canonical form: indices strictly rising, and no entry
equal to what an unlisted index reads as. What an unlisted index reads as is one definition for
each memory (log 8, log 9, log 10). -/

namespace Sys2Proof.Machine

/-- The listed value at an index. -/
def cellAt? {α : Type} (m : List (Nat × α)) (k : Nat) : Option α :=
  match m with
  | [] => none
  | (j, v) :: rest => if j = k then some v else cellAt? rest k

/-- List v at k, keeping the indices rising. -/
def putCell {α : Type} (m : List (Nat × α)) (k : Nat) (v : α) : List (Nat × α) :=
  match m with
  | [] => [(k, v)]
  | (j, u) :: rest =>
    if k < j then (k, v) :: (j, u) :: rest
    else if j = k then (k, v) :: rest
    else (j, u) :: putCell rest k v

/-- List nothing at k. -/
def eraseCell {α : Type} (m : List (Nat × α)) (k : Nat) : List (Nat × α) :=
  m.filter (fun c => decide (c.1 ≠ k))

/-- Read index k of a memory whose unlisted entries read as `unlisted`: `none` where that is no value. -/
def readCell {α : Type} (unlisted : Option α) (m : List (Nat × α)) (k : Nat) : Option α :=
  (cellAt? m k).or unlisted

/-- Write v at k; writing what an unlisted entry reads as removes the entry. -/
def writeCell {α : Type} [DecidableEq α] (unlisted : Option α) (m : List (Nat × α)) (k : Nat) (v : α) : List (Nat × α) :=
  if unlisted = some v then eraseCell m k else putCell m k v

/-- The canonical form: indices strictly rising, and no entry equal to what an unlisted index reads as. -/
abbrev CellsWf {α : Type} (unlisted : Option α) (m : List (Nat × α)) : Prop :=
  m.Pairwise (fun c d => c.1 < d.1) ∧ ∀ c ∈ m, unlisted ≠ some c.2

/-- Every listed index lies in a memory of `size` entries. -/
abbrev CellsBelow {α : Type} (size : Nat) (m : List (Nat × α)) : Prop := ∀ c ∈ m, c.1 < size

/-- The canonical form of a byte memory. -/
abbrev Memory.wf (unlisted : Option Byte) (m : Memory) : Prop := CellsWf unlisted m

/-- A byte of WBUF that nothing has written since reset reads as 0x00 (R29: "unspecified and unobservable"; DESIGN CHOICE, log 8). -/
def wbufUnlisted : Option Byte := some 0

/-- A byte of SRC that no SRC_WRITE has written since reset has no value: a read of it is a fault (R33, D31; log 9). -/
def srcUnlisted : Option Byte := none

/-- A key that is not listed has count 0 (R37, R57). -/
def cntUnlisted : Option (BitVec 64) := some 0

/-- An entry of SEEN, PAL or RANKOF that is not listed is unspecified (R38, R42, R44, R57; log 10). -/
def tableUnlisted : Option Key := none

/-- The number of keys, of ranks and of entries of CNT, SEEN, PAL and RANKOF (R37, R38, R42, R44). -/
def tableSize : Nat := 262144

/-- WBUF[j] (R29). -/
def wbufByte (s : State) (j : Nat) : Byte := (readCell wbufUnlisted s.wbuf j).getD 0

/-- SRC[j], or none where no SRC_WRITE has written it since reset (R33). -/
def srcByte? (s : State) (j : Nat) : Option Byte := readCell srcUnlisted s.src j

/-- CNT[k] (R37). -/
def cntEntry (s : State) (k : Key) : BitVec 64 := (readCell cntUnlisted s.cnt k.toNat).getD 0

/-- SEEN[i]; a free value where unspecified (R38; log 10). -/
def seenEntry (s : State) (i : Nat) : Key := (readCell tableUnlisted s.seen i).getD (Config.staleEntry s.freeDraws 0 i)

/-- PAL[i]; a free value where unspecified (R42; log 10). -/
def palEntry (s : State) (i : Nat) : Key := (readCell tableUnlisted s.pal i).getD (Config.staleEntry s.freeDraws 1 i)

/-- RANKOF[k]; a free value where unspecified (R44; log 10). -/
def rankEntry (s : State) (k : Key) : Key :=
  (readCell tableUnlisted s.rankof k.toNat).getD (Config.staleEntry s.freeDraws 2 k.toNat)

/-- SEEN[0 .. NDIST−1] (R38). -/
def seenKeys (s : State) : List Key := (List.range s.ndist.toNat).map (seenEntry s)

/-- A table of `size` entries after an error: free contents, in canonical form (R165; log 6). -/
def freeTable (size w draw tag : Nat) : List (Nat × BitVec w) :=
  (Config.freeCells w draw tag).foldl (fun m c => writeCell (some 0) m (c.1 % size) c.2) []

end Sys2Proof.Machine
end

