-- ==== Sys2Proof/Machine/Flags.lean ====
section
/-! DEFINITION. The block has no flags (R28); its status bits are the fields of STATUS (R53), read with the other registers
of the map (R52). -/

namespace Sys2Proof.Machine

/-- The 3-bit code of ERR and RSTATUS (R163). -/
def errBits (e : ErrCode) : BitVec 3 :=
  match e with
  | .noError => 0
  | .ioError => 1
  | .formatError => 2
  | .capacityError => 3
  | .usageError => 4

/-- The 3-bit code of CPHASE (R45). -/
def phaseBits (p : Phase) : BitVec 3 :=
  match p with
  | .idle => 0
  | .encPal => 1
  | .encPix => 2
  | .encDone => 3
  | .decPal => 4
  | .decPix => 5

/-- The phase with a given code. -/
def phaseOfBits (code : BitVec 3) : Phase :=
  if code = 1 then .encPal
  else if code = 2 then .encPix
  else if code = 3 then .encDone
  else if code = 4 then .decPal
  else if code = 5 then .decPix
  else .idle

/-- STATUS (R53): bits 31:9 zero, CPHASE, RSORTED, ROPEN, WCLOSED, ERR. -/
def statusWord (s : State) : Word :=
  (errBits s.err).setWidth 32 ||| (BitVec.ofBool s.wclosed).setWidth 32 <<< 3 ||| (BitVec.ofBool s.ropen).setWidth 32 <<< 4 |||
    (BitVec.ofBool s.rsorted).setWidth 32 <<< 5 ||| (phaseBits s.cphase).setWidth 32 <<< 6

/-- CONFIG (register 0x12, R52): bit 0 is TIE_BREAK. -/
def configWord (p : Params) : Word :=
  match p.tieBreak with
  | .firstSeen => 0
  | .keyAsc => 1

/-- Reg(n) of R52 while ERR = 0; none where n is no register number. -/
def regValue (s : State) (n : Word) : Option Word :=
  match n.toNat with
  | 0x00 => some (statusWord s)
  | 0x01 => some (s.wpos.setWidth 32)
  | 0x02 => some (s.sinkcnt.extractLsb' 0 32)
  | 0x03 => some (s.sinkcnt.extractLsb' 32 32)
  | 0x04 => some s.srcLen
  | 0x05 => some (s.rpos.extractLsb' 0 32)
  | 0x06 => some ((s.rpos.extractLsb' 32 3).setWidth 32)
  | 0x07 => some (s.ndist.setWidth 32)
  | 0x08 => some (s.total.extractLsb' 0 32)
  | 0x09 => some (s.total.extractLsb' 32 32)
  | 0x0A => some (s.palLen.setWidth 32)
  | 0x0B => some s.rows
  | 0x0C => some s.cols
  | 0x0D => some s.ncolors
  | 0x0E => some (s.rcw.setWidth 32)
  | 0x0F => some (s.pixrem.extractLsb' 0 32)
  | 0x10 => some (s.pixrem.extractLsb' 32 32)
  | 0x11 => some Config.magic
  | 0x12 => some (configWord s.params)
  | 0x13 => some s.params.srcMax
  | _ => none

/-- Reg(n) while ERR ≠ 0: ERR in bits 2:0 of STATUS, its bits 31:9 hardwired 0 (R53), and the hardwired registers are what they
are; bits 8:3 of STATUS and every other register read as free values (R160, R165; log 7). -/
def regValueInError (s : State) (n : Word) : Option Word :=
  match n.toNat with
  | 0x00 => some ((Config.freeBits 6 s.freeDraws 0).setWidth 32 <<< 3 ||| (errBits s.err).setWidth 32)
  | 0x11 => some Config.magic
  | 0x12 => some (configWord s.params)
  | 0x13 => some s.params.srcMax
  | k => if k < 0x14 then some (Config.freeBits 32 s.freeDraws k) else none

end Sys2Proof.Machine
end

