-- ==== Sys2Proof/Syntax.lean ====
section
/-! DEFINITION. The commands of SEPT20-CORE, one constructor for each row of the opcode map (R83), with the operand slices
of R81: a bit that a command ignores is no part of its syntax. -/

namespace Sys2Proof

/-- One command after the decode checks 2 to 4 of R84. -/
inductive Instr where
  /-- NOP, R158 -/
  | nop
  /-- RESET, R159 -/
  | reset
  /-- REG_READ, R160: A is the register number -/
  | regRead (number : Word)
  /-- WRITE_BITS, R109: W is the width, A the value -/
  | writeBits (width : BitVec 6) (value : Word)
  /-- WRITE_HEADER, R110 -/
  | writeHeader (rows cols numColors : Word)
  /-- FLUSH, R111 -/
  | flush
  /-- CLOSE, R112 -/
  | close
  /-- SRC_WRITE, R115: A is the byte offset, B[7:0] the byte -/
  | srcWrite (offset : Word) (byte : Byte)
  /-- READER_OPEN, R116: A is the source length in bytes -/
  | readerOpen (length : Word)
  /-- READ_BITS, R118: W is the width -/
  | readBits (width : BitVec 6)
  /-- READ_HEADER, R119 -/
  | readHeader
  /-- QUANTIZE, R123 -/
  | quantize (pixel : Pixel)
  /-- DEQUANTIZE, R124: A[17:0] is the key -/
  | dequantize (key : Key)
  /-- RANK_CLEAR, R128 -/
  | rankClear
  /-- RANK_COUNT, R129 -/
  | rankCount (pixel : Pixel)
  /-- RANK_SORT, R130 -/
  | rankSort
  /-- RANK_LOOKUP, R131: A[17:0] is the key -/
  | rankLookup (key : Key)
  /-- PAL_READ, R132: A is the rank, all 32 bits of it -/
  | palRead (rank : Word)
  /-- ENC_HEADER, R141 -/
  | encHeader (rows cols : Word)
  /-- ENC_PALETTE, R142 -/
  | encPalette
  /-- ENC_PIXEL, R143 -/
  | encPixel (pixel : Pixel)
  /-- ENC_FINISH, R144 -/
  | encFinish
  /-- RANK_WIDTH, R140 -/
  | rankWidth (n : Word)
  /-- DEC_HEADER, R145 -/
  | decHeader
  /-- DEC_PALETTE, R146 -/
  | decPalette
  /-- DEC_PIXEL, R147 -/
  | decPixel
deriving DecidableEq, Repr

end Sys2Proof
end

