-- ==== Sys2Proof/WellFormed.lean ====
section
/-! DEFINITION. The one check on a command that its types do not already make: the width of WRITE_BITS and READ_BITS
(check 4 of R84). Every other operand may hold any value of its slice (R81). -/

namespace Sys2Proof

/-- W is at most 32 (R84, R109, R118). -/
def widthOk (width : BitVec 6) : Bool :=
  decide (width.toNat ≤ Config.maxWidth)

/-- The command words of this command pass the decode checks 2 to 4 of R84. -/
def Instr.wf (i : Instr) : Bool :=
  match i with
  | .writeBits width _ => widthOk width
  | .readBits width => widthOk width
  | .nop | .reset | .regRead _ | .writeHeader _ _ _ | .flush | .close | .srcWrite _ _ | .readerOpen _ | .readHeader
  | .quantize _ | .dequantize _ | .rankClear | .rankCount _ | .rankSort | .rankLookup _ | .palRead _ | .encHeader _ _
  | .encPalette | .encPixel _ | .encFinish | .rankWidth _ | .decHeader | .decPalette | .decPixel => true

end Sys2Proof
end

