-- ==== Sys2Proof/Decode.lean ====
section
/-! DEFINITION. Reading a command from a CMD128 word (R78, R79, R81, R83) with the decode checks 2 to 4 of R84, and the
encoder that writes a command's word from the same map. Check 1, the sticky error, is Machine/Ops.lean's. -/

namespace Sys2Proof

/-- Why a word is no command: the failing decode check of R84. Each raises UsageError. -/
inductive DecodeError where
  /-- check 2: OP is not in the opcode map (R85) -/
  | unassignedOpcode
  /-- check 3: RSV ≠ 0 -/
  | reservedBitsSet
  /-- check 4: W > 32 in WRITE_BITS or READ_BITS, W ≠ 0 in any other command -/
  | widthOutOfRange
deriving DecidableEq, Repr

/-- OP, bits 7:0 (R79). -/
def opField (w : Command) : BitVec 8 := w.extractLsb' 0 8

/-- W, bits 13:8 (R79). -/
def widthField (w : Command) : BitVec 6 := w.extractLsb' 8 6

/-- RSV, bits 31:14 (R79). -/
def rsvField (w : Command) : BitVec 18 := w.extractLsb' 14 18

/-- A, bits 63:32 (R79). -/
def fieldA (w : Command) : Word := w.extractLsb' 32 32

/-- B, bits 95:64 (R79). -/
def fieldB (w : Command) : Word := w.extractLsb' 64 32

/-- C, bits 127:96 (R79). -/
def fieldC (w : Command) : Word := w.extractLsb' 96 32

/-- r = P[7:0], g = P[15:8], b = P[23:16]; P[31:24] ignored (R18). -/
def unpackPixel (p : Word) : Pixel :=
  { r := p.extractLsb' 0 8, g := p.extractLsb' 8 8, b := p.extractLsb' 16 8 }

/-- The packing of R18, with P[31:24] = 0. -/
def packPixel (p : Pixel) : Word := p.r.setWidth 32 ||| p.g.setWidth 32 <<< 8 ||| p.b.setWidth 32 <<< 16

/-- A[17:0], the key operand of DEQUANTIZE and RANK_LOOKUP (R81). -/
def keyOperand (a : Word) : Key := a.extractLsb' 0 18

/-- B[7:0], the byte operand of SRC_WRITE (R81). -/
def byteOperand (b : Word) : Byte := b.extractLsb' 0 8

/-- One row of the opcode map (R83): the opcode, whether W is a width there, and the command with its operands (R81). -/
structure OpcodeRow where
  op : BitVec 8
  takesWidth : Bool
  build : Command → Instr

/-- The opcode map (R83), in its order. -/
def opcodeMap : List OpcodeRow :=
  [ ⟨0x00, false, fun _ => .nop⟩,
    ⟨0x01, false, fun _ => .reset⟩,
    ⟨0x02, false, fun w => .regRead (fieldA w)⟩,
    ⟨0x10, true, fun w => .writeBits (widthField w) (fieldA w)⟩,
    ⟨0x11, false, fun w => .writeHeader (fieldA w) (fieldB w) (fieldC w)⟩,
    ⟨0x12, false, fun _ => .flush⟩,
    ⟨0x13, false, fun _ => .close⟩,
    ⟨0x18, false, fun w => .srcWrite (fieldA w) (byteOperand (fieldB w))⟩,
    ⟨0x19, false, fun w => .readerOpen (fieldA w)⟩,
    ⟨0x1A, true, fun w => .readBits (widthField w)⟩,
    ⟨0x1B, false, fun _ => .readHeader⟩,
    ⟨0x20, false, fun w => .quantize (unpackPixel (fieldA w))⟩,
    ⟨0x21, false, fun w => .dequantize (keyOperand (fieldA w))⟩,
    ⟨0x30, false, fun _ => .rankClear⟩,
    ⟨0x31, false, fun w => .rankCount (unpackPixel (fieldA w))⟩,
    ⟨0x32, false, fun _ => .rankSort⟩,
    ⟨0x33, false, fun w => .rankLookup (keyOperand (fieldA w))⟩,
    ⟨0x34, false, fun w => .palRead (fieldA w)⟩,
    ⟨0x40, false, fun w => .encHeader (fieldA w) (fieldB w)⟩,
    ⟨0x41, false, fun _ => .encPalette⟩,
    ⟨0x42, false, fun w => .encPixel (unpackPixel (fieldA w))⟩,
    ⟨0x43, false, fun _ => .encFinish⟩,
    ⟨0x44, false, fun w => .rankWidth (fieldA w)⟩,
    ⟨0x48, false, fun _ => .decHeader⟩,
    ⟨0x49, false, fun _ => .decPalette⟩,
    ⟨0x4A, false, fun _ => .decPixel⟩ ]

/-- Check 4 of R84. -/
def widthCheck (takesWidth : Bool) (width : BitVec 6) : Bool :=
  if takesWidth then widthOk width else decide (width = 0)

/-- The decoder: the checks 2, 3 and 4 of R84 in that order, then the operands. Total (R86). -/
def decode (w : Command) : Except DecodeError Instr :=
  match opcodeMap.find? (fun row => decide (row.op = opField w)) with
  | none => .error .unassignedOpcode
  | some row =>
    if rsvField w ≠ 0 then .error .reservedBitsSet
    else if widthCheck row.takesWidth (widthField w) then .ok (row.build w)
    else .error .widthOutOfRange

/-- A CMD128 word from its fields, RSV = 0 (R79). -/
def commandWord (op : BitVec 8) (width : BitVec 6) (a b c : Word) : Command :=
  op.setWidth 128 ||| width.setWidth 128 <<< 8 ||| a.setWidth 128 <<< 32 ||| b.setWidth 128 <<< 64 ||| c.setWidth 128 <<< 96

/-- The word of a command, zero in every bit the command ignores (R81; log 18). -/
def encode (i : Instr) : Command :=
  match i with
  | .nop => commandWord 0x00 0 0 0 0
  | .reset => commandWord 0x01 0 0 0 0
  | .regRead number => commandWord 0x02 0 number 0 0
  | .writeBits width value => commandWord 0x10 width value 0 0
  | .writeHeader rows cols numColors => commandWord 0x11 0 rows cols numColors
  | .flush => commandWord 0x12 0 0 0 0
  | .close => commandWord 0x13 0 0 0 0
  | .srcWrite offset byte => commandWord 0x18 0 offset (byte.setWidth 32) 0
  | .readerOpen length => commandWord 0x19 0 length 0 0
  | .readBits width => commandWord 0x1A width 0 0 0
  | .readHeader => commandWord 0x1B 0 0 0 0
  | .quantize pixel => commandWord 0x20 0 (packPixel pixel) 0 0
  | .dequantize key => commandWord 0x21 0 (key.setWidth 32) 0 0
  | .rankClear => commandWord 0x30 0 0 0 0
  | .rankCount pixel => commandWord 0x31 0 (packPixel pixel) 0 0
  | .rankSort => commandWord 0x32 0 0 0 0
  | .rankLookup key => commandWord 0x33 0 (key.setWidth 32) 0 0
  | .palRead rank => commandWord 0x34 0 rank 0 0
  | .encHeader rows cols => commandWord 0x40 0 rows cols 0
  | .encPalette => commandWord 0x41 0 0 0 0
  | .encPixel pixel => commandWord 0x42 0 (packPixel pixel) 0 0
  | .encFinish => commandWord 0x43 0 0 0 0
  | .rankWidth n => commandWord 0x44 0 n 0 0
  | .decHeader => commandWord 0x48 0 0 0 0
  | .decPalette => commandWord 0x49 0 0 0 0
  | .decPixel => commandWord 0x4A 0 0 0 0

/-- The command word whose low `nbits` bits are w and whose other bits are 0. A CMD128 word is delivered whole (R78), so no
byte order enters. -/
def tableCommand (nbits w : Nat) : Command := BitVec.ofNat 128 (w % 2 ^ nbits)

/-- The command the decoder reads from a row's word, numbered as spec/opcode_table.json numbers its bits. -/
def decodeTableWord (nbits w : Nat) : Option Instr :=
  (decode (tableCommand nbits w)).toOption

end Sys2Proof
end

