-- ==== Sys2Proof/Machine/Operands.lean ====
section
/-! DEFINITION. Bits and values: the LSB-first order of R14, R60 and R15's `bitlen`. The operand slices themselves (R81) and
the pixel packing (R18) are Decode.lean's. -/

namespace Sys2Proof.Machine

/-- v[0], v[1], …, v[w−1]: the bits PutBits appends, in its order (R107). -/
def lowBits (v : Word) (w : Nat) : List Bool := (List.range w).map (fun i => v.getLsbD i)

/-- The number whose bit i is the i-th of the list (R60). -/
def natOfBits (bits : List Bool) : Nat :=
  match bits with
  | [] => 0
  | b :: rest => b.toNat + 2 * natOfBits rest

/-- A byte with bit i set to b. -/
def setBit (byte : Byte) (i : Nat) (b : Bool) : Byte :=
  if b then byte ||| (1#8 <<< i) else byte &&& ~~~(1#8 <<< i)

/-- The byte's bits below n; the others zero (R108's mask). -/
def keepLow (byte : Byte) (n : Nat) : Byte := byte &&& BitVec.ofNat 8 (2 ^ n - 1)

/-- bitlen(x): the number of bits of x, bitlen(0) = 0 (R15). -/
def bitlen (x : Nat) : Nat := if x = 0 then 0 else Nat.log2 x + 1

/-- SrcBit(k) = SRC[k / 8][k mod 8] (R15), or none where that byte is not written since reset. -/
def srcBit? (s : State) (k : Nat) : Option Bool :=
  match srcByte? s (k / 8) with
  | none => none
  | some byte => some (byte.getLsbD (k % 8))

/-- Stream bits pos .. pos + w − 1 of SRC, or the offset of the first byte among them that no SRC_WRITE has written. -/
def srcBits (s : State) (pos : Nat) (w : Nat) : Except Nat (List Bool) :=
  match w with
  | 0 => .ok []
  | w + 1 =>
    match srcBit? s pos with
    | none => .error (pos / 8)
    | some b =>
      match srcBits s (pos + 1) w with
      | .error offset => .error offset
      | .ok rest => .ok (b :: rest)

end Sys2Proof.Machine
end

