-- ==== Sys2Proof/Machine/Ops.lean ====
section
/-! DEFINITION. What the commands share: the response, the error entry and the reset (R165, R185), the sticky refusal and the
decode refusal (R84, R166), the sink port (R61), PutBits, FlushBuf and GetBits (R107, R108, R117). -/

namespace Sys2Proof.Machine

/-- How far a command's pseudocode got: to its end, to a `raise E`, or to a read of SRC the spec gives no value. -/
inductive Result (α : Type) where
  | ok (value : α) (s : State)
  | raised (e : ErrCode) (s : State)
  | fault (f : Fault)

/-- Go on with the next line of the pseudocode, unless the command has ended (`raise`, R15). -/
def Result.andThen {α β : Type} (r : Result α) (k : α → State → Result β) : Result β :=
  match r with
  | .ok value s => k value s
  | .raised e s => .raised e s
  | .fault f => .fault f

/-- `if not c: raise UsageError`. -/
def require {α : Type} (c : Prop) [Decidable c] (s : State) (rest : Result α) : Result α :=
  if c then rest else .raised .usageError s

/-! ### Responses, errors, reset -/

/-- respond(code, r0, r1, r2) (R80): the response registers, and the response at the response port (log 13). -/
def respond (r : Response) (s : State) : State :=
  { s with rstatus := r.status, res0 := r.r0, res1 := r.r1, res2 := r.r2, responses := s.responses ++ [r] }

/-- A response of code 0 (R80). -/
def success (r0 r1 r2 : Word) : Response := ⟨.noError, r0, r1, r2⟩

/-- A response with an error code: zero results (R167). -/
def failure (e : ErrCode) : Response := ⟨e, 0, 0, 0⟩

/-- What an error leaves: every element but ERR, the sink stream, the response and the hardwired registers holds a free value;
the contents of SRC, SEEN, PAL and RANKOF are specified nowhere (R165; log 6). -/
def unspecified (s : State) : State :=
  { s with
    wbuf := freeTable Config.wbufBytes 8 s.freeDraws 1
    wpos := Config.freeBits 16 s.freeDraws 2
    wclosed := (Config.freeBits 1 s.freeDraws 3).getLsbD 0
    sinkcnt := Config.freeBits 64 s.freeDraws 4
    src := []
    srcLen := Config.freeBits 32 s.freeDraws 5
    ropen := (Config.freeBits 1 s.freeDraws 6).getLsbD 0
    rpos := Config.freeBits 35 s.freeDraws 7
    cnt := freeTable tableSize 64 s.freeDraws 8
    seen := []
    ndist := Config.freeBits 19 s.freeDraws 9
    total := Config.freeBits 64 s.freeDraws 10
    rsorted := (Config.freeBits 1 s.freeDraws 11).getLsbD 0
    pal := []
    palLen := Config.freeBits 19 s.freeDraws 12
    rankof := []
    cphase := phaseOfBits (Config.freeBits 3 s.freeDraws 13)
    rows := Config.freeBits 32 s.freeDraws 14
    cols := Config.freeBits 32 s.freeDraws 15
    ncolors := Config.freeBits 32 s.freeDraws 16
    rcw := Config.freeBits 6 s.freeDraws 17
    pixrem := Config.freeBits 64 s.freeDraws 18
    freeDraws := s.freeDraws + 1 }

/-- The error entry, `raise E` (R165): the first error sets ERR and leaves the rest unspecified; an error raised while ERR ≠ 0
changes no state. The response is (E, 0, 0, 0). -/
def raiseError (e : ErrCode) (s : State) : State :=
  if s.err = .noError then respond (failure e) { unspecified s with err := e }
  else respond (failure e) s

/-- The only way out of the error state: ResetState() (R185). The sink stream keeps its bytes (R187); WBUF, SRC, SEEN, PAL and
RANKOF keep unspecified contents (R57; log 8, log 9, log 10). -/
def resetState (s : State) : State :=
  { s with
    wbuf := [], wpos := 0, wclosed := false, sinkcnt := 0,
    src := [], srcLen := 0, ropen := false, rpos := 0,
    cnt := [], seen := [], ndist := 0, total := 0, rsorted := false, pal := [], palLen := 0, rankof := [],
    cphase := .idle, rows := 0, cols := 0, ncolors := 0, rcw := 0, pixrem := 0,
    err := .noError, rstatus := .noError, res0 := 0, res1 := 0, res2 := 0,
    freeDraws := s.freeDraws + 1 }

/-- The end of a command: its response, or its error entry, or the model's stop. -/
def finish (r : Result Response) : Host.Outcome State Fault Refusal :=
  match r with
  | .ok response s => .next (respond response s)
  | .raised e s => .next (raiseError e s)
  | .fault f => .fault f

/-- The sticky refusal (R84 check 1, R166): the response (ERR, 0, 0, 0) and nothing else. -/
def refuseSticky (s : State) : State := respond (failure s.err) s

/-- A command other than NOP, RESET and REG_READ: refused while ERR ≠ 0 (R166), else run to its end. -/
def command (s : State) (body : Result Response) : Host.Outcome State Fault Refusal :=
  if s.err = .noError then finish body else .next (refuseSticky s)

/-- OP is one of the three opcodes the block runs while ERR ≠ 0: NOP, RESET, REG_READ (R84 check 1). -/
def runsInError (op : BitVec 8) : Bool := decide (op = 0x00) || decide (op = 0x01) || decide (op = 0x02)

/-- A word that is no command (checks 2 to 4 of R84): refused while ERR ≠ 0 unless OP is NOP, RESET or REG_READ, else
UsageError. -/
def illegalWord (w : Command) (s : State) : Host.Outcome State Fault Refusal :=
  if s.err ≠ .noError ∧ runsInError (opField w) = false then .next (refuseSticky s)
  else .next (raiseError .usageError s)

/-! ### Sink port and writer -/

/-- sink_ok for the next byte offered: the host's answer (R61; log 4). -/
def sinkAnswer (s : State) : Bool :=
  match s.sinkAnswers with
  | answer :: _ => answer
  | [] => Config.sinkOk s.sinkOffers

/-- One answer of the sink is used up. -/
def takeAnswer (s : State) : State :=
  { s with sinkAnswers := s.sinkAnswers.drop 1, sinkOffers := s.sinkOffers + 1 }

/-- Emit(b) (R61): an accepted byte is appended and counted, a refused one raises IOError. -/
def emit (b : Byte) (s : State) : Result Unit :=
  if sinkAnswer s then
    .ok () { takeAnswer s with sink := s.sink ++ [b], sinkcnt := s.sinkcnt + 1 }
  else .raised .ioError (takeAnswer s)

/-- Emit bytes in order; none after a refused one (R61, R62). -/
def emitAll (bytes : List Byte) (s : State) : Result Unit :=
  match bytes with
  | [] => .ok () s
  | b :: rest => (emit b s).andThen fun _ s => emitAll rest s

/-- WBUF[WPOS / 8][WPOS mod 8] <- b and WPOS <- WPOS + 1 (R107). -/
def storeBit (b : Bool) (s : State) : State :=
  { s with
    wbuf := writeCell wbufUnlisted s.wbuf (s.wpos.toNat / 8) (setBit (wbufByte s (s.wpos.toNat / 8)) (s.wpos.toNat % 8) b)
    wpos := s.wpos + 1 }

/-- The emission of a full buffer: WBUF[0..4095] in index order, then WPOS <- 0 (R107). -/
def emitFull (s : State) : Result Unit :=
  (emitAll ((List.range Config.wbufBytes).map (wbufByte s)) s).andThen fun _ s => .ok () { s with wpos := 0 }

/-- One turn of PutBits' loop (R107). -/
def putBit (b : Bool) (s : State) : Result Unit :=
  if (storeBit b s).wpos.toNat = Config.wbufBits then emitFull (storeBit b s) else .ok () (storeBit b s)

/-- PutBits over a list of bits, the first bit first (R107). -/
def putAll (bits : List Bool) (s : State) : Result Unit :=
  match bits with
  | [] => .ok () s
  | b :: rest => (putBit b s).andThen fun _ s => putAll rest s

/-- PutBits(v, w) (R107). -/
def putBits (v : Word) (w : Nat) (s : State) : Result Unit := putAll (lowBits v w) s

/-- Byte j of the n that FlushBuf emits: the last one's unused high bits are zero (R108). -/
def flushByte (s : State) (n j : Nat) : Byte :=
  if j + 1 = n ∧ s.wpos.toNat % 8 ≠ 0 then keepLow (wbufByte s j) (s.wpos.toNat % 8) else wbufByte s j

/-- The number of bytes FlushBuf emits, (WPOS + 7) / 8 (R108). -/
def flushLength (s : State) : Nat := (s.wpos.toNat + 7) / 8

/-- The bytes FlushBuf emits (R108). -/
def flushBytes (s : State) : List Byte := (List.range (flushLength s)).map (flushByte s (flushLength s))

/-- FlushBuf() (R108). -/
def flushBuf (s : State) : Result Unit :=
  (emitAll (flushBytes s) s).andThen fun _ s => .ok () { s with wpos := 0 }

/-! ### Reader -/

/-- GetBits(w) (R117): the end check before any bit is taken, then w bits, the first the value's bit 0. -/
def getBits (w : Nat) (s : State) : Result Word :=
  if s.rpos.toNat + w > 8 * s.srcLen.toNat then .raised .formatError s
  else
    match srcBits s s.rpos.toNat w with
    | .error offset => .fault (.srcUnwritten offset)
    | .ok bits => .ok (BitVec.ofNat 32 (natOfBits bits)) { s with rpos := s.rpos + BitVec.ofNat 35 w }

/-! ### The host's inputs -/

/-- The next input is taken (log 1). -/
def takeInput (s : State) : State := { s with inputs := s.inputs.drop 1 }

/-- A command cut by the reset input (R186, R187): its effects are replaced by the reset values and it gives no response; of the
bytes it would have offered the sink, at most `offered` were offered (log 14). `before` is the state the command started in,
`after` the state it would have ended in. -/
def cutByReset (offered : Nat) (before after : State) : State :=
  resetState
    { before with
      sink := before.sink ++ (after.sink.drop before.sink.length).take offered
      sinkAnswers := before.sinkAnswers.drop (min offered (after.sinkOffers - before.sinkOffers))
      sinkOffers := before.sinkOffers + min offered (after.sinkOffers - before.sinkOffers) }

/-- The outcome of a command cut by the reset input; a command that would have read an unwritten byte of SRC is cut before
that matters. -/
def cutOutcome (offered : Nat) (before : State) (o : Host.Outcome State Fault Refusal) : Host.Outcome State Fault Refusal :=
  match o with
  | .next after => .next (cutByReset offered before after)
  | .fault _ => .next (resetState before)
  | .refused r => .refused r

end Sys2Proof.Machine
end

