-- ==== Sys2Proof/Machine/Quantizer.lean ====
section
/-! DEFINITION. QUANTIZE and DEQUANTIZE (42_quantizer.md), and the functions Quant and Dequant that the ranker and the codec
share. -/

namespace Sys2Proof.Machine

/-- Quant: (r / 4) << 12 | (g / 4) << 6 | (b / 4) (R123). -/
def quant (p : Pixel) : Key :=
  ((p.r / 4).setWidth 18 <<< 12) ||| ((p.g / 4).setWidth 18 <<< 6) ||| (p.b / 4).setWidth 18

/-- The representative level 2 + 4c of a 6-bit channel value (R124). -/
def level (c : BitVec 6) : Byte := 2 + 4 * c.setWidth 8

/-- Dequant (R124). -/
def dequant (k : Key) : Pixel :=
  { r := level (k.extractLsb' 12 6), g := level (k.extractLsb' 6 6), b := level (k.extractLsb' 0 6) }

/-- QUANTIZE (R123). -/
def execQuantize (pixel : Pixel) (s : State) : Host.Outcome State Fault Refusal :=
  command s <| .ok (success ((quant pixel).setWidth 32) 0 0) s

/-- DEQUANTIZE (R124). -/
def execDequantize (key : Key) (s : State) : Host.Outcome State Fault Refusal :=
  command s <| .ok (success (packPixel (dequant key)) 0 0) s

end Sys2Proof.Machine
end

