-- ==== Sys2Proof/Machine/Reader.lean ====
section
/-! DEFINITION. SRC_WRITE, READER_OPEN, READ_BITS and READ_HEADER (41_reader.md). -/

namespace Sys2Proof.Machine

/-- SRC_WRITE (R115). -/
def execSrcWrite (offset : Word) (byte : Byte) (s : State) : Host.Outcome State Fault Refusal :=
  command s <|
    require (s.ropen = false) s <|
    require (offset.toNat < s.params.srcMax.toNat) s <|
    .ok (success 0 0 0) { s with src := writeCell srcUnlisted s.src offset.toNat byte }

/-- READER_OPEN (R116). -/
def execReaderOpen (length : Word) (s : State) : Host.Outcome State Fault Refusal :=
  command s <|
    require (s.ropen = false) s <|
    require (length.toNat ≤ s.params.srcMax.toNat) s <|
    .ok (success 0 0 0) { s with srcLen := length, rpos := 0, ropen := true }

/-- READ_BITS (R118); a width above 32 fails check 4 of R84. -/
def execReadBits (width : BitVec 6) (s : State) : Host.Outcome State Fault Refusal :=
  command s <|
    require (widthOk width = true) s <|
    require (s.ropen = true) s <|
    (getBits width.toNat s).andThen fun v s => .ok (success v 0 0) s

/-- The four header fields at the cursor: FormatError at a wrong magic, before any other field is read; then rows, cols and
numColors (R119, R145). -/
def getHeader (s : State) : Result (Word × Word × Word) :=
  (getBits 32 s).andThen fun m s =>
  if m = Config.magic then
    (getBits 32 s).andThen fun r s =>
    (getBits 32 s).andThen fun c s =>
    (getBits 32 s).andThen fun n s => .ok (r, c, n) s
  else .raised .formatError s

/-- READ_HEADER (R119). -/
def execReadHeader (s : State) : Host.Outcome State Fault Refusal :=
  command s <|
    require (s.ropen = true) s <|
    (getHeader s).andThen fun h s => .ok (success h.1 h.2.1 h.2.2) s

end Sys2Proof.Machine
end

