-- ==== Sys2Proof/Machine/Writer.lean ====
section
/-! DEFINITION. WRITE_BITS, WRITE_HEADER, FLUSH and CLOSE (40_writer.md). -/

namespace Sys2Proof.Machine

/-- The four 32-bit fields of a file header (R110, R141). -/
def putHeader (rows cols numColors : Word) (s : State) : Result Unit :=
  (putBits Config.magic 32 s).andThen fun _ s =>
  (putBits rows 32 s).andThen fun _ s =>
  (putBits cols 32 s).andThen fun _ s =>
  putBits numColors 32 s

/-- WRITE_BITS (R109); a width above 32 fails check 4 of R84. -/
def execWriteBits (width : BitVec 6) (value : Word) (s : State) : Host.Outcome State Fault Refusal :=
  command s <|
    require (widthOk width = true) s <|
    require (s.wclosed = false) s <|
    (putBits value width.toNat s).andThen fun _ s => .ok (success 0 0 0) s

/-- WRITE_HEADER (R110). -/
def execWriteHeader (rows cols numColors : Word) (s : State) : Host.Outcome State Fault Refusal :=
  command s <|
    require (s.wclosed = false) s <|
    (putHeader rows cols numColors s).andThen fun _ s => .ok (success 0 0 0) s

/-- FLUSH (R111). -/
def execFlush (s : State) : Host.Outcome State Fault Refusal :=
  command s <|
    require (s.wclosed = false) s <|
    (flushBuf s).andThen fun _ s => .ok (success 0 0 0) s

/-- CLOSE (R112). -/
def execClose (s : State) : Host.Outcome State Fault Refusal :=
  command s <|
    require (s.wclosed = false) s <|
    (flushBuf s).andThen fun _ s => .ok (success 0 0 0) { s with wclosed := true }

end Sys2Proof.Machine
end

