-- ==== Sys2Proof/Machine/Codec.lean ====
section
/-! DEFINITION. RANK_WIDTH and the encoder and decoder commands (44_codec.md). -/

namespace Sys2Proof.Machine

/-- rcw(n), the rank-code width (R139). -/
def rankCodeWidth (n : Nat) : Nat := if n ≤ 1 then 0 else bitlen (n - 1)

/-- RANK_WIDTH (R140). -/
def execRankWidth (n : Word) (s : State) : Host.Outcome State Fault Refusal :=
  command s <| .ok (success (BitVec.ofNat 32 (rankCodeWidth n.toNat)) 0 0) s

/-- zext_64(A) * zext_64(B) (R141, R145): exact in 64 bits (R48). -/
def gridSize (rows cols : Word) : BitVec 64 := rows.setWidth 64 * cols.setWidth 64

/-- The registers that ENC_HEADER and DEC_HEADER load (R46, R47, R48). -/
def loadHeader (rows cols numColors : Word) (s : State) : State :=
  { s with
    rows := rows, cols := cols, ncolors := numColors
    rcw := BitVec.ofNat 6 (rankCodeWidth numColors.toNat)
    pixrem := gridSize rows cols }

/-- ENC_HEADER (R141). -/
def execEncHeader (rows cols : Word) (s : State) : Host.Outcome State Fault Refusal :=
  command s <|
    require (s.cphase = .idle) s <|
    require (s.rsorted = true) s <|
    require (s.wclosed = false ∧ s.wpos = 0 ∧ s.sinkcnt = 0) s <|
    require (gridSize rows cols = s.total) s <|
    if s.ndist.toNat > Config.maxColors then .raised .capacityError s
    else
      (putHeader rows cols (s.ndist.setWidth 32) s).andThen fun _ s =>
        .ok (success (s.ndist.setWidth 32) (BitVec.ofNat 32 (rankCodeWidth s.ndist.toNat)) 0)
          { loadHeader rows cols (s.ndist.setWidth 32) s with cphase := .encPal }

/-- The 18-bit palette entries of ranks i .. i + n − 1 (R142). -/
def putPalette (n i : Nat) (s : State) : Result Unit :=
  match n with
  | 0 => .ok () s
  | n + 1 => (putBits ((palEntry s i).setWidth 32) Config.keyBits s).andThen fun _ s => putPalette n (i + 1) s

/-- ENC_PALETTE (R142). -/
def execEncPalette (s : State) : Host.Outcome State Fault Refusal :=
  command s <|
    require (s.cphase = .encPal) s <|
    require (s.wclosed = false) s <|
    (putPalette s.ncolors.toNat 0 s).andThen fun _ s => .ok (success 0 0 0) { s with cphase := .encPix }

/-- ENC_PIXEL (R143). -/
def execEncPixel (pixel : Pixel) (s : State) : Host.Outcome State Fault Refusal :=
  command s <|
    require (s.cphase = .encPix) s <|
    require (s.wclosed = false) s <|
    require (s.pixrem ≠ 0) s <|
    require (cntEntry s (quant pixel) ≠ 0) s <|
    (putBits ((rankEntry s (quant pixel)).setWidth 32) s.rcw.toNat s).andThen fun _ t =>
      .ok (success ((rankEntry s (quant pixel)).setWidth 32) ((quant pixel).setWidth 32) 0) { t with pixrem := t.pixrem - 1 }

/-- ENC_FINISH (R144): the response is SINKCNT after the flush. -/
def execEncFinish (s : State) : Host.Outcome State Fault Refusal :=
  command s <|
    require (s.cphase = .encPix) s <|
    require (s.wclosed = false) s <|
    require (s.pixrem = 0) s <|
    (flushBuf s).andThen fun _ s =>
      .ok (success (s.sinkcnt.extractLsb' 0 32) (s.sinkcnt.extractLsb' 32 32) 0) { s with wclosed := true, cphase := .encDone }

/-- DEC_HEADER (R145). -/
def execDecHeader (s : State) : Host.Outcome State Fault Refusal :=
  command s <|
    require (s.cphase = .idle) s <|
    require (s.ropen = true) s <|
    require (s.rpos = 0) s <|
    (getHeader s).andThen fun h s =>
      if h.2.2.toNat > Config.maxColors then .raised .formatError s
      else .ok (success h.1 h.2.1 h.2.2) { loadHeader h.1 h.2.1 h.2.2 s with rsorted := false, cphase := .decPal }

/-- PAL[i] <- GetBits(18) for n entries from index i on (R146). -/
def getPalette (n i : Nat) (s : State) : Result Unit :=
  match n with
  | 0 => .ok () s
  | n + 1 =>
    (getBits Config.keyBits s).andThen fun v s =>
      getPalette n (i + 1) { s with pal := writeCell tableUnlisted s.pal i (v.setWidth 18) }

/-- DEC_PALETTE (R146). -/
def execDecPalette (s : State) : Host.Outcome State Fault Refusal :=
  command s <|
    require (s.cphase = .decPal) s <|
    (getPalette s.ncolors.toNat 0 s).andThen fun _ s =>
      .ok (success s.ncolors 0 0) { s with palLen := s.ncolors.setWidth 19, cphase := .decPix }

/-- DEC_PIXEL (R147): the range check comes before the lookup (C2). -/
def execDecPixel (s : State) : Host.Outcome State Fault Refusal :=
  command s <|
    require (s.cphase = .decPix) s <|
    require (s.pixrem ≠ 0) s <|
    (getBits s.rcw.toNat s).andThen fun rank s =>
      if rank.toNat < s.ncolors.toNat then
        .ok (success (packPixel (dequant (palEntry s rank.toNat))) rank ((palEntry s rank.toNat).setWidth 32))
          { s with pixrem := s.pixrem - 1 }
      else .raised .formatError s

end Sys2Proof.Machine
end

