-- ==== Sys2Proof/Machine/Control.lean ====
section
/-! DEFINITION. NOP, RESET and REG_READ (45_control.md), the three commands the block runs while ERR ≠ 0 (R84 check 1). -/

namespace Sys2Proof.Machine

/-- NOP (R158). -/
def execNop (s : State) : Host.Outcome State Fault Refusal :=
  .next (respond (success 0 0 0) s)

/-- RESET (R159). -/
def execReset (s : State) : Host.Outcome State Fault Refusal :=
  .next (respond (success 0 0 0) (resetState s))

/-- REG_READ (R160): in the error state all but ERR, the hardwired bits of STATUS and the hardwired registers read as free
values (log 7). -/
def execRegRead (number : Word) (s : State) : Host.Outcome State Fault Refusal :=
  if s.err = .noError then
    match regValue s number with
    | some v => .next (respond (success v 0 0) s)
    | none => .next (raiseError .usageError s)
  else
    match regValueInError s number with
    | some v => .next (respond (success v 0 0) { s with freeDraws := s.freeDraws + 1 })
    | none => .next (raiseError .usageError s)

end Sys2Proof.Machine
end

