-- ==== Sys2Proof/Machine/Ranker.lean ====
section
/-! DEFINITION. RANK_CLEAR, RANK_COUNT, RANK_SORT, RANK_LOOKUP and PAL_READ (43_ranker.md). -/

namespace Sys2Proof.Machine

/-- What orders equal counts: a key's index in SEEN[0 .. NDIST−1], or the key itself (R130, R135). -/
def tieRank (s : State) (k : Key) : Nat :=
  match s.params.tieBreak with
  | .firstSeen => (seenKeys s).idxOf k
  | .keyAsc => k.toNat

/-- "a before b" of R130. -/
def before (s : State) (a b : Key) : Bool :=
  decide ((cntEntry s b).toNat < (cntEntry s a).toNat) ||
    (decide (cntEntry s a = cntEntry s b) && decide (tieRank s a < tieRank s b))

/-- L: SEEN[0 .. NDIST−1] sorted by "before" (R130): no key stands behind one it is before. -/
def rankedKeys (s : State) : List Key := (seenKeys s).insertionSort (fun a b => before s b a = false)

/-- PAL[i] <- k and RANKOF[k] <- i for the keys from rank i on (R130). -/
def storeRanking (keys : List Key) (i : Nat) (s : State) : State :=
  match keys with
  | [] => s
  | k :: rest =>
    storeRanking rest (i + 1)
      { s with
        pal := writeCell tableUnlisted s.pal i k
        rankof := writeCell tableUnlisted s.rankof k.toNat (BitVec.ofNat 18 i) }

/-- One occurrence of key k (R129). -/
def countKey (k : Key) (s : State) : State :=
  { s with
    seen := if cntEntry s k = 0 then writeCell tableUnlisted s.seen s.ndist.toNat k else s.seen
    ndist := if cntEntry s k = 0 then s.ndist + 1 else s.ndist
    cnt := writeCell cntUnlisted s.cnt k.toNat (cntEntry s k + 1)
    total := s.total + 1
    rsorted := false }

/-- RANK_CLEAR (R128). -/
def execRankClear (s : State) : Host.Outcome State Fault Refusal :=
  command s <|
    require (s.cphase = .idle) s <|
    .ok (success 0 0 0) { s with cnt := [], ndist := 0, total := 0, rsorted := false, palLen := 0 }

/-- RANK_COUNT (R129). -/
def execRankCount (pixel : Pixel) (s : State) : Host.Outcome State Fault Refusal :=
  command s <|
    require (s.cphase = .idle) s <|
    require (s.total.toNat ≠ 2 ^ 64 - 1) s <|
    .ok (success ((quant pixel).setWidth 32) 0 0) (countKey (quant pixel) s)

/-- RANK_SORT (R130). -/
def execRankSort (s : State) : Host.Outcome State Fault Refusal :=
  command s <|
    require (s.cphase = .idle) s <|
    .ok (success (s.ndist.setWidth 32) 0 0)
      { storeRanking (rankedKeys s) 0 s with palLen := s.ndist, rsorted := true }

/-- RANK_LOOKUP (R131). -/
def execRankLookup (key : Key) (s : State) : Host.Outcome State Fault Refusal :=
  command s <|
    require (s.rsorted = true) s <|
    require (cntEntry s key ≠ 0) s <|
    .ok (success ((rankEntry s key).setWidth 32) 0 0) s

/-- PAL_READ (R132): all 32 bits of the rank are compared. -/
def execPalRead (rank : Word) (s : State) : Host.Outcome State Fault Refusal :=
  command s <|
    require (rank.toNat < s.palLen.toNat) s <|
    .ok (success ((palEntry s rank.toNat).setWidth 32) 0 0) s

end Sys2Proof.Machine
end

