-- ==== Sys2Proof/Machine/Dispatch.lean ====
section
/-! DEFINITION. Each command's meaning, one arm per constructor of Instr. -/

namespace Sys2Proof.Machine

def exec (i : Instr) (s : State) : Host.Outcome State Fault Refusal :=
  match i with
  -- control, 45_control.md
  | .nop => Sys2Proof.Machine.execNop s
  | .reset => Sys2Proof.Machine.execReset s
  | .regRead number => Sys2Proof.Machine.execRegRead number s
  -- writer, 40_writer.md
  | .writeBits width value => Sys2Proof.Machine.execWriteBits width value s
  | .writeHeader rows cols numColors => Sys2Proof.Machine.execWriteHeader rows cols numColors s
  | .flush => Sys2Proof.Machine.execFlush s
  | .close => Sys2Proof.Machine.execClose s
  -- reader, 41_reader.md
  | .srcWrite offset byte => Sys2Proof.Machine.execSrcWrite offset byte s
  | .readerOpen length => Sys2Proof.Machine.execReaderOpen length s
  | .readBits width => Sys2Proof.Machine.execReadBits width s
  | .readHeader => Sys2Proof.Machine.execReadHeader s
  -- quantizer, 42_quantizer.md
  | .quantize pixel => Sys2Proof.Machine.execQuantize pixel s
  | .dequantize key => Sys2Proof.Machine.execDequantize key s
  -- ranker, 43_ranker.md
  | .rankClear => Sys2Proof.Machine.execRankClear s
  | .rankCount pixel => Sys2Proof.Machine.execRankCount pixel s
  | .rankSort => Sys2Proof.Machine.execRankSort s
  | .rankLookup key => Sys2Proof.Machine.execRankLookup key s
  | .palRead rank => Sys2Proof.Machine.execPalRead rank s
  -- codec, 44_codec.md
  | .encHeader rows cols => Sys2Proof.Machine.execEncHeader rows cols s
  | .encPalette => Sys2Proof.Machine.execEncPalette s
  | .encPixel pixel => Sys2Proof.Machine.execEncPixel pixel s
  | .encFinish => Sys2Proof.Machine.execEncFinish s
  | .rankWidth n => Sys2Proof.Machine.execRankWidth n s
  | .decHeader => Sys2Proof.Machine.execDecHeader s
  | .decPalette => Sys2Proof.Machine.execDecPalette s
  | .decPixel => Sys2Proof.Machine.execDecPixel s

end Sys2Proof.Machine
end

