-- ==== Sys2Proof/Machine/Step.lean ====
section
/-! DEFINITION. One step: the block takes the host's next input (log 1). -/

namespace Sys2Proof.Machine

/-- One command word: the decode checks of R84, then the command. -/
def runCommand (w : Command) (s : State) : Host.Outcome State Fault Refusal :=
  match decode w with
  | .ok i => exec i s
  | .error _ => illegalWord w s

/-- One step: the next command, or the reset input (R186), or, where the host has sent nothing, an idle block that "keeps all its
state" (R184). -/
def step (s : State) : Host.Outcome State Fault Refusal :=
  match s.inputs with
  | [] => .next s
  | .command w :: _ => runCommand w (takeInput s)
  | .reset :: _ => .next (resetState (takeInput s))
  | .commandCutByReset w offered :: _ => cutOutcome offered (takeInput s) (runCommand w (takeInput s))

/-- s with the command whose low `nbits` bits are w as the input the next step takes. -/
def State.withFetchWord (s : State) (nbits w : Nat) : State :=
  { s with inputs := .command (tableCommand nbits w) :: s.inputs.drop 1 }

end Sys2Proof.Machine
end

