-- ==== Sys2Proof/Safety.lean ====
section
/-! DEFINITION. The terms claims use: what a command leaves as it was, how it completes and how it raises an error, the bits of
the streams, the sink's coming answers, and the invariants of R54. -/

namespace Sys2Proof.Machine

/-! ### Streams as bits -/

/-- Stream bit k of WBUF (R60). -/
def wbufBit (s : State) (k : Nat) : Bool := (wbufByte s (k / 8)).getLsbD (k % 8)

/-- The bits written and not yet emitted: the first WPOS bits of WBUF (R30). -/
def pendingBits (s : State) : List Bool := (List.range s.wpos.toNat).map (wbufBit s)

/-- A byte's bits, bit 0 first (R60). -/
def byteBits (b : Byte) : List Bool := (List.range 8).map (fun i => b.getLsbD i)

/-- The bits of a byte stream in stream order (R60). -/
def bytesBits (bytes : List Byte) : List Bool := bytes.flatMap byteBits

/-- v is the w-bit field of SRC at stream bit pos: its bit i is stream bit pos + i, and it is zero from bit w on (R60, R117). -/
def FieldAt (s : State) (pos w : Nat) (v : Word) : Prop :=
  ∀ i, v.getLsbD i = (decide (i < w) && (srcBit? s (pos + i)).getD false)

/-- Stream bits lo .. hi − 1 of SRC lie in bytes that SRC_WRITE has written since reset. -/
def SrcWritten (s : State) (lo hi : Nat) : Prop := ∀ k, lo ≤ k → k < hi → srcBit? s k ≠ none

/-- The reader has w more bits, all of them written (R117). -/
def Readable (s : State) (w : Nat) : Prop :=
  s.rpos.toNat + w ≤ 8 * s.srcLen.toNat ∧ SrcWritten s s.rpos.toNat (s.rpos.toNat + w)

/-! ### The sink's coming answers -/

/-- The sink's answer to the i-th byte offered from now on (R61). -/
def answerAt (s : State) (i : Nat) : Bool := (s.sinkAnswers[i]?).getD (Config.sinkOk (s.sinkOffers + i))

/-- The sink accepts the next n bytes. -/
def SinkAccepts (s : State) (n : Nat) : Prop := ∀ i, i < n → answerAt s i = true

/-- The sink accepts j bytes and refuses the next. -/
def FirstRefusalAt (s : State) (j : Nat) : Prop := SinkAccepts s j ∧ answerAt s j = false

/-! ### What is left as it was -/

/-- The response r was delivered, and stands in RSTATUS and RES0 to RES2 (R80). -/
def Responded (s t : State) (r : Response) : Prop :=
  t.rstatus = r.status ∧ t.res0 = r.r0 ∧ t.res1 = r.r1 ∧ t.res2 = r.r2 ∧ t.responses = s.responses ++ [r]

/-- Every bit of WBUF, WPOS, WCLOSED, SINKCNT, the sink stream and the sink's coming answers. -/
def SameWriter (s t : State) : Prop :=
  (∀ k, wbufBit t k = wbufBit s k) ∧ t.wpos = s.wpos ∧ t.wclosed = s.wclosed ∧ t.sinkcnt = s.sinkcnt ∧ t.sink = s.sink ∧
    t.sinkAnswers = s.sinkAnswers ∧ t.sinkOffers = s.sinkOffers

/-- Every byte of SRC, SRC_LEN, ROPEN and RPOS. -/
def SameReader (s t : State) : Prop :=
  (∀ j, srcByte? t j = srcByte? s j) ∧ t.srcLen = s.srcLen ∧ t.ropen = s.ropen ∧ t.rpos = s.rpos

/-- Every entry of CNT and of SEEN, NDIST and TOTAL. -/
def SameCounts (s t : State) : Prop :=
  (∀ k, cntEntry t k = cntEntry s k) ∧ (∀ i, seenEntry t i = seenEntry s i) ∧ t.ndist = s.ndist ∧ t.total = s.total

/-- Every entry of PAL and of RANKOF, PAL_LEN and RSORTED. -/
def SameRanking (s t : State) : Prop :=
  (∀ i, palEntry t i = palEntry s i) ∧ (∀ k, rankEntry t k = rankEntry s k) ∧ t.palLen = s.palLen ∧ t.rsorted = s.rsorted

/-- CPHASE, ROWS, COLS, NCOLORS, RCW and PIXREM. -/
def SameCodec (s t : State) : Prop :=
  t.cphase = s.cphase ∧ t.rows = s.rows ∧ t.cols = s.cols ∧ t.ncolors = s.ncolors ∧ t.rcw = s.rcw ∧ t.pixrem = s.pixrem

/-- SRC_MAX, TIE_BREAK and the inputs the host has sent. -/
def SameHost (s t : State) : Prop := t.params = s.params ∧ t.inputs = s.inputs

/-- Everything but the response. -/
def SameAll (s t : State) : Prop :=
  SameWriter s t ∧ SameReader s t ∧ SameCounts s t ∧ SameRanking s t ∧ SameCodec s t ∧ SameHost s t ∧ t.err = s.err

/-- The reset values of R57: every element that has one, the response registers with them, ABORT = 0, and no byte of SRC written. -/
def HasResetValues (t : State) : Prop :=
  (t.wpos = 0 ∧ t.wclosed = false ∧ t.sinkcnt = 0) ∧
  (t.srcLen = 0 ∧ t.rpos = 0 ∧ t.ropen = false ∧ ∀ j, srcByte? t j = none) ∧
  ((∀ k, cntEntry t k = 0) ∧ t.ndist = 0 ∧ t.total = 0 ∧ t.palLen = 0 ∧ t.rsorted = false) ∧
  (t.cphase = .idle ∧ t.rows = 0 ∧ t.cols = 0 ∧ t.ncolors = 0 ∧ t.rcw = 0 ∧ t.pixrem = 0) ∧
  (t.err = .noError ∧ t.abort = false ∧ t.rstatus = .noError ∧ t.res0 = 0 ∧ t.res1 = 0 ∧ t.res2 = 0)

/-- The register map of R52 with the fields of STATUS of R53: the number and the value of each register while ERR = 0. -/
def registerTable (s : State) : List (Word × Word) :=
  [ (0x00, BitVec.ofNat 32 ((errBits s.err).toNat + 8 * s.wclosed.toNat + 16 * s.ropen.toNat + 32 * s.rsorted.toNat +
      64 * (phaseBits s.cphase).toNat)),
    (0x01, BitVec.ofNat 32 s.wpos.toNat),
    (0x02, BitVec.ofNat 32 s.sinkcnt.toNat), (0x03, BitVec.ofNat 32 (s.sinkcnt.toNat / 2 ^ 32)),
    (0x04, s.srcLen),
    (0x05, BitVec.ofNat 32 s.rpos.toNat), (0x06, BitVec.ofNat 32 (s.rpos.toNat / 2 ^ 32)),
    (0x07, BitVec.ofNat 32 s.ndist.toNat),
    (0x08, BitVec.ofNat 32 s.total.toNat), (0x09, BitVec.ofNat 32 (s.total.toNat / 2 ^ 32)),
    (0x0A, BitVec.ofNat 32 s.palLen.toNat),
    (0x0B, s.rows), (0x0C, s.cols), (0x0D, s.ncolors),
    (0x0E, BitVec.ofNat 32 s.rcw.toNat),
    (0x0F, BitVec.ofNat 32 s.pixrem.toNat), (0x10, BitVec.ofNat 32 (s.pixrem.toNat / 2 ^ 32)),
    (0x11, 0xFFBEADFF),
    (0x12, if s.params.tieBreak = .keyAsc then 1 else 0),
    (0x13, s.params.srcMax) ]

/-! ### How a command ends -/

/-- A word with this OP and with RSV and W zero is the command `f` makes of its operands (R79, R83). -/
def DecodesAt (op : BitVec 8) (f : Command → Instr) : Prop :=
  ∀ w, opField w = op → rsvField w = 0 → widthField w = 0 → decode w = .ok (f w)

/-- The opcodes of R83. -/
def assignedOpcodes : List (BitVec 8) :=
  [0x00, 0x01, 0x02, 0x10, 0x11, 0x12, 0x13, 0x18, 0x19, 0x1A, 0x1B, 0x20, 0x21, 0x30, 0x31, 0x32, 0x33, 0x34, 0x40, 0x41,
    0x42, 0x43, 0x44, 0x48, 0x49, 0x4A]

/-- A word passes the decode checks 2 to 4 of R84. -/
def PassesChecks (w : Command) : Prop :=
  opField w ∈ assignedOpcodes ∧ rsvField w = 0 ∧
    (if opField w = 0x10 ∨ opField w = 0x1A then (widthField w).toNat ≤ 32 else widthField w = 0)

/-- Command i, run in s, answers the next state t with response r, and ERR is 0. -/
def Completes (i : Instr) (s t : State) (r : Response) : Prop :=
  exec i s = .next t ∧ Responded s t r ∧ t.err = .noError ∧ SameHost s t ∧ t.freeDraws = s.freeDraws

/-- Command i, run in s, takes the error entry with code e after the sink has accepted `bytes` from it (R165): ERR is e, the
response is (e, 0, 0, 0). -/
def RaisesAfter (i : Instr) (s : State) (e : ErrCode) (bytes : List Byte) : Prop :=
  ∃ t, exec i s = .next t ∧ t.err = e ∧ Responded s t ⟨e, 0, 0, 0⟩ ∧ t.sink = s.sink ++ bytes ∧ SameHost s t

/-- The error entry of a command that has emitted nothing. -/
def Raises (i : Instr) (s : State) (e : ErrCode) : Prop := RaisesAfter i s e []

/-! ### What PutBits and FlushBuf do to the writer -/

/-- t is s with `bits` appended by PutBits (R107): the bits go behind the pending ones, every full buffer is emitted, and
WCLOSED stays. A bit of WBUF that no appended bit lands on is as it was. -/
def AppendsBits (s t : State) (bits : List Bool) : Prop :=
  t.wpos.toNat = (s.wpos.toNat + bits.length) % 32768 ∧
  (∃ bytes, t.sink = s.sink ++ bytes ∧ bytes.length = 4096 * ((s.wpos.toNat + bits.length) / 32768) ∧
    bytesBits bytes ++ pendingBits t = pendingBits s ++ bits ∧
    t.sinkcnt = s.sinkcnt + BitVec.ofNat 64 bytes.length ∧
    t.sinkAnswers = s.sinkAnswers.drop bytes.length ∧ t.sinkOffers = s.sinkOffers + bytes.length) ∧
  (∀ k, (∀ i, i < bits.length → k ≠ (s.wpos.toNat + i) % 32768) → wbufBit t k = wbufBit s k) ∧
  t.wclosed = s.wclosed

/-- How many bytes the sink is offered while n bits are appended (R107). -/
def bytesOffered (s : State) (n : Nat) : Nat := 4096 * ((s.wpos.toNat + n) / 32768)

/-- t is s after FlushBuf (R108): the pending bits and zero bits to the byte boundary are emitted, WPOS is 0, and WBUF is as it
was. -/
def FlushesBits (s t : State) : Prop :=
  t.wpos = 0 ∧ (∀ k, wbufBit t k = wbufBit s k) ∧
  ∃ bytes, t.sink = s.sink ++ bytes ∧ bytes.length = (s.wpos.toNat + 7) / 8 ∧
    bytesBits bytes = pendingBits s ++ List.replicate (8 * ((s.wpos.toNat + 7) / 8) - s.wpos.toNat) false ∧
    t.sinkcnt = s.sinkcnt + BitVec.ofNat 64 bytes.length ∧
    t.sinkAnswers = s.sinkAnswers.drop bytes.length ∧ t.sinkOffers = s.sinkOffers + bytes.length

/-- The first w bits of a value, bit 0 first (R14). -/
def fieldBits (v w : Nat) : List Bool := (List.range w).map (fun i => v.testBit i)

/-- The 128 bits of a file header (R110). -/
def headerBits (rows cols numColors : Word) : List Bool :=
  fieldBits 0xFFBEADFF 32 ++ fieldBits rows.toNat 32 ++ fieldBits cols.toNat 32 ++ fieldBits numColors.toNat 32

/-- The key of a pixel by the formula of R19 and R123. -/
def IsKeyOf (k : Key) (p : Pixel) : Prop := k.toNat = p.r.toNat / 4 * 4096 + p.g.toNat / 4 * 64 + p.b.toNat / 4

/-- "a before b" of R130 for keys of SEEN[0 .. NDIST−1], by the parameter TIE_BREAK. -/
def ComesBefore (s : State) (a b : Key) : Prop :=
  (cntEntry s b).toNat < (cntEntry s a).toNat ∨
    cntEntry s a = cntEntry s b ∧
      match s.params.tieBreak with
      | .firstSeen => (seenKeys s).idxOf a < (seenKeys s).idxOf b
      | .keyAsc => a.toNat < b.toNat

/-- The states differ at most in the bits of WBUF at and above WPOS (R29). -/
def SameButStaleBits (s t : State) : Prop :=
  t = { s with wbuf := t.wbuf } ∧ ∀ k, k < s.wpos.toNat → wbufBit t k = wbufBit s k

/-! ### Which commands write which state (R56) -/

/-- The rows of the table of R56, the sink stream with SINKCNT. -/
inductive Part where
  | buffer
  | closed
  | emitted
  | source
  | opened
  | cursor
  | counts
  | sorted
  | palette
  | paletteLength
  | ranks
  | phase
  | header
  | pixelsLeft
deriving DecidableEq, Repr

/-- The rows of R56 that name a command other than RESET. READER_OPEN is also under the cursor, which it sets to 0 (R116). -/
def writtenParts (i : Instr) : List Part :=
  match i with
  | .nop | .reset | .regRead _ | .quantize _ | .dequantize _ | .rankLookup _ | .palRead _ | .rankWidth _ => []
  | .writeBits _ _ | .writeHeader _ _ _ | .flush => [.buffer, .emitted]
  | .close => [.buffer, .closed, .emitted]
  | .srcWrite _ _ => [.source]
  | .readerOpen _ => [.opened, .cursor]
  | .readBits _ | .readHeader => [.cursor]
  | .rankClear => [.counts, .sorted, .paletteLength]
  | .rankCount _ => [.counts, .sorted]
  | .rankSort => [.sorted, .palette, .paletteLength, .ranks]
  | .encHeader _ _ => [.buffer, .emitted, .phase, .header, .pixelsLeft]
  | .encPalette => [.buffer, .emitted, .phase]
  | .encPixel _ => [.buffer, .emitted, .pixelsLeft]
  | .encFinish => [.buffer, .closed, .emitted, .phase]
  | .decHeader => [.cursor, .sorted, .phase, .header, .pixelsLeft]
  | .decPalette => [.cursor, .palette, .paletteLength, .phase]
  | .decPixel => [.cursor, .pixelsLeft]

/-- A row's state is in t what it is in s. -/
def SamePart (part : Part) (s t : State) : Prop :=
  match part with
  | .buffer => (∀ k, wbufBit t k = wbufBit s k) ∧ t.wpos = s.wpos
  | .closed => t.wclosed = s.wclosed
  | .emitted => t.sinkcnt = s.sinkcnt ∧ t.sink = s.sink
  | .source => ∀ j, srcByte? t j = srcByte? s j
  | .opened => t.srcLen = s.srcLen ∧ t.ropen = s.ropen
  | .cursor => t.rpos = s.rpos
  | .counts => SameCounts s t
  | .sorted => t.rsorted = s.rsorted
  | .palette => ∀ i, palEntry t i = palEntry s i
  | .paletteLength => t.palLen = s.palLen
  | .ranks => ∀ k, rankEntry t k = rankEntry s k
  | .phase => t.cphase = s.cphase
  | .header => t.rows = s.rows ∧ t.cols = s.cols ∧ t.ncolors = s.ncolors ∧ t.rcw = s.rcw
  | .pixelsLeft => t.pixrem = s.pixrem

/-! ### Runs of commands -/

/-- The commands one after another, each on the state the one before it left. -/
def execAll (is : List Instr) (s : State) : Host.Outcome State Fault Refusal :=
  match is with
  | [] => .next s
  | i :: rest =>
    match exec i s with
    | .next t => execAll rest t
    | .fault f => .fault f
    | .refused r => .refused r

/-- SRC_WRITE for each byte, at offsets from `offset` on. -/
def srcWrites (offset : Nat) (bytes : List Byte) : List Instr :=
  match bytes with
  | [] => []
  | b :: rest => .srcWrite (BitVec.ofNat 32 offset) b :: srcWrites (offset + 1) rest

/-- The pseudo-instruction ENCODE_IMAGE (R88): the grid's pixels in raster order, twice. -/
def encodeImage (rows cols : Word) (pixels : List Pixel) : List Instr :=
  .reset :: pixels.map .rankCount ++ [.rankSort, .encHeader rows cols, .encPalette] ++ pixels.map .encPixel ++ [.encFinish]

/-- The pseudo-instruction DECODE_IMAGE (R88) for a byte string and a number of pixels. -/
def decodeImage (bytes : List Byte) (pixels : Nat) : List Instr :=
  .reset :: srcWrites 0 bytes ++ [.readerOpen (BitVec.ofNat 32 bytes.length), .decHeader, .decPalette] ++
    List.replicate pixels .decPixel

/-! ### Invariants -/

/-- Every memory is in its canonical form. -/
def CanonicalMemories (s : State) : Prop :=
  CellsWf wbufUnlisted s.wbuf ∧ CellsWf srcUnlisted s.src ∧ CellsWf cntUnlisted s.cnt ∧ CellsWf tableUnlisted s.seen ∧
    CellsWf tableUnlisted s.pal ∧ CellsWf tableUnlisted s.rankof

/-- Every memory lists only entries it has (R29, R33, R37, R38, R42, R44). -/
def MemoriesInRange (s : State) : Prop :=
  CellsBelow 4096 s.wbuf ∧ CellsBelow s.params.srcMax.toNat s.src ∧ CellsBelow 262144 s.cnt ∧ CellsBelow 262144 s.seen ∧
    CellsBelow 262144 s.pal ∧ CellsBelow 262144 s.rankof

/-- PAL[0 .. PAL_LEN−1] (R42, R43). -/
def paletteKeys (s : State) : List Key := (List.range s.palLen.toNat).map (palEntry s)

/-- The entries that commands may read have the values the commands gave them: SEEN below NDIST, PAL below PAL_LEN (R38, R42). -/
def TablesSpecified (s : State) : Prop :=
  (∀ i, i < s.ndist.toNat → cellAt? s.seen i ≠ none) ∧ (∀ i, i < s.palLen.toNat → cellAt? s.pal i ≠ none)

/-- R54 item 3: SEEN[0 .. NDIST−1] lists exactly the keys with CNT > 0, each once (so NDIST is their number), and TOTAL is the sum
of their counts. -/
def CountsConsistent (s : State) : Prop :=
  (seenKeys s).Nodup ∧ (∀ k, k ∈ seenKeys s ↔ cntEntry s k ≠ 0) ∧
    s.total.toNat = ((seenKeys s).map (fun k => (cntEntry s k).toNat)).sum

/-- R54 item 4: what RSORTED = 1 promises. -/
def RankingConsistent (s : State) : Prop :=
  s.palLen = s.ndist ∧ (paletteKeys s).Perm (seenKeys s) ∧
    (∀ i, i + 1 < s.palLen.toNat → (cntEntry s (palEntry s (i + 1))).toNat ≤ (cntEntry s (palEntry s i)).toNat) ∧
    ∀ i, i < s.palLen.toNat → (rankEntry s (palEntry s i)).toNat = i

/-- The seven invariants of R54, for a state with ERR = 0. -/
def R54 (s : State) : Prop :=
  s.wpos.toNat ≤ 32767 ∧
  (s.rpos.toNat ≤ 8 * s.srcLen.toNat ∧ s.srcLen.toNat ≤ s.params.srcMax.toNat) ∧
  CountsConsistent s ∧
  (s.rsorted = true → RankingConsistent s) ∧
  (s.cphase = .encPal ∨ s.cphase = .encPix ∨ s.cphase = .encDone →
    s.rsorted = true ∧ s.ncolors.toNat = s.ndist.toNat ∧ s.ndist.toNat ≤ 2 ^ 18) ∧
  (s.cphase = .decPal ∨ s.cphase = .decPix → s.ncolors.toNat ≤ 2 ^ 18) ∧
  (s.cphase = .decPix → s.palLen.toNat = s.ncolors.toNat) ∧
  (s.cphase ≠ .idle → s.rcw.toNat = rankCodeWidth s.ncolors.toNat)

/-- DEC_HEADER clears RSORTED (R41, R145), and nothing sets it while decoding (R130). -/
def UnrankedWhileDecoding (s : State) : Prop := s.cphase = .decPal ∨ s.cphase = .decPix → s.rsorted = false

/-- The invariant that every step keeps: R12's bound on SRC_MAX and the memories' form always, R54 and what it rests on while
ERR = 0. -/
def Invariant (s : State) : Prop :=
  1 ≤ s.params.srcMax.toNat ∧ CanonicalMemories s ∧ MemoriesInRange s ∧
    (s.err = .noError → R54 s ∧ TablesSpecified s ∧ UnrankedWhileDecoding s)

end Sys2Proof.Machine
end

