-- ==== Sys2Proof/Certificates/Slice0/Obligations.lean ====
section
/-! DEFINITION. The statements for the provers, each formalising what a numbered rule of spec/ says, in the terms of Safety.lean. -/

open Sys2Proof Sys2Proof.Machine

/-! ## Encoding -/

/-- Command words written out from R79 and R87 decode to the commands they stand for: one word of each group of R83. -/
def Obligations.SpecCommandWordsDecode : Prop :=
  decode 0x00000000000000000000000500000510 = .ok (.writeBits 5 5) ∧
  decode 0x0000000000000000000001FF00000910 = .ok (.writeBits 9 0x1FF) ∧
  decode 0x0000000000000000000000000000121A = .ok (.readBits 18) ∧
  decode 0x0000000000000000000000FF00000042 = .ok (.encPixel ⟨255, 0, 0⟩) ∧
  decode 0x00000000000000030000000200000040 = .ok (.encHeader 2 3) ∧
  decode 0x00000000000000000000000000000000 = .ok .nop ∧
  decode 0x00000000000000000020408000000020 = .ok (.quantize ⟨128, 64, 32⟩) ∧
  decode 0x00000000000000000000214700000033 = .ok (.rankLookup 0x2147)

/-- For every well-formed command with every operand, decoding its word gives it back. -/
def Obligations.DecodeInvertsEncode : Prop :=
  ∀ i : Instr, i.wf = true → decode (encode i) = .ok i

/-- What the decoder accepts is well-formed, and its encoding has the word's OP, W and RSV (bits 31:0): the operands alone may
differ, in bits the command ignores (R81). -/
def Obligations.DecodedCommandReencodesItsSelector : Prop :=
  ∀ (w : Command) (i : Instr), decode w = .ok i →
    i.wf = true ∧ (encode i).extractLsb' 0 32 = w.extractLsb' 0 32

/-- R86: every 128-bit word either selects exactly one row of the opcode map and passes checks 3 and 4, or raises UsageError. -/
def Obligations.EveryWordSelectsOneRowOrRaisesUsageError : Prop :=
  ∀ w : Command,
    (PassesChecks w →
      ∃ row ∈ opcodeMap, row.op = opField w ∧ (∀ other ∈ opcodeMap, other.op = opField w → other = row) ∧
        decode w = .ok (row.build w)) ∧
    (¬PassesChecks w → ∀ (s : State) (rest : List HostInput), s.err = .noError → s.inputs = .command w :: rest →
      ∃ t, step s = .next t ∧ t.err = .usageError ∧ Responded s t ⟨.usageError, 0, 0, 0⟩ ∧ t.sink = s.sink ∧
        t.params = s.params ∧ t.inputs = rest)

/-- Checks 2 to 4 of R84 decide in their order: unassigned OP first, then RSV, then W. -/
def Obligations.FirstFailingDecodeCheckDecides : Prop :=
  ∀ w : Command,
    (decode w = .error .unassignedOpcode ↔ opField w ∉ assignedOpcodes) ∧
    (decode w = .error .reservedBitsSet ↔ opField w ∈ assignedOpcodes ∧ rsvField w ≠ 0) ∧
    (decode w = .error .widthOutOfRange ↔ opField w ∈ assignedOpcodes ∧ rsvField w = 0 ∧ ¬PassesChecks w)

/-! ## The step -/

/-- Where the next input is a command word that decodes to i, the step is exec of i on the state with that input taken. -/
def Obligations.StepRunsTheDecodedCommand : Prop :=
  ∀ (s : State) (w : Command) (rest : List HostInput) (i : Instr), s.inputs = .command w :: rest → decode w = .ok i →
    step s = exec i { s with inputs := rest }

/-- R184: between commands the block is idle and keeps all its state (the model's step with no input waiting, log 1). -/
def Obligations.IdleBlockKeepsItsState : Prop :=
  ∀ s : State, s.inputs = [] → step s = .next s

/-- R186, R187: the reset input gives the reset values and no response, in any state; asserted while a command runs it does the
same, the sink keeping at most the bytes that the command had been able to offer by then (log 14). -/
def Obligations.ResetInputGivesResetValuesAndNoResponse : Prop :=
  (∀ (s : State) (rest : List HostInput), s.inputs = .reset :: rest →
    ∃ t, step s = .next t ∧ HasResetValues t ∧ t.sink = s.sink ∧ t.responses = s.responses ∧ t.params = s.params ∧
      t.inputs = rest) ∧
  ∀ (s : State) (w : Command) (n : Nat) (rest : List HostInput), s.inputs = .commandCutByReset w n :: rest →
    ∃ t, step s = .next t ∧ HasResetValues t ∧ t.responses = s.responses ∧ t.params = s.params ∧ t.inputs = rest ∧
      ∃ bytes, t.sink = s.sink ++ bytes ∧ bytes.length ≤ n ∧
        ∀ u, step { s with inputs := .command w :: rest } = .next u → ∃ more, u.sink = s.sink ++ bytes ++ more

/-- Every command word the host issues is answered by exactly one response, with zero results if its code is an error. -/
def Obligations.EachCommandDeliversOneResponse : Prop :=
  ∀ (s t : State) (w : Command) (rest : List HostInput), s.inputs = .command w :: rest → step s = .next t →
    ∃ r, Responded s t r ∧ (r.status ≠ .noError → r.r0 = 0 ∧ r.r1 = 0 ∧ r.r2 = 0)

/-- The parameters of an instance never change. -/
def Obligations.StepKeepsTheParameters : Prop :=
  ∀ s t : State, step s = .next t → t.params = s.params

/-- A byte once in the sink stream stays there; only the commands of R62 emit. -/
def Obligations.SinkStreamIsAppendOnly : Prop :=
  (∀ s t : State, step s = .next t → ∃ bytes, t.sink = s.sink ++ bytes) ∧
  ∀ (i : Instr) (s t : State),
    (∀ width value, i ≠ .writeBits width value) → (∀ r c n, i ≠ .writeHeader r c n) → i ≠ .flush → i ≠ .close →
    (∀ r c, i ≠ .encHeader r c) → i ≠ .encPalette → (∀ p, i ≠ .encPixel p) → i ≠ .encFinish →
    exec i s = .next t → t.sink = s.sink

/-- SINKCNT counts the bytes the sink accepts: a command other than RESET that ends with ERR = 0 adds to SINKCNT the number of
bytes it appended to the sink stream. -/
def Obligations.SinkcntCountsAcceptedBytes : Prop :=
  ∀ (i : Instr) (s t : State), i ≠ .reset → exec i s = .next t → t.err = .noError →
    ∃ bytes, t.sink = s.sink ++ bytes ∧ t.sinkcnt = s.sinkcnt + BitVec.ofNat 64 bytes.length

/-- R56: a command other than RESET that ends with ERR = 0 writes only the state that the table of R56 lists it under (READER_OPEN
also RPOS, R116). -/
def Obligations.CommandsWriteOnlyTheirState : Prop :=
  ∀ (i : Instr) (s t : State), i ≠ .reset → exec i s = .next t → t.err = .noError →
    ∀ part, part ∉ writtenParts i → SamePart part s t

/-- R45: CPHASE moves only by ENC_HEADER 0→1, ENC_PALETTE 1→2, ENC_FINISH 2→3, DEC_HEADER 0→4 and DEC_PALETTE 4→5, and only RESET
returns it to 0. -/
def Obligations.PhaseMovesOnlyByItsCommands : Prop :=
  (∀ (i : Instr) (s t : State), i ≠ .reset → exec i s = .next t → t.err = .noError →
    t.cphase = s.cphase ∨
    ((∃ r c, i = .encHeader r c) ∧ s.cphase = .idle ∧ t.cphase = .encPal) ∨
    (i = .encPalette ∧ s.cphase = .encPal ∧ t.cphase = .encPix) ∨
    (i = .encFinish ∧ s.cphase = .encPix ∧ t.cphase = .encDone) ∨
    (i = .decHeader ∧ s.cphase = .idle ∧ t.cphase = .decPal) ∨
    (i = .decPalette ∧ s.cphase = .decPal ∧ t.cphase = .decPix)) ∧
  ∀ s t : State, exec .reset s = .next t → t.cphase = .idle

/-- No command is refused by the model, and the one fault is the read of a bit of SRC within the source's length, at or behind the
cursor, whose byte no SRC_WRITE has written since reset (R33, D31; log 9). -/
def Obligations.OnlyUnwrittenSourceStopsTheModel : Prop :=
  ∀ (i : Instr) (s : State), (∀ r, exec i s ≠ .refused r) ∧
    ∀ f, exec i s = .fault f →
      s.err = .noError ∧ (∃ k, f = .srcUnwritten (k / 8) ∧ s.rpos.toNat ≤ k ∧ k < 8 * s.srcLen.toNat ∧ srcBit? s k = none) ∧
      ((∃ width, i = .readBits width) ∨ i = .readHeader ∨ i = .decHeader ∨ i = .decPalette ∨ i = .decPixel)

/-! ## Errors -/

/-- R166: while ERR ≠ 0 every command other than NOP, RESET and REG_READ, and every word that is no command and whose OP is not
one of theirs, is answered (ERR, 0, 0, 0) with no other effect; and only RESET ends the error state. -/
def Obligations.StickyErrorRefusesAllButThree : Prop :=
  (∀ (i : Instr) (s : State), s.err ≠ .noError → i ≠ .nop → i ≠ .reset → (∀ n, i ≠ .regRead n) →
    ∃ t, exec i s = .next t ∧ Responded s t ⟨s.err, 0, 0, 0⟩ ∧ SameAll s t) ∧
  (∀ (w : Command) (s : State), s.err ≠ .noError → (∀ i, decode w ≠ .ok i) →
    opField w ≠ 0x00 → opField w ≠ 0x01 → opField w ≠ 0x02 →
    ∃ t, runCommand w s = .next t ∧ Responded s t ⟨s.err, 0, 0, 0⟩ ∧ SameAll s t) ∧
  ∀ (i : Instr) (s t : State), s.err ≠ .noError → i ≠ .reset → exec i s = .next t → t.err = s.err

/-- The error entry (R165): ERR is set by the first error, to the code its response gives; a command that responds 0 in a state
with ERR = 0 leaves ERR 0; and an error that NOP, RESET or REG_READ raises while ERR ≠ 0 changes nothing but the response. -/
def Obligations.FirstErrorSetsErr : Prop :=
  (∀ (i : Instr) (s t : State), s.err = .noError → exec i s = .next t →
    t.err = t.rstatus ∧ (t.rstatus ≠ .noError → t.res0 = 0 ∧ t.res1 = 0 ∧ t.res2 = 0)) ∧
  ∀ (w : Command) (s : State), s.err ≠ .noError → (∀ i, decode w ≠ .ok i) →
    opField w = 0x00 ∨ opField w = 0x01 ∨ opField w = 0x02 →
    ∃ t, runCommand w s = .next t ∧ Responded s t ⟨.usageError, 0, 0, 0⟩ ∧ SameAll s t

/-- R134: in a state the invariant admits NDIST is at most 2^18, so no command responds with CapacityError. -/
def Obligations.CapacityErrorIsNeverRaised : Prop :=
  ∀ s : State, Invariant s → s.err = .noError →
    s.ndist.toNat ≤ 2 ^ 18 ∧ ∀ (i : Instr) (t : State), exec i s = .next t → t.rstatus ≠ .capacityError

/-! ## Invariants -/

/-- Every instance is, right after reset, in a state the invariant admits. -/
def Obligations.ResetStateMeetsTheInvariant : Prop :=
  ∀ p : Params, 1 ≤ p.srcMax.toNat → Invariant (State.resetWith p) ∧ HasResetValues (State.resetWith p)

/-- Every step keeps the invariant: the seven invariants of R54 while ERR = 0, and what they rest on, that is the entries of SEEN
below NDIST and of PAL below PAL_LEN written (R38, R42) and RSORTED = 0 while decoding (R145); and always SRC_MAX at least 1 (R12)
and the memories in range and in canonical form, which is the model's choice of how to write them (log 17). -/
def Obligations.EveryStepKeepsTheInvariant : Prop :=
  ∀ s t : State, Invariant s → step s = .next t → Invariant t

/-- Every step keeps the canonical form of every memory, in every state whatever. -/
def Obligations.EveryStepKeepsMemoriesCanonical : Prop :=
  ∀ s t : State, CanonicalMemories s → step s = .next t → CanonicalMemories t

/-- R29: the bits of WBUF at and above WPOS are never observable: commands run from two states that differ only there end alike,
in states that differ only there. -/
def Obligations.StaleBufferBitsAreUnobservable : Prop :=
  ∀ (i : Instr) (s s' : State), s.wpos.toNat < 32768 → SameButStaleBits s s' →
    (∀ t, exec i s = .next t → ∃ t', exec i s' = .next t' ∧ SameButStaleBits t t') ∧
    (∀ f, exec i s = .fault f → exec i s' = .fault f)

/-- R135, R155: TIE_BREAK has no effect but on the order RANK_SORT gives and on the CONFIG register: every other command does the
same in two instances that differ only in it. -/
def Obligations.TieBreakOnlyAffectsRankSort : Prop :=
  ∀ (i : Instr) (s : State) (tb : TieBreak), i ≠ .rankSort → (∀ n, i ≠ .regRead n) →
    (∀ t, exec i s = .next t →
      exec i { s with params := ⟨s.params.srcMax, tb⟩ } = .next { t with params := ⟨s.params.srcMax, tb⟩ }) ∧
    (∀ f, exec i s = .fault f → exec i { s with params := ⟨s.params.srcMax, tb⟩ } = .fault f)

/-! ## Control commands -/

/-- R158 NOP: responds (0, 0, 0, 0) in every state, ERR ≠ 0 included, and changes nothing else. -/
def Obligations.NopOnlyResponds : Prop :=
  DecodesAt 0x00 (fun _ => .nop) ∧
  ∀ s : State, ∃ t, exec .nop s = .next t ∧ Responded s t ⟨.noError, 0, 0, 0⟩ ∧ SameAll s t

/-- R159 RESET: every element at its reset value of R57, in every state, ERR ≠ 0 included; nothing is emitted, and bytes already
in the sink stay there. -/
def Obligations.ResetCommandGivesResetValues : Prop :=
  DecodesAt 0x01 (fun _ => .reset) ∧
  ∀ s : State, ∃ t, exec .reset s = .next t ∧ HasResetValues t ∧ Responded s t ⟨.noError, 0, 0, 0⟩ ∧ t.sink = s.sink ∧
    t.sinkAnswers = s.sinkAnswers ∧ t.sinkOffers = s.sinkOffers ∧ SameHost s t

/-- R160 REG_READ while ERR = 0: the value of the register map for its 20 numbers, UsageError for any other. -/
def Obligations.RegReadReturnsTheRegister : Prop :=
  DecodesAt 0x02 (fun w => .regRead (fieldA w)) ∧
  ∀ s : State, s.err = .noError →
    (∀ r ∈ registerTable s, ∃ t, Completes (.regRead r.1) s t ⟨.noError, r.2, 0, 0⟩ ∧ SameAll s t) ∧
    (∀ n : Word, 0x13 < n.toNat → Raises (.regRead n) s .usageError)

/-- R53, R160, R165: while ERR ≠ 0 STATUS gives ERR in bits 2:0 and zero in its hardwired bits 31:9, and registers 0x11 to 0x13 give
their constants; every register number answers code 0, any other number answers UsageError, and neither changes the block's
state. The other values read are free (log 7). -/
def Obligations.RegReadInTheErrorState : Prop :=
  ∀ s : State, s.err ≠ .noError →
    (∀ n : Word, n.toNat ≤ 0x13 → ∃ t v, exec (.regRead n) s = .next t ∧ Responded s t ⟨.noError, v, 0, 0⟩ ∧
      t.err = s.err ∧ SameWriter s t ∧ SameReader s t ∧ SameCodec s t ∧ SameHost s t ∧
      t.cnt = s.cnt ∧ t.seen = s.seen ∧ t.ndist = s.ndist ∧ t.total = s.total ∧ t.rsorted = s.rsorted ∧
      t.pal = s.pal ∧ t.palLen = s.palLen ∧ t.rankof = s.rankof ∧
      (n = 0x00 → v.extractLsb' 0 3 = errBits s.err ∧ v.extractLsb' 9 23 = 0) ∧ (n = 0x11 → v = 0xFFBEADFF) ∧
      (n = 0x12 → v = if s.params.tieBreak = .keyAsc then 1 else 0) ∧ (n = 0x13 → v = s.params.srcMax)) ∧
    (∀ n : Word, 0x13 < n.toNat →
      ∃ t, exec (.regRead n) s = .next t ∧ Responded s t ⟨.usageError, 0, 0, 0⟩ ∧ SameAll s t)

/-! ## Writer -/

/-- R109 WRITE_BITS: appends the low W bits of A (R107); UsageError for W > 32 or a closed writer; IOError at the first byte of a
full-buffer emission that the sink refuses, with exactly the bytes before it in the sink. -/
def Obligations.WriteBitsAppendsTheLowBits : Prop :=
  (∀ w, opField w = 0x10 → rsvField w = 0 → (widthField w).toNat ≤ 32 →
    decode w = .ok (.writeBits (widthField w) (fieldA w))) ∧
  ∀ (width : BitVec 6) (value : Word) (s : State), s.err = .noError →
    (32 < width.toNat ∨ s.wclosed = true → Raises (.writeBits width value) s .usageError) ∧
    (width.toNat ≤ 32 → s.wclosed = false → s.wpos.toNat < 32768 →
      (SinkAccepts s (bytesOffered s width.toNat) →
        ∃ t, Completes (.writeBits width value) s t ⟨.noError, 0, 0, 0⟩ ∧
          AppendsBits s t (fieldBits value.toNat width.toNat) ∧
          SameReader s t ∧ SameCounts s t ∧ SameRanking s t ∧ SameCodec s t) ∧
      (∀ j, j < bytesOffered s width.toNat → FirstRefusalAt s j →
        ∃ bytes, RaisesAfter (.writeBits width value) s .ioError bytes ∧
          bytesBits bytes = (pendingBits s ++ fieldBits value.toNat width.toNat).take (8 * j)))

/-- R110 WRITE_HEADER: appends the magic and the three fields, each 32 bits, checking none of them. -/
def Obligations.WriteHeaderAppendsFourFields : Prop :=
  DecodesAt 0x11 (fun w => .writeHeader (fieldA w) (fieldB w) (fieldC w)) ∧
  ∀ (rows cols numColors : Word) (s : State), s.err = .noError →
    (s.wclosed = true → Raises (.writeHeader rows cols numColors) s .usageError) ∧
    (s.wclosed = false → s.wpos.toNat < 32768 →
      (SinkAccepts s (bytesOffered s 128) →
        ∃ t, Completes (.writeHeader rows cols numColors) s t ⟨.noError, 0, 0, 0⟩ ∧
          AppendsBits s t (headerBits rows cols numColors) ∧
          SameReader s t ∧ SameCounts s t ∧ SameRanking s t ∧ SameCodec s t) ∧
      (∀ j, j < bytesOffered s 128 → FirstRefusalAt s j →
        ∃ bytes, RaisesAfter (.writeHeader rows cols numColors) s .ioError bytes ∧
          bytesBits bytes = (pendingBits s ++ headerBits rows cols numColors).take (8 * j)))

/-- R111 FLUSH: emits the pending bits padded with zeros to a byte boundary (R108), and WPOS is 0. -/
def Obligations.FlushEmitsThePendingBits : Prop :=
  DecodesAt 0x12 (fun _ => .flush) ∧
  ∀ s : State, s.err = .noError →
    (s.wclosed = true → Raises .flush s .usageError) ∧
    (s.wclosed = false → SinkAccepts s ((s.wpos.toNat + 7) / 8) →
      ∃ t, Completes .flush s t ⟨.noError, 0, 0, 0⟩ ∧ FlushesBits s t ∧ t.wclosed = false ∧
        SameReader s t ∧ SameCounts s t ∧ SameRanking s t ∧ SameCodec s t) ∧
    (s.wclosed = false → ∀ j, j < (s.wpos.toNat + 7) / 8 → FirstRefusalAt s j →
      ∃ bytes, RaisesAfter .flush s .ioError bytes ∧ bytes.length = j ∧
        bytesBits bytes = (pendingBits s).take (8 * j))

/-- R112 CLOSE: the flush, then WCLOSED = 1; a second CLOSE is refused. -/
def Obligations.CloseFlushesAndClosesOnce : Prop :=
  DecodesAt 0x13 (fun _ => .close) ∧
  ∀ s : State, s.err = .noError →
    (s.wclosed = true → Raises .close s .usageError) ∧
    (s.wclosed = false → SinkAccepts s ((s.wpos.toNat + 7) / 8) →
      ∃ t, Completes .close s t ⟨.noError, 0, 0, 0⟩ ∧ FlushesBits s t ∧ t.wclosed = true ∧
        SameReader s t ∧ SameCounts s t ∧ SameRanking s t ∧ SameCodec s t) ∧
    (s.wclosed = false → ∀ j, j < (s.wpos.toNat + 7) / 8 → FirstRefusalAt s j →
      ∃ bytes, RaisesAfter .close s .ioError bytes ∧ bytes.length = j ∧
        bytesBits bytes = (pendingBits s).take (8 * j))

/-- After CLOSE or ENC_FINISH every writer command and every encoder command that writes raises UsageError (R31, R112, D14). -/
def Obligations.ClosedWriterRefusesWriting : Prop :=
  ∀ s : State, s.err = .noError → s.wclosed = true →
    (∀ width value, Raises (.writeBits width value) s .usageError) ∧
    (∀ rows cols n, Raises (.writeHeader rows cols n) s .usageError) ∧
    Raises .flush s .usageError ∧ Raises .close s .usageError ∧ (∀ rows cols, Raises (.encHeader rows cols) s .usageError) ∧
    Raises .encPalette s .usageError ∧ (∀ p, Raises (.encPixel p) s .usageError) ∧ Raises .encFinish s .usageError

/-- R64: a header written at stream position 0 and flushed is the magic's bytes FF AD BE FF and then the three fields as
little-endian words. -/
def Obligations.HeaderBytesAreLittleEndian : Prop :=
  ∀ (rows cols numColors : Word) (s : State), s.err = .noError → s.wclosed = false → s.wpos = 0 → SinkAccepts s 16 →
    ∃ t, execAll [.writeHeader rows cols numColors, .flush] s = .next t ∧ t.err = .noError ∧
      t.sink = s.sink ++ [0xFF, 0xAD, 0xBE, 0xFF] ++
        [rows, cols, numColors].flatMap (fun v =>
          [v.extractLsb' 0 8, v.extractLsb' 8 8, v.extractLsb' 16 8, v.extractLsb' 24 8])

/-! ## Reader -/

/-- R115 SRC_WRITE: writes one byte of SRC; UsageError for an open reader or an offset outside SRC. -/
def Obligations.SrcWriteStoresOneByte : Prop :=
  DecodesAt 0x18 (fun w => .srcWrite (fieldA w) (byteOperand (fieldB w))) ∧
  ∀ (offset : Word) (byte : Byte) (s : State), s.err = .noError →
    (s.ropen = true ∨ s.params.srcMax.toNat ≤ offset.toNat → Raises (.srcWrite offset byte) s .usageError) ∧
    (s.ropen = false → offset.toNat < s.params.srcMax.toNat →
      ∃ t, Completes (.srcWrite offset byte) s t ⟨.noError, 0, 0, 0⟩ ∧
        srcByte? t offset.toNat = some byte ∧ (∀ j, j ≠ offset.toNat → srcByte? t j = srcByte? s j) ∧
        t.srcLen = s.srcLen ∧ t.ropen = s.ropen ∧ t.rpos = s.rpos ∧
        SameWriter s t ∧ SameCounts s t ∧ SameRanking s t ∧ SameCodec s t)

/-- R116 READER_OPEN: opens the reader on the first A bytes of SRC at stream bit 0; UsageError if it is open or A > SRC_MAX. -/
def Obligations.ReaderOpenFixesTheLength : Prop :=
  DecodesAt 0x19 (fun w => .readerOpen (fieldA w)) ∧
  ∀ (length : Word) (s : State), s.err = .noError →
    (s.ropen = true ∨ s.params.srcMax.toNat < length.toNat → Raises (.readerOpen length) s .usageError) ∧
    (s.ropen = false → length.toNat ≤ s.params.srcMax.toNat →
      ∃ t, Completes (.readerOpen length) s t ⟨.noError, 0, 0, 0⟩ ∧
        t.srcLen = length ∧ t.rpos = 0 ∧ t.ropen = true ∧ (∀ j, srcByte? t j = srcByte? s j) ∧
        SameWriter s t ∧ SameCounts s t ∧ SameRanking s t ∧ SameCodec s t)

/-- R118 READ_BITS: the W bits at the cursor, the first the value's bit 0; UsageError for W > 32 or a closed reader; FormatError,
nothing consumed, if fewer than W bits remain; the model's stop at an unwritten byte (R33, R57; log 9). -/
def Obligations.ReadBitsReturnsTheFieldAtTheCursor : Prop :=
  (∀ w, opField w = 0x1A → rsvField w = 0 → (widthField w).toNat ≤ 32 → decode w = .ok (.readBits (widthField w))) ∧
  ∀ (width : BitVec 6) (s : State), s.err = .noError →
    (32 < width.toNat ∨ s.ropen = false → Raises (.readBits width) s .usageError) ∧
    (width.toNat ≤ 32 → s.ropen = true →
      (8 * s.srcLen.toNat < s.rpos.toNat + width.toNat → Raises (.readBits width) s .formatError) ∧
      (Readable s width.toNat → ∀ v, FieldAt s s.rpos.toNat width.toNat v →
        ∃ t, Completes (.readBits width) s t ⟨.noError, v, 0, 0⟩ ∧
          t.rpos.toNat = s.rpos.toNat + width.toNat ∧ t.srcLen = s.srcLen ∧ t.ropen = true ∧
          (∀ j, srcByte? t j = srcByte? s j) ∧ SameWriter s t ∧ SameCounts s t ∧ SameRanking s t ∧ SameCodec s t) ∧
      (s.rpos.toNat + width.toNat ≤ 8 * s.srcLen.toNat → ¬SrcWritten s s.rpos.toNat (s.rpos.toNat + width.toNat) →
        ∃ offset, exec (.readBits width) s = .fault (.srcUnwritten offset) ∧ srcByte? s offset = none))

/-- R119 READ_HEADER: the three fields behind the magic; FormatError at a wrong magic before any later field is read, and where
fewer than 128 bits remain; UsageError for a closed reader. -/
def Obligations.ReadHeaderReturnsTheThreeFields : Prop :=
  DecodesAt 0x1B (fun _ => .readHeader) ∧
  ∀ s : State, s.err = .noError →
    (s.ropen = false → Raises .readHeader s .usageError) ∧
    (s.ropen = true →
      (∀ m, Readable s 32 → FieldAt s s.rpos.toNat 32 m → m ≠ 0xFFBEADFF → Raises .readHeader s .formatError) ∧
      (8 * s.srcLen.toNat < s.rpos.toNat + 128 → SrcWritten s s.rpos.toNat (8 * s.srcLen.toNat) →
        Raises .readHeader s .formatError) ∧
      (∀ r c n, Readable s 128 → FieldAt s s.rpos.toNat 32 0xFFBEADFF → FieldAt s (s.rpos.toNat + 32) 32 r →
        FieldAt s (s.rpos.toNat + 64) 32 c → FieldAt s (s.rpos.toNat + 96) 32 n →
        ∃ t, Completes .readHeader s t ⟨.noError, r, c, n⟩ ∧ t.rpos.toNat = s.rpos.toNat + 128 ∧
          t.srcLen = s.srcLen ∧ t.ropen = true ∧ (∀ j, srcByte? t j = srcByte? s j) ∧
          SameWriter s t ∧ SameCounts s t ∧ SameRanking s t ∧ SameCodec s t))

/-- R120: for every width 0 ≤ w ≤ 32 and every v < 2^w, WRITE_BITS v, w and FLUSH on an empty open writer emit ceil(w/8) bytes, and
loading them with SRC_WRITE, READER_OPEN ceil(w/8) and READ_BITS w returns v. -/
def Obligations.WrittenBitsReadBack : Prop :=
  ∀ (w : BitVec 6) (v : Word) (s u : State), w.toNat ≤ 32 → v.toNat < 2 ^ w.toNat →
    s.err = .noError → s.wclosed = false → s.wpos = 0 → SinkAccepts s ((w.toNat + 7) / 8) →
    u.err = .noError → u.ropen = false → (w.toNat + 7) / 8 ≤ u.params.srcMax.toNat →
    ∃ t bytes, execAll [.writeBits w v, .flush] s = .next t ∧ t.sink = s.sink ++ bytes ∧
      bytes.length = (w.toNat + 7) / 8 ∧
      ∃ x, execAll (srcWrites 0 bytes ++ [.readerOpen (BitVec.ofNat 32 bytes.length), .readBits w]) u = .next x ∧
        x.rstatus = .noError ∧ x.res0 = v

/-- R121: the 16 bytes WRITE_HEADER r, c, n writes at stream position 0, read back by READ_HEADER, respond (0, r, c, n); a source
whose first four bytes are anything other than FF AD BE FF makes READ_HEADER raise FormatError, the bytes behind them unread:
they need not be written (a read of one would be the model's stop, R33). -/
def Obligations.WrittenHeaderReadsBack : Prop :=
  (∀ (r c n : Word) (s u : State), s.err = .noError → s.wclosed = false → s.wpos = 0 → SinkAccepts s 16 →
    u.err = .noError → u.ropen = false → 16 ≤ u.params.srcMax.toNat →
    ∃ t bytes, execAll [.writeHeader r c n, .flush] s = .next t ∧ t.sink = s.sink ++ bytes ∧ bytes.length = 16 ∧
      ∃ x, execAll (srcWrites 0 bytes ++ [.readerOpen 16, .readHeader]) u = .next x ∧
        x.rstatus = .noError ∧ x.res0 = r ∧ x.res1 = c ∧ x.res2 = n) ∧
  ∀ (first : List Byte) (length : Word) (u : State), u.err = .noError → u.ropen = false → first.length = 4 →
    4 ≤ length.toNat → length.toNat ≤ u.params.srcMax.toNat → first ≠ [0xFF, 0xAD, 0xBE, 0xFF] →
    ∃ x, execAll (srcWrites 0 first ++ [.readerOpen length, .readHeader]) u = .next x ∧
      x.rstatus = .formatError ∧ x.err = .formatError

/-! ## Quantizer -/

/-- R123 QUANTIZE: (r/4) << 12 | (g/4) << 6 | (b/4), and nothing else. -/
def Obligations.QuantizeReturnsTheKey : Prop :=
  DecodesAt 0x20 (fun w => .quantize (unpackPixel (fieldA w))) ∧
  ∀ (p : Pixel) (s : State), s.err = .noError →
    ∃ t, Completes (.quantize p) s t
        ⟨.noError, BitVec.ofNat 32 (p.r.toNat / 4 * 2 ^ 12 + p.g.toNat / 4 * 2 ^ 6 + p.b.toNat / 4), 0, 0⟩ ∧ SameAll s t

/-- R124 DEQUANTIZE: level 2 + 4c in each channel, bits 31:24 zero, and nothing else. -/
def Obligations.DequantizeReturnsTheLevels : Prop :=
  DecodesAt 0x21 (fun w => .dequantize (keyOperand (fieldA w))) ∧
  ∀ (k : Key) (s : State), s.err = .noError →
    ∃ t, Completes (.dequantize k) s t
        ⟨.noError, BitVec.ofNat 32 (2 + 4 * (k.toNat / 4096) + (2 + 4 * (k.toNat / 64 % 64)) * 2 ^ 8 +
          (2 + 4 * (k.toNat % 64)) * 2 ^ 16), 0, 0⟩ ∧ SameAll s t

/-- R127: Quant(Dequant(k)) = k for every key, through the two commands. -/
def Obligations.QuantizeUndoesDequantize : Prop :=
  ∀ (k : Key) (s : State), s.err = .noError →
    ∃ t u, exec (.dequantize k) s = .next t ∧ exec (.quantize (unpackPixel t.res0)) t = .next u ∧ u.res0 = k.setWidth 32

/-- R125: QUANTIZE then DEQUANTIZE gives 4·(v/4) + 2 in each channel: at most 2 off, exact just for v ≡ 2 (mod 4). -/
def Obligations.LossyRoundTripIsWithinTwo : Prop :=
  ∀ (p : Pixel) (s : State), s.err = .noError →
    ∃ t u, exec (.quantize p) s = .next t ∧ exec (.dequantize (keyOperand t.res0)) t = .next u ∧
      (unpackPixel u.res0).r.toNat = 4 * (p.r.toNat / 4) + 2 ∧
      (unpackPixel u.res0).g.toNat = 4 * (p.g.toNat / 4) + 2 ∧
      (unpackPixel u.res0).b.toNat = 4 * (p.b.toNat / 4) + 2 ∧
      ∀ v out : Byte, (v, out) ∈ [(p.r, (unpackPixel u.res0).r), (p.g, (unpackPixel u.res0).g), (p.b, (unpackPixel u.res0).b)] →
        out.toNat ≤ v.toNat + 2 ∧ v.toNat ≤ out.toNat + 2 ∧ (out = v ↔ v.toNat % 4 = 2)

/-! ## Ranker -/

/-- R128 RANK_CLEAR: every count, NDIST, TOTAL, RSORTED and PAL_LEN zero; UsageError outside IDLE. -/
def Obligations.RankClearEmptiesTheCounter : Prop :=
  DecodesAt 0x30 (fun _ => .rankClear) ∧
  ∀ s : State, s.err = .noError →
    (s.cphase ≠ .idle → Raises .rankClear s .usageError) ∧
    (s.cphase = .idle →
      ∃ t, Completes .rankClear s t ⟨.noError, 0, 0, 0⟩ ∧
        (∀ k, cntEntry t k = 0) ∧ t.ndist = 0 ∧ t.total = 0 ∧ t.rsorted = false ∧ t.palLen = 0 ∧
        (∀ i, seenEntry t i = seenEntry s i) ∧ (∀ i, palEntry t i = palEntry s i) ∧ (∀ k, rankEntry t k = rankEntry s k) ∧
        SameWriter s t ∧ SameReader s t ∧ SameCodec s t)

/-- R129 RANK_COUNT: one more occurrence of the pixel's key, which enters SEEN at its first; UsageError outside IDLE or at TOTAL's
maximum. -/
def Obligations.RankCountCountsThePixelsKey : Prop :=
  DecodesAt 0x31 (fun w => .rankCount (unpackPixel (fieldA w))) ∧
  ∀ (p : Pixel) (s : State), s.err = .noError →
    (s.cphase ≠ .idle ∨ s.total.toNat = 2 ^ 64 - 1 → Raises (.rankCount p) s .usageError) ∧
    (s.cphase = .idle → s.total.toNat ≠ 2 ^ 64 - 1 → ∀ k, IsKeyOf k p →
      ∃ t, Completes (.rankCount p) s t ⟨.noError, k.setWidth 32, 0, 0⟩ ∧
        cntEntry t k = cntEntry s k + 1 ∧ (∀ k', k' ≠ k → cntEntry t k' = cntEntry s k') ∧ t.total = s.total + 1 ∧
        (cntEntry s k = 0 → t.ndist = s.ndist + 1 ∧ seenEntry t s.ndist.toNat = k ∧
          ∀ i, i ≠ s.ndist.toNat → seenEntry t i = seenEntry s i) ∧
        (cntEntry s k ≠ 0 → t.ndist = s.ndist ∧ ∀ i, seenEntry t i = seenEntry s i) ∧
        t.rsorted = false ∧ (∀ i, palEntry t i = palEntry s i) ∧ (∀ k', rankEntry t k' = rankEntry s k') ∧
        t.palLen = s.palLen ∧ SameWriter s t ∧ SameReader s t ∧ SameCodec s t)

/-- R130 RANK_SORT: PAL[0 .. NDIST−1] is SEEN[0 .. NDIST−1] sorted by "before" and RANKOF its inverse, where SEEN lists no key
twice (R54 item 3); other entries are left; UsageError outside IDLE. -/
def Obligations.RankSortOrdersTheKeys : Prop :=
  DecodesAt 0x32 (fun _ => .rankSort) ∧
  ∀ s : State, s.err = .noError →
    (s.cphase ≠ .idle → Raises .rankSort s .usageError) ∧
    (s.cphase = .idle → (seenKeys s).Nodup →
      ∃ t, Completes .rankSort s t ⟨.noError, s.ndist.setWidth 32, 0, 0⟩ ∧ t.palLen = s.ndist ∧ t.rsorted = true ∧
        (paletteKeys t).Perm (seenKeys s) ∧ (paletteKeys t).Pairwise (ComesBefore s) ∧
        (∀ i, i < s.ndist.toNat → (rankEntry t (palEntry t i)).toNat = i) ∧
        (∀ i, s.ndist.toNat ≤ i → palEntry t i = palEntry s i) ∧
        (∀ k, k ∉ seenKeys s → rankEntry t k = rankEntry s k) ∧
        SameCounts s t ∧ SameWriter s t ∧ SameReader s t ∧ SameCodec s t)

/-- R133: after RANK_SORT the ranking is a bijection from the counted keys onto 0 .. NDIST − 1, descending by count, with a key of
maximal count at rank 0. -/
def Obligations.RankingIsADescendingBijection : Prop :=
  ∀ s t : State, Invariant s → s.err = .noError → s.cphase = .idle → exec .rankSort s = .next t →
    (∀ k, cntEntry t k ≠ 0 → (rankEntry t k).toNat < t.ndist.toNat ∧ palEntry t (rankEntry t k).toNat = k) ∧
    (∀ i, i < t.ndist.toNat → cntEntry t (palEntry t i) ≠ 0 ∧ (rankEntry t (palEntry t i)).toNat = i) ∧
    (∀ i j, i ≤ j → j < t.ndist.toNat → (cntEntry t (palEntry t j)).toNat ≤ (cntEntry t (palEntry t i)).toNat) ∧
    (∀ k, cntEntry t k ≠ 0 → (cntEntry t k).toNat ≤ (cntEntry t (palEntry t 0)).toNat)

/-- RANK_SORT repeated with unchanged counts produces the same palette and ranks (R130). -/
def Obligations.RankSortIsIdempotent : Prop :=
  ∀ s t : State, s.err = .noError → s.cphase = .idle → exec .rankSort s = .next t →
    ∃ u, exec .rankSort t = .next u ∧ SameRanking t u ∧ SameCounts t u ∧ u.rsorted = true

/-- R131 RANK_LOOKUP: the rank of a counted key while a ranking is current, else UsageError. -/
def Obligations.RankLookupReturnsTheRank : Prop :=
  DecodesAt 0x33 (fun w => .rankLookup (keyOperand (fieldA w))) ∧
  ∀ (k : Key) (s : State), s.err = .noError →
    (s.rsorted = false ∨ cntEntry s k = 0 → Raises (.rankLookup k) s .usageError) ∧
    (s.rsorted = true → cntEntry s k ≠ 0 →
      ∃ t, Completes (.rankLookup k) s t ⟨.noError, (rankEntry s k).setWidth 32, 0, 0⟩ ∧ SameAll s t)

/-- R132 PAL_READ: the palette key at a rank below PAL_LEN, else UsageError. -/
def Obligations.PalReadReturnsTheKey : Prop :=
  DecodesAt 0x34 (fun w => .palRead (fieldA w)) ∧
  ∀ (rank : Word) (s : State), s.err = .noError →
    (s.palLen.toNat ≤ rank.toNat → Raises (.palRead rank) s .usageError) ∧
    (rank.toNat < s.palLen.toNat →
      ∃ t, Completes (.palRead rank) s t ⟨.noError, (palEntry s rank.toNat).setWidth 32, 0, 0⟩ ∧ SameAll s t)

/-! ## Codec -/

/-- R139, R140 RANK_WIDTH: 0 for n ≤ 1, else the least width w with n ≤ 2^w. -/
def Obligations.RankWidthIsTheLeastWidth : Prop :=
  DecodesAt 0x44 (fun w => .rankWidth (fieldA w)) ∧
  ∀ (n : Word) (s : State), s.err = .noError →
    ∃ t w, Completes (.rankWidth n) s t ⟨.noError, BitVec.ofNat 32 w, 0, 0⟩ ∧ SameAll s t ∧ w ≤ 32 ∧
      w = rankCodeWidth n.toNat ∧ (n.toNat ≤ 1 → w = 0) ∧ (2 ≤ n.toNat → n.toNat ≤ 2 ^ w ∧ 2 ^ (w - 1) < n.toNat)

/-- R141 ENC_HEADER: the checks in their order, CapacityError behind them; then the header with NDIST, the grid registers, RCW and
PIXREM, and phase ENC_PAL. -/
def Obligations.EncHeaderOpensTheStream : Prop :=
  DecodesAt 0x40 (fun w => .encHeader (fieldA w) (fieldB w)) ∧
  ∀ (rows cols : Word) (s : State), s.err = .noError →
    (s.cphase ≠ .idle ∨ s.rsorted = false ∨ s.wclosed = true ∨ s.wpos ≠ 0 ∨ s.sinkcnt ≠ 0 ∨
        rows.toNat * cols.toNat ≠ s.total.toNat → Raises (.encHeader rows cols) s .usageError) ∧
    (s.cphase = .idle → s.rsorted = true → s.wclosed = false → s.wpos = 0 → s.sinkcnt = 0 →
        rows.toNat * cols.toNat = s.total.toNat →
      (2 ^ 18 < s.ndist.toNat → Raises (.encHeader rows cols) s .capacityError) ∧
      (s.ndist.toNat ≤ 2 ^ 18 →
        ∃ t, Completes (.encHeader rows cols) s t
            ⟨.noError, s.ndist.setWidth 32, BitVec.ofNat 32 (rankCodeWidth s.ndist.toNat), 0⟩ ∧
          AppendsBits s t (headerBits rows cols (s.ndist.setWidth 32)) ∧
          t.rows = rows ∧ t.cols = cols ∧ t.ncolors = s.ndist.setWidth 32 ∧ t.rcw.toNat = rankCodeWidth s.ndist.toNat ∧
          t.pixrem.toNat = rows.toNat * cols.toNat ∧ t.cphase = .encPal ∧
          SameReader s t ∧ SameCounts s t ∧ SameRanking s t))

/-- R142 ENC_PALETTE: the NCOLORS palette entries in rank order, 18 bits each, and phase ENC_PIX. -/
def Obligations.EncPaletteWritesTheKeys : Prop :=
  DecodesAt 0x41 (fun _ => .encPalette) ∧
  ∀ s : State, s.err = .noError →
    (s.cphase ≠ .encPal ∨ s.wclosed = true → Raises .encPalette s .usageError) ∧
    (s.cphase = .encPal → s.wclosed = false → s.wpos.toNat < 32768 →
      (SinkAccepts s (bytesOffered s (18 * s.ncolors.toNat)) →
        ∃ t, Completes .encPalette s t ⟨.noError, 0, 0, 0⟩ ∧
          AppendsBits s t ((List.range s.ncolors.toNat).flatMap (fun i => fieldBits (palEntry s i).toNat 18)) ∧
          t.cphase = .encPix ∧ t.rows = s.rows ∧ t.cols = s.cols ∧ t.ncolors = s.ncolors ∧ t.rcw = s.rcw ∧
          t.pixrem = s.pixrem ∧ SameReader s t ∧ SameCounts s t ∧ SameRanking s t) ∧
      (∀ j, j < bytesOffered s (18 * s.ncolors.toNat) → FirstRefusalAt s j →
        ∃ bytes, RaisesAfter .encPalette s .ioError bytes ∧ bytes.length = j))

/-- R143 ENC_PIXEL: the rank of the pixel's key in RCW bits, and one pixel fewer to go. -/
def Obligations.EncPixelWritesTheRankCode : Prop :=
  DecodesAt 0x42 (fun w => .encPixel (unpackPixel (fieldA w))) ∧
  ∀ (p : Pixel) (s : State) (k : Key), s.err = .noError → IsKeyOf k p →
    (s.cphase ≠ .encPix ∨ s.wclosed = true ∨ s.pixrem = 0 ∨ cntEntry s k = 0 → Raises (.encPixel p) s .usageError) ∧
    (s.cphase = .encPix → s.wclosed = false → s.pixrem ≠ 0 → cntEntry s k ≠ 0 → s.wpos.toNat < 32768 →
      (SinkAccepts s (bytesOffered s s.rcw.toNat) →
        ∃ t, Completes (.encPixel p) s t ⟨.noError, (rankEntry s k).setWidth 32, k.setWidth 32, 0⟩ ∧
          AppendsBits s t (fieldBits (rankEntry s k).toNat s.rcw.toNat) ∧ t.pixrem.toNat + 1 = s.pixrem.toNat ∧
          t.cphase = .encPix ∧ t.rows = s.rows ∧ t.cols = s.cols ∧ t.ncolors = s.ncolors ∧ t.rcw = s.rcw ∧
          SameReader s t ∧ SameCounts s t ∧ SameRanking s t) ∧
      (∀ j, j < bytesOffered s s.rcw.toNat → FirstRefusalAt s j →
        ∃ bytes, RaisesAfter (.encPixel p) s .ioError bytes ∧ bytes.length = j))

/-- R144 ENC_FINISH: the flush, WCLOSED = 1, phase ENC_DONE, and SINKCNT after the flush as the response. -/
def Obligations.EncFinishClosesTheStream : Prop :=
  DecodesAt 0x43 (fun _ => .encFinish) ∧
  ∀ s : State, s.err = .noError →
    (s.cphase ≠ .encPix ∨ s.wclosed = true ∨ s.pixrem ≠ 0 → Raises .encFinish s .usageError) ∧
    (s.cphase = .encPix → s.wclosed = false → s.pixrem = 0 →
      (SinkAccepts s ((s.wpos.toNat + 7) / 8) →
        ∃ t, Completes .encFinish s t
            ⟨.noError, BitVec.ofNat 32 t.sinkcnt.toNat, BitVec.ofNat 32 (t.sinkcnt.toNat / 2 ^ 32), 0⟩ ∧
          FlushesBits s t ∧ t.wclosed = true ∧ t.cphase = .encDone ∧ t.rows = s.rows ∧ t.cols = s.cols ∧
          t.ncolors = s.ncolors ∧ t.rcw = s.rcw ∧ t.pixrem = s.pixrem ∧
          SameReader s t ∧ SameCounts s t ∧ SameRanking s t) ∧
      (∀ j, j < (s.wpos.toNat + 7) / 8 → FirstRefusalAt s j →
        ∃ bytes, RaisesAfter .encFinish s .ioError bytes ∧ bytes.length = j))

/-- R145 DEC_HEADER: the sequencing checks, the magic before any other field, truncation and numColors > 2^18 as FormatErrors; then
the three fields, RCW and PIXREM, RSORTED = 0 and phase DEC_PAL. -/
def Obligations.DecHeaderLoadsTheHeader : Prop :=
  DecodesAt 0x48 (fun _ => .decHeader) ∧
  ∀ s : State, s.err = .noError →
    (s.cphase ≠ .idle ∨ s.ropen = false ∨ s.rpos ≠ 0 → Raises .decHeader s .usageError) ∧
    (s.cphase = .idle → s.ropen = true → s.rpos = 0 →
      (∀ m, Readable s 32 → FieldAt s 0 32 m → m ≠ 0xFFBEADFF → Raises .decHeader s .formatError) ∧
      (8 * s.srcLen.toNat < 128 → SrcWritten s 0 (8 * s.srcLen.toNat) → Raises .decHeader s .formatError) ∧
      (∀ r c n, Readable s 128 → FieldAt s 0 32 0xFFBEADFF → FieldAt s 32 32 r → FieldAt s 64 32 c → FieldAt s 96 32 n →
        (2 ^ 18 < n.toNat → Raises .decHeader s .formatError) ∧
        (n.toNat ≤ 2 ^ 18 →
          ∃ t, Completes .decHeader s t ⟨.noError, r, c, n⟩ ∧
            t.rows = r ∧ t.cols = c ∧ t.ncolors = n ∧ t.rcw.toNat = rankCodeWidth n.toNat ∧
            t.pixrem.toNat = r.toNat * c.toNat ∧ t.cphase = .decPal ∧ t.rpos.toNat = 128 ∧
            t.srcLen = s.srcLen ∧ t.ropen = true ∧ (∀ j, srcByte? t j = srcByte? s j) ∧
            t.rsorted = false ∧ (∀ i, palEntry t i = palEntry s i) ∧ (∀ k, rankEntry t k = rankEntry s k) ∧
            t.palLen = s.palLen ∧ SameWriter s t ∧ SameCounts s t)))

/-- R146 DEC_PALETTE: PAL[i] is the i-th 18-bit entry of the stream, PAL_LEN = NCOLORS, phase DEC_PIX; FormatError if the source
ends inside the palette. -/
def Obligations.DecPaletteLoadsTheEntries : Prop :=
  DecodesAt 0x49 (fun _ => .decPalette) ∧
  ∀ s : State, s.err = .noError →
    (s.cphase ≠ .decPal → Raises .decPalette s .usageError) ∧
    (s.cphase = .decPal → s.ncolors.toNat ≤ 2 ^ 18 →
      (s.ncolors ≠ 0 → 8 * s.srcLen.toNat < s.rpos.toNat + 18 * s.ncolors.toNat →
        SrcWritten s s.rpos.toNat (8 * s.srcLen.toNat) → Raises .decPalette s .formatError) ∧
      (Readable s (18 * s.ncolors.toNat) →
        ∃ t, Completes .decPalette s t ⟨.noError, s.ncolors, 0, 0⟩ ∧
          (∀ i, i < s.ncolors.toNat → FieldAt s (s.rpos.toNat + 18 * i) 18 ((palEntry t i).setWidth 32)) ∧
          (∀ i, s.ncolors.toNat ≤ i → palEntry t i = palEntry s i) ∧
          t.palLen.toNat = s.ncolors.toNat ∧ t.cphase = .decPix ∧ t.rpos.toNat = s.rpos.toNat + 18 * s.ncolors.toNat ∧
          t.srcLen = s.srcLen ∧ t.ropen = s.ropen ∧ (∀ j, srcByte? t j = srcByte? s j) ∧
          t.rows = s.rows ∧ t.cols = s.cols ∧ t.ncolors = s.ncolors ∧ t.rcw = s.rcw ∧ t.pixrem = s.pixrem ∧
          t.rsorted = s.rsorted ∧ (∀ k, rankEntry t k = rankEntry s k) ∧ SameWriter s t ∧ SameCounts s t))

/-- R147 DEC_PIXEL: the rank code at the cursor, its palette key dequantized; FormatError for a truncated code or a rank that is
not below NCOLORS; UsageError outside DEC_PIX or with no pixel left. -/
def Obligations.DecPixelLooksUpTheRankCode : Prop :=
  DecodesAt 0x4A (fun _ => .decPixel) ∧
  ∀ s : State, s.err = .noError →
    (s.cphase ≠ .decPix ∨ s.pixrem = 0 → Raises .decPixel s .usageError) ∧
    (s.cphase = .decPix → s.pixrem ≠ 0 → s.rcw.toNat ≤ 32 →
      (8 * s.srcLen.toNat < s.rpos.toNat + s.rcw.toNat → Raises .decPixel s .formatError) ∧
      (∀ rank, Readable s s.rcw.toNat → FieldAt s s.rpos.toNat s.rcw.toNat rank →
        (s.ncolors.toNat ≤ rank.toNat → Raises .decPixel s .formatError) ∧
        (rank.toNat < s.ncolors.toNat → ∀ k, k = (palEntry s rank.toNat).toNat →
          ∃ t, Completes .decPixel s t
              ⟨.noError, BitVec.ofNat 32 (2 + 4 * (k / 4096) + (2 + 4 * (k / 64 % 64)) * 2 ^ 8 + (2 + 4 * (k % 64)) * 2 ^ 16),
                rank, BitVec.ofNat 32 k⟩ ∧
            t.pixrem.toNat + 1 = s.pixrem.toNat ∧ t.rpos.toNat = s.rpos.toNat + s.rcw.toNat ∧
            t.srcLen = s.srcLen ∧ t.ropen = s.ropen ∧ (∀ j, srcByte? t j = srcByte? s j) ∧
            t.cphase = .decPix ∧ t.rows = s.rows ∧ t.cols = s.cols ∧ t.ncolors = s.ncolors ∧ t.rcw = s.rcw ∧
            SameWriter s t ∧ SameCounts s t ∧ SameRanking s t)))

/-- R150: the stream ENCODE_IMAGE produces for R × C pixels with N distinct keys is the header (magic, R, C, N), the N palette
entries of 18 bits, R·C rank codes of rcw(N) bits in raster order and zero bits to the next byte boundary; palette and codes
are those of the ranking of the pixels' keys (R133). The sink's bound: 16 header bytes, at most 18 palette bits and 18 code
bits a pixel, and the padding. -/
def Obligations.EncodedImageHasTheFileLayout : Prop :=
  ∀ (rows cols : Word) (pixels : List Pixel) (s : State),
    1 ≤ s.params.srcMax.toNat → pixels.length = rows.toNat * cols.toNat → SinkAccepts s (5 * pixels.length + 17) →
    ∃ t bytes n, execAll (encodeImage rows cols pixels) s = .next t ∧ t.err = .noError ∧ t.sink = s.sink ++ bytes ∧
      n = (pixels.map quant).dedup.length ∧
      bytes.length = (128 + 18 * n + rankCodeWidth n * (rows.toNat * cols.toNat) + 7) / 8 ∧
      bytesBits bytes =
        headerBits rows cols (BitVec.ofNat 32 n) ++ (List.range n).flatMap (fun i => fieldBits (palEntry t i).toNat 18) ++
          pixels.flatMap (fun p => fieldBits (rankEntry t (quant p)).toNat (rankCodeWidth n)) ++
          List.replicate (8 * bytes.length - (128 + 18 * n + rankCodeWidth n * (rows.toNat * cols.toNat))) false ∧
      (∀ p ∈ pixels, (rankEntry t (quant p)).toNat < n ∧ palEntry t (rankEntry t (quant p)).toNat = quant p) ∧
      ∀ i j, i ≤ j → j < n →
        (pixels.map quant).count (palEntry t j) ≤ (pixels.map quant).count (palEntry t i)

/-- R152: decoding the stream that ENCODE_IMAGE produces for a grid gives the grid's size and, for every pixel, Dequant(Quant(p)),
at most 2 off in each channel; on any two instances, whatever their TIE_BREAK (R155), where the sink accepts the stream's
bytes (at most 5 a pixel and 17) and they fit the decoder's SRC. -/
def Obligations.DecodingAnEncodedImageGivesTheQuantizedPixels : Prop :=
  ∀ (rows cols : Word) (pixels : List Pixel) (s u : State),
    1 ≤ s.params.srcMax.toNat → pixels.length = rows.toNat * cols.toNat → SinkAccepts s (5 * pixels.length + 17) →
    ∃ t bytes, execAll (encodeImage rows cols pixels) s = .next t ∧ t.err = .noError ∧ t.sink = s.sink ++ bytes ∧
      (bytes.length ≤ u.params.srcMax.toNat →
        ∃ x before pixelResponses, execAll (decodeImage bytes pixels.length) u = .next x ∧ x.err = .noError ∧
          x.rows = rows ∧ x.cols = cols ∧ x.responses = before ++ pixelResponses ∧
          pixelResponses.map (fun r => r.r0) = pixels.map (fun p => packPixel (dequant (quant p))) ∧
          ∀ p ∈ pixels, ∀ v out : Byte,
            (v, out) ∈ [(p.r, (dequant (quant p)).r), (p.g, (dequant (quant p)).g), (p.b, (dequant (quant p)).b)] →
            out.toNat ≤ v.toNat + 2 ∧ v.toNat ≤ out.toNat + 2)
end

