-- ==== Sys2Proof/Laws/Decode.lean ====
section
/-! SUPPORT. What the fields of an encoded word are, and what the decoder does, said once. -/

namespace Sys2Proof

theorem opField_commandWord (op : BitVec 8) (width : BitVec 6) (a b c : Word) :
    opField (commandWord op width a b c) = op := by
  ext i hi
  simp (disch := omega) [opField, commandWord, hi, decide_eq_true]

theorem widthField_commandWord (op : BitVec 8) (width : BitVec 6) (a b c : Word) :
    widthField (commandWord op width a b c) = width := by
  ext i hi
  simp (disch := omega) [widthField, commandWord, BitVec.getLsbD_of_ge, decide_eq_true]

theorem rsvField_commandWord (op : BitVec 8) (width : BitVec 6) (a b c : Word) :
    rsvField (commandWord op width a b c) = 0 := by
  ext i hi
  simp (disch := omega) [rsvField, commandWord, BitVec.getLsbD_of_ge, decide_eq_true, decide_eq_false]

theorem fieldA_commandWord (op : BitVec 8) (width : BitVec 6) (a b c : Word) :
    fieldA (commandWord op width a b c) = a := by
  ext i hi
  simp (disch := omega) [fieldA, commandWord, BitVec.getLsbD_of_ge, decide_eq_true]

theorem fieldB_commandWord (op : BitVec 8) (width : BitVec 6) (a b c : Word) :
    fieldB (commandWord op width a b c) = b := by
  ext i hi
  simp (disch := omega) [fieldB, commandWord, BitVec.getLsbD_of_ge, decide_eq_true]

theorem fieldC_commandWord (op : BitVec 8) (width : BitVec 6) (a b c : Word) :
    fieldC (commandWord op width a b c) = c := by
  ext i hi
  simp (disch := omega) [fieldC, commandWord, BitVec.getLsbD_of_ge, decide_eq_false]

theorem unpackPixel_packPixel (p : Pixel) : unpackPixel (packPixel p) = p := by
  cases p
  simp only [unpackPixel, packPixel, Pixel.mk.injEq]
  refine ⟨?_, ?_, ?_⟩ <;> ext i hi <;> simp (disch := omega) [hi, BitVec.getLsbD_of_ge, decide_eq_true]

theorem keyOperand_setWidth (k : Key) : keyOperand (k.setWidth 32) = k := by
  ext i hi
  simp [keyOperand, hi]
  omega

theorem byteOperand_setWidth (b : Byte) : byteOperand (b.setWidth 32) = b := by
  ext i hi
  simp [byteOperand, hi]
  omega

/-- A word with a row's opcode that passes the checks 3 and 4 of R84 is that row's command. -/
theorem decode_of_row {row : OpcodeRow} (hrow : row ∈ opcodeMap) {w : Command} (hop : opField w = row.op)
    (hrsv : rsvField w = 0) (hwidth : widthCheck row.takesWidth (widthField w) = true) : decode w = .ok (row.build w) := by
  have hfind : opcodeMap.find? (fun r => decide (r.op = opField w)) = some row := by
    rw [hop]
    fin_cases hrow <;> rfl
  simp [decode, hfind, hrsv, hwidth]

/-- All that a decoded word says: the row of its opcode, and that the checks 3 and 4 of R84 passed. -/
theorem row_of_decode {w : Command} {i : Instr} (h : decode w = .ok i) :
    ∃ row ∈ opcodeMap, row.op = opField w ∧ rsvField w = 0 ∧ widthCheck row.takesWidth (widthField w) = true ∧
      i = row.build w := by
  unfold decode at h
  split at h
  · cases h
  · rename_i row hfind
    have hop := List.find?_some hfind
    split at h
    · cases h
    · split at h
      · cases h
        exact ⟨row, List.mem_of_find?_eq_some hfind, by simpa using hop, by simpa using ‹¬rsvField w ≠ 0›, ‹_›, rfl⟩
      · cases h

end Sys2Proof
end

