-- ==== Sys2Proof/Laws/Memory.lean ====
section
/-! SUPPORT. The laws of the memories: a read after a write, and the canonical form that every write keeps. -/

namespace Sys2Proof.Machine

variable {α : Type}

theorem cellAt?_putCell (m : List (Nat × α)) (k k' : Nat) (v : α) :
    cellAt? (putCell m k v) k' = if k' = k then some v else cellAt? m k' := by
  induction m with
  | nil => simp only [putCell, cellAt?, eq_comm (a := k)]
  | cons c rest ih =>
    obtain ⟨j, u⟩ := c
    by_cases h1 : k < j
    · simp only [putCell, h1, if_true, cellAt?]
      by_cases h : k' = k
      · simp [h]
      · simp [h, Ne.symm h]
    · by_cases h2 : j = k
      · subst h2
        simp only [putCell, h1, if_false, if_true, cellAt?]
        by_cases h : k' = j
        · simp [h]
        · simp [h, Ne.symm h]
      · simp only [putCell, h1, h2, if_false, cellAt?, ih]
        by_cases h : j = k'
        · subst h; simp [h2]
        · simp [h]

theorem cellAt?_eraseCell (m : List (Nat × α)) (k k' : Nat) :
    cellAt? (eraseCell m k) k' = if k' = k then none else cellAt? m k' := by
  induction m with
  | nil => simp [eraseCell, cellAt?]
  | cons c rest ih =>
    obtain ⟨j, u⟩ := c
    unfold eraseCell at ih ⊢
    by_cases h : j = k
    · subst h
      simp only [List.filter, ne_eq, not_true, decide_false, ih, cellAt?]
      by_cases h' : k' = j
      · simp [h']
      · simp [h', Ne.symm h']
    · simp only [List.filter, ne_eq, h, not_false_eq_true, decide_true, cellAt?, ih]
      by_cases h' : j = k'
      · subst h'; simp [h]
      · simp [h']

/-- A read after a write: the value written at its own index, what was there at every other. -/
theorem readCell_writeCell [DecidableEq α] (u : Option α) (m : List (Nat × α)) (k k' : Nat) (v : α) :
    readCell u (writeCell u m k v) k' = if k' = k then some v else readCell u m k' := by
  unfold readCell writeCell
  split
  · next h => rw [cellAt?_eraseCell]; split <;> simp_all
  · rw [cellAt?_putCell]; split <;> simp

theorem readCell_writeCell_self [DecidableEq α] (u : Option α) (m : List (Nat × α)) (k : Nat) (v : α) :
    readCell u (writeCell u m k v) k = some v := by
  simp [readCell_writeCell]

theorem readCell_writeCell_ne [DecidableEq α] (u : Option α) (m : List (Nat × α)) {k k' : Nat} (v : α) (h : k' ≠ k) :
    readCell u (writeCell u m k v) k' = readCell u m k' := by
  simp [readCell_writeCell, h]

@[simp] theorem readCell_nil (u : Option α) (k : Nat) : readCell u [] k = u := by simp [readCell, cellAt?]

theorem mem_putCell {m : List (Nat × α)} {k : Nat} {v : α} {c : Nat × α} (h : c ∈ putCell m k v) : c = (k, v) ∨ c ∈ m := by
  induction m with
  | nil => simp_all [putCell]
  | cons d rest ih =>
    obtain ⟨j, u⟩ := d
    simp only [putCell] at h
    split at h
    · simpa using h
    · split at h
      · simp only [List.mem_cons] at h ⊢; tauto
      · simp only [List.mem_cons] at h ⊢
        rcases h with h | h
        · exact .inr (.inl h)
        · rcases ih h with h | h
          · exact .inl h
          · exact .inr (.inr h)

theorem mem_writeCell [DecidableEq α] {u : Option α} {m : List (Nat × α)} {k : Nat} {v : α} {c : Nat × α}
    (h : c ∈ writeCell u m k v) : (c = (k, v) ∧ u ≠ some v) ∨ c ∈ m := by
  unfold writeCell at h
  split at h
  · exact .inr (List.mem_of_mem_filter h)
  · next hu => exact (mem_putCell h).imp (fun h => ⟨h, hu⟩) id

theorem putCell_rising {m : List (Nat × α)} (k : Nat) (v : α) (h : m.Pairwise (fun c d => c.1 < d.1)) :
    (putCell m k v).Pairwise (fun c d => c.1 < d.1) := by
  induction m with
  | nil => simp [putCell]
  | cons d rest ih =>
    obtain ⟨j, u⟩ := d
    rw [List.pairwise_cons] at h
    simp only [putCell]
    split
    · next hk =>
      refine List.pairwise_cons.2 ⟨?_, List.pairwise_cons.2 h⟩
      intro c hc
      rcases List.mem_cons.1 hc with rfl | hc
      · exact hk
      · exact lt_trans hk (h.1 c hc)
    · split
      · next hk hj =>
        subst hj
        exact List.pairwise_cons.2 ⟨h.1, h.2⟩
      · next hk hj =>
        refine List.pairwise_cons.2 ⟨?_, ih h.2⟩
        intro c hc
        rcases mem_putCell hc with rfl | hc
        · exact lt_of_le_of_ne (not_lt.1 hk) hj
        · exact h.1 c hc

/-- Every write keeps the canonical form. -/
theorem writeCell_wf [DecidableEq α] {u : Option α} {m : List (Nat × α)} (k : Nat) (v : α) (h : CellsWf u m) :
    CellsWf u (writeCell u m k v) := by
  refine ⟨?_, fun c hc => ?_⟩
  · unfold writeCell
    split
    · exact h.1.filter _
    · exact putCell_rising k v h.1
  · rcases mem_writeCell hc with ⟨rfl, hu⟩ | hc
    · exact hu
    · exact h.2 c hc

/-- Every write inside a memory keeps it inside. -/
theorem writeCell_below [DecidableEq α] {u : Option α} {m : List (Nat × α)} {size : Nat} {k : Nat} (v : α) (hk : k < size)
    (h : CellsBelow size m) : CellsBelow size (writeCell u m k v) := by
  intro c hc
  rcases mem_writeCell hc with ⟨rfl, -⟩ | hc
  · exact hk
  · exact h c hc

theorem nil_wf (u : Option α) : CellsWf u ([] : List (Nat × α)) := ⟨List.Pairwise.nil, by simp⟩

theorem nil_below (size : Nat) : CellsBelow size ([] : List (Nat × α)) := by simp [CellsBelow]

/-- The free contents of a table after an error are in canonical form and in range. -/
theorem freeTable_wf (size w draw tag : Nat) (hs : 0 < size) :
    CellsWf (some 0) (freeTable size w draw tag) ∧ CellsBelow size (freeTable size w draw tag) := by
  unfold freeTable
  suffices H : ∀ (l m : List (Nat × BitVec w)), CellsWf (some 0) m ∧ CellsBelow size m →
      CellsWf (some 0) (l.foldl (fun m c => writeCell (some 0) m (c.1 % size) c.2) m) ∧
        CellsBelow size (l.foldl (fun m c => writeCell (some 0) m (c.1 % size) c.2) m) from
    H _ _ ⟨nil_wf _, nil_below _⟩
  intro l
  induction l with
  | nil => exact fun m h => h
  | cons c rest ih =>
    exact fun m h => ih _ ⟨writeCell_wf _ _ h.1, writeCell_below _ (Nat.mod_lt _ hs) h.2⟩

end Sys2Proof.Machine
end

