-- ==== Sys2Proof/Laws/State.lean ====
section
/-! SUPPORT. One lemma per field per update of the state, each true by rfl. -/

namespace Sys2Proof.Machine

/-! respond (R80) -/

@[simp] theorem respond_params (r : Response) (s : State) : (respond r s).params = s.params := rfl
@[simp] theorem respond_wbuf (r : Response) (s : State) : (respond r s).wbuf = s.wbuf := rfl
@[simp] theorem respond_wpos (r : Response) (s : State) : (respond r s).wpos = s.wpos := rfl
@[simp] theorem respond_wclosed (r : Response) (s : State) : (respond r s).wclosed = s.wclosed := rfl
@[simp] theorem respond_sinkcnt (r : Response) (s : State) : (respond r s).sinkcnt = s.sinkcnt := rfl
@[simp] theorem respond_sink (r : Response) (s : State) : (respond r s).sink = s.sink := rfl
@[simp] theorem respond_src (r : Response) (s : State) : (respond r s).src = s.src := rfl
@[simp] theorem respond_srcLen (r : Response) (s : State) : (respond r s).srcLen = s.srcLen := rfl
@[simp] theorem respond_ropen (r : Response) (s : State) : (respond r s).ropen = s.ropen := rfl
@[simp] theorem respond_rpos (r : Response) (s : State) : (respond r s).rpos = s.rpos := rfl
@[simp] theorem respond_cnt (r : Response) (s : State) : (respond r s).cnt = s.cnt := rfl
@[simp] theorem respond_seen (r : Response) (s : State) : (respond r s).seen = s.seen := rfl
@[simp] theorem respond_ndist (r : Response) (s : State) : (respond r s).ndist = s.ndist := rfl
@[simp] theorem respond_total (r : Response) (s : State) : (respond r s).total = s.total := rfl
@[simp] theorem respond_rsorted (r : Response) (s : State) : (respond r s).rsorted = s.rsorted := rfl
@[simp] theorem respond_pal (r : Response) (s : State) : (respond r s).pal = s.pal := rfl
@[simp] theorem respond_palLen (r : Response) (s : State) : (respond r s).palLen = s.palLen := rfl
@[simp] theorem respond_rankof (r : Response) (s : State) : (respond r s).rankof = s.rankof := rfl
@[simp] theorem respond_cphase (r : Response) (s : State) : (respond r s).cphase = s.cphase := rfl
@[simp] theorem respond_rows (r : Response) (s : State) : (respond r s).rows = s.rows := rfl
@[simp] theorem respond_cols (r : Response) (s : State) : (respond r s).cols = s.cols := rfl
@[simp] theorem respond_ncolors (r : Response) (s : State) : (respond r s).ncolors = s.ncolors := rfl
@[simp] theorem respond_rcw (r : Response) (s : State) : (respond r s).rcw = s.rcw := rfl
@[simp] theorem respond_pixrem (r : Response) (s : State) : (respond r s).pixrem = s.pixrem := rfl
@[simp] theorem respond_err (r : Response) (s : State) : (respond r s).err = s.err := rfl
@[simp] theorem respond_rstatus (r : Response) (s : State) : (respond r s).rstatus = r.status := rfl
@[simp] theorem respond_res0 (r : Response) (s : State) : (respond r s).res0 = r.r0 := rfl
@[simp] theorem respond_res1 (r : Response) (s : State) : (respond r s).res1 = r.r1 := rfl
@[simp] theorem respond_res2 (r : Response) (s : State) : (respond r s).res2 = r.r2 := rfl
@[simp] theorem respond_inputs (r : Response) (s : State) : (respond r s).inputs = s.inputs := rfl
@[simp] theorem respond_responses (r : Response) (s : State) : (respond r s).responses = s.responses ++ [r] := rfl
@[simp] theorem respond_sinkAnswers (r : Response) (s : State) : (respond r s).sinkAnswers = s.sinkAnswers := rfl
@[simp] theorem respond_sinkOffers (r : Response) (s : State) : (respond r s).sinkOffers = s.sinkOffers := rfl
@[simp] theorem respond_freeDraws (r : Response) (s : State) : (respond r s).freeDraws = s.freeDraws := rfl

/-! takeInput -/

@[simp] theorem takeInput_params (s : State) : (takeInput s).params = s.params := rfl
@[simp] theorem takeInput_wbuf (s : State) : (takeInput s).wbuf = s.wbuf := rfl
@[simp] theorem takeInput_wpos (s : State) : (takeInput s).wpos = s.wpos := rfl
@[simp] theorem takeInput_wclosed (s : State) : (takeInput s).wclosed = s.wclosed := rfl
@[simp] theorem takeInput_sinkcnt (s : State) : (takeInput s).sinkcnt = s.sinkcnt := rfl
@[simp] theorem takeInput_sink (s : State) : (takeInput s).sink = s.sink := rfl
@[simp] theorem takeInput_src (s : State) : (takeInput s).src = s.src := rfl
@[simp] theorem takeInput_srcLen (s : State) : (takeInput s).srcLen = s.srcLen := rfl
@[simp] theorem takeInput_ropen (s : State) : (takeInput s).ropen = s.ropen := rfl
@[simp] theorem takeInput_rpos (s : State) : (takeInput s).rpos = s.rpos := rfl
@[simp] theorem takeInput_cnt (s : State) : (takeInput s).cnt = s.cnt := rfl
@[simp] theorem takeInput_seen (s : State) : (takeInput s).seen = s.seen := rfl
@[simp] theorem takeInput_ndist (s : State) : (takeInput s).ndist = s.ndist := rfl
@[simp] theorem takeInput_total (s : State) : (takeInput s).total = s.total := rfl
@[simp] theorem takeInput_rsorted (s : State) : (takeInput s).rsorted = s.rsorted := rfl
@[simp] theorem takeInput_pal (s : State) : (takeInput s).pal = s.pal := rfl
@[simp] theorem takeInput_palLen (s : State) : (takeInput s).palLen = s.palLen := rfl
@[simp] theorem takeInput_rankof (s : State) : (takeInput s).rankof = s.rankof := rfl
@[simp] theorem takeInput_cphase (s : State) : (takeInput s).cphase = s.cphase := rfl
@[simp] theorem takeInput_rows (s : State) : (takeInput s).rows = s.rows := rfl
@[simp] theorem takeInput_cols (s : State) : (takeInput s).cols = s.cols := rfl
@[simp] theorem takeInput_ncolors (s : State) : (takeInput s).ncolors = s.ncolors := rfl
@[simp] theorem takeInput_rcw (s : State) : (takeInput s).rcw = s.rcw := rfl
@[simp] theorem takeInput_pixrem (s : State) : (takeInput s).pixrem = s.pixrem := rfl
@[simp] theorem takeInput_err (s : State) : (takeInput s).err = s.err := rfl
@[simp] theorem takeInput_rstatus (s : State) : (takeInput s).rstatus = s.rstatus := rfl
@[simp] theorem takeInput_res0 (s : State) : (takeInput s).res0 = s.res0 := rfl
@[simp] theorem takeInput_res1 (s : State) : (takeInput s).res1 = s.res1 := rfl
@[simp] theorem takeInput_res2 (s : State) : (takeInput s).res2 = s.res2 := rfl
@[simp] theorem takeInput_inputs (s : State) : (takeInput s).inputs = s.inputs.drop 1 := rfl
@[simp] theorem takeInput_responses (s : State) : (takeInput s).responses = s.responses := rfl
@[simp] theorem takeInput_sinkAnswers (s : State) : (takeInput s).sinkAnswers = s.sinkAnswers := rfl
@[simp] theorem takeInput_sinkOffers (s : State) : (takeInput s).sinkOffers = s.sinkOffers := rfl
@[simp] theorem takeInput_freeDraws (s : State) : (takeInput s).freeDraws = s.freeDraws := rfl

/-! takeAnswer (R61) -/

@[simp] theorem takeAnswer_params (s : State) : (takeAnswer s).params = s.params := rfl
@[simp] theorem takeAnswer_wbuf (s : State) : (takeAnswer s).wbuf = s.wbuf := rfl
@[simp] theorem takeAnswer_wpos (s : State) : (takeAnswer s).wpos = s.wpos := rfl
@[simp] theorem takeAnswer_wclosed (s : State) : (takeAnswer s).wclosed = s.wclosed := rfl
@[simp] theorem takeAnswer_sinkcnt (s : State) : (takeAnswer s).sinkcnt = s.sinkcnt := rfl
@[simp] theorem takeAnswer_sink (s : State) : (takeAnswer s).sink = s.sink := rfl
@[simp] theorem takeAnswer_src (s : State) : (takeAnswer s).src = s.src := rfl
@[simp] theorem takeAnswer_srcLen (s : State) : (takeAnswer s).srcLen = s.srcLen := rfl
@[simp] theorem takeAnswer_ropen (s : State) : (takeAnswer s).ropen = s.ropen := rfl
@[simp] theorem takeAnswer_rpos (s : State) : (takeAnswer s).rpos = s.rpos := rfl
@[simp] theorem takeAnswer_cnt (s : State) : (takeAnswer s).cnt = s.cnt := rfl
@[simp] theorem takeAnswer_seen (s : State) : (takeAnswer s).seen = s.seen := rfl
@[simp] theorem takeAnswer_ndist (s : State) : (takeAnswer s).ndist = s.ndist := rfl
@[simp] theorem takeAnswer_total (s : State) : (takeAnswer s).total = s.total := rfl
@[simp] theorem takeAnswer_rsorted (s : State) : (takeAnswer s).rsorted = s.rsorted := rfl
@[simp] theorem takeAnswer_pal (s : State) : (takeAnswer s).pal = s.pal := rfl
@[simp] theorem takeAnswer_palLen (s : State) : (takeAnswer s).palLen = s.palLen := rfl
@[simp] theorem takeAnswer_rankof (s : State) : (takeAnswer s).rankof = s.rankof := rfl
@[simp] theorem takeAnswer_cphase (s : State) : (takeAnswer s).cphase = s.cphase := rfl
@[simp] theorem takeAnswer_rows (s : State) : (takeAnswer s).rows = s.rows := rfl
@[simp] theorem takeAnswer_cols (s : State) : (takeAnswer s).cols = s.cols := rfl
@[simp] theorem takeAnswer_ncolors (s : State) : (takeAnswer s).ncolors = s.ncolors := rfl
@[simp] theorem takeAnswer_rcw (s : State) : (takeAnswer s).rcw = s.rcw := rfl
@[simp] theorem takeAnswer_pixrem (s : State) : (takeAnswer s).pixrem = s.pixrem := rfl
@[simp] theorem takeAnswer_err (s : State) : (takeAnswer s).err = s.err := rfl
@[simp] theorem takeAnswer_rstatus (s : State) : (takeAnswer s).rstatus = s.rstatus := rfl
@[simp] theorem takeAnswer_res0 (s : State) : (takeAnswer s).res0 = s.res0 := rfl
@[simp] theorem takeAnswer_res1 (s : State) : (takeAnswer s).res1 = s.res1 := rfl
@[simp] theorem takeAnswer_res2 (s : State) : (takeAnswer s).res2 = s.res2 := rfl
@[simp] theorem takeAnswer_inputs (s : State) : (takeAnswer s).inputs = s.inputs := rfl
@[simp] theorem takeAnswer_responses (s : State) : (takeAnswer s).responses = s.responses := rfl
@[simp] theorem takeAnswer_sinkAnswers (s : State) : (takeAnswer s).sinkAnswers = s.sinkAnswers.drop 1 := rfl
@[simp] theorem takeAnswer_sinkOffers (s : State) : (takeAnswer s).sinkOffers = s.sinkOffers + 1 := rfl
@[simp] theorem takeAnswer_freeDraws (s : State) : (takeAnswer s).freeDraws = s.freeDraws := rfl

/-! storeBit (R107) -/

@[simp] theorem storeBit_params (b : Bool) (s : State) : (storeBit b s).params = s.params := rfl
@[simp] theorem storeBit_wbuf (b : Bool) (s : State) : (storeBit b s).wbuf = 
    writeCell wbufUnlisted s.wbuf (s.wpos.toNat / 8) (setBit (wbufByte s (s.wpos.toNat / 8)) (s.wpos.toNat % 8) b) := rfl
@[simp] theorem storeBit_wpos (b : Bool) (s : State) : (storeBit b s).wpos = s.wpos + 1 := rfl
@[simp] theorem storeBit_wclosed (b : Bool) (s : State) : (storeBit b s).wclosed = s.wclosed := rfl
@[simp] theorem storeBit_sinkcnt (b : Bool) (s : State) : (storeBit b s).sinkcnt = s.sinkcnt := rfl
@[simp] theorem storeBit_sink (b : Bool) (s : State) : (storeBit b s).sink = s.sink := rfl
@[simp] theorem storeBit_src (b : Bool) (s : State) : (storeBit b s).src = s.src := rfl
@[simp] theorem storeBit_srcLen (b : Bool) (s : State) : (storeBit b s).srcLen = s.srcLen := rfl
@[simp] theorem storeBit_ropen (b : Bool) (s : State) : (storeBit b s).ropen = s.ropen := rfl
@[simp] theorem storeBit_rpos (b : Bool) (s : State) : (storeBit b s).rpos = s.rpos := rfl
@[simp] theorem storeBit_cnt (b : Bool) (s : State) : (storeBit b s).cnt = s.cnt := rfl
@[simp] theorem storeBit_seen (b : Bool) (s : State) : (storeBit b s).seen = s.seen := rfl
@[simp] theorem storeBit_ndist (b : Bool) (s : State) : (storeBit b s).ndist = s.ndist := rfl
@[simp] theorem storeBit_total (b : Bool) (s : State) : (storeBit b s).total = s.total := rfl
@[simp] theorem storeBit_rsorted (b : Bool) (s : State) : (storeBit b s).rsorted = s.rsorted := rfl
@[simp] theorem storeBit_pal (b : Bool) (s : State) : (storeBit b s).pal = s.pal := rfl
@[simp] theorem storeBit_palLen (b : Bool) (s : State) : (storeBit b s).palLen = s.palLen := rfl
@[simp] theorem storeBit_rankof (b : Bool) (s : State) : (storeBit b s).rankof = s.rankof := rfl
@[simp] theorem storeBit_cphase (b : Bool) (s : State) : (storeBit b s).cphase = s.cphase := rfl
@[simp] theorem storeBit_rows (b : Bool) (s : State) : (storeBit b s).rows = s.rows := rfl
@[simp] theorem storeBit_cols (b : Bool) (s : State) : (storeBit b s).cols = s.cols := rfl
@[simp] theorem storeBit_ncolors (b : Bool) (s : State) : (storeBit b s).ncolors = s.ncolors := rfl
@[simp] theorem storeBit_rcw (b : Bool) (s : State) : (storeBit b s).rcw = s.rcw := rfl
@[simp] theorem storeBit_pixrem (b : Bool) (s : State) : (storeBit b s).pixrem = s.pixrem := rfl
@[simp] theorem storeBit_err (b : Bool) (s : State) : (storeBit b s).err = s.err := rfl
@[simp] theorem storeBit_rstatus (b : Bool) (s : State) : (storeBit b s).rstatus = s.rstatus := rfl
@[simp] theorem storeBit_res0 (b : Bool) (s : State) : (storeBit b s).res0 = s.res0 := rfl
@[simp] theorem storeBit_res1 (b : Bool) (s : State) : (storeBit b s).res1 = s.res1 := rfl
@[simp] theorem storeBit_res2 (b : Bool) (s : State) : (storeBit b s).res2 = s.res2 := rfl
@[simp] theorem storeBit_inputs (b : Bool) (s : State) : (storeBit b s).inputs = s.inputs := rfl
@[simp] theorem storeBit_responses (b : Bool) (s : State) : (storeBit b s).responses = s.responses := rfl
@[simp] theorem storeBit_sinkAnswers (b : Bool) (s : State) : (storeBit b s).sinkAnswers = s.sinkAnswers := rfl
@[simp] theorem storeBit_sinkOffers (b : Bool) (s : State) : (storeBit b s).sinkOffers = s.sinkOffers := rfl
@[simp] theorem storeBit_freeDraws (b : Bool) (s : State) : (storeBit b s).freeDraws = s.freeDraws := rfl

/-! countKey (R129) -/

@[simp] theorem countKey_params (k : Key) (s : State) : (countKey k s).params = s.params := rfl
@[simp] theorem countKey_wbuf (k : Key) (s : State) : (countKey k s).wbuf = s.wbuf := rfl
@[simp] theorem countKey_wpos (k : Key) (s : State) : (countKey k s).wpos = s.wpos := rfl
@[simp] theorem countKey_wclosed (k : Key) (s : State) : (countKey k s).wclosed = s.wclosed := rfl
@[simp] theorem countKey_sinkcnt (k : Key) (s : State) : (countKey k s).sinkcnt = s.sinkcnt := rfl
@[simp] theorem countKey_sink (k : Key) (s : State) : (countKey k s).sink = s.sink := rfl
@[simp] theorem countKey_src (k : Key) (s : State) : (countKey k s).src = s.src := rfl
@[simp] theorem countKey_srcLen (k : Key) (s : State) : (countKey k s).srcLen = s.srcLen := rfl
@[simp] theorem countKey_ropen (k : Key) (s : State) : (countKey k s).ropen = s.ropen := rfl
@[simp] theorem countKey_rpos (k : Key) (s : State) : (countKey k s).rpos = s.rpos := rfl
@[simp] theorem countKey_cnt (k : Key) (s : State) : (countKey k s).cnt = writeCell cntUnlisted s.cnt k.toNat (cntEntry s k + 1) := rfl
@[simp] theorem countKey_seen (k : Key) (s : State) : (countKey k s).seen = 
    if cntEntry s k = 0 then writeCell tableUnlisted s.seen s.ndist.toNat k else s.seen := rfl
@[simp] theorem countKey_ndist (k : Key) (s : State) : (countKey k s).ndist = if cntEntry s k = 0 then s.ndist + 1 else s.ndist := rfl
@[simp] theorem countKey_total (k : Key) (s : State) : (countKey k s).total = s.total + 1 := rfl
@[simp] theorem countKey_rsorted (k : Key) (s : State) : (countKey k s).rsorted = false := rfl
@[simp] theorem countKey_pal (k : Key) (s : State) : (countKey k s).pal = s.pal := rfl
@[simp] theorem countKey_palLen (k : Key) (s : State) : (countKey k s).palLen = s.palLen := rfl
@[simp] theorem countKey_rankof (k : Key) (s : State) : (countKey k s).rankof = s.rankof := rfl
@[simp] theorem countKey_cphase (k : Key) (s : State) : (countKey k s).cphase = s.cphase := rfl
@[simp] theorem countKey_rows (k : Key) (s : State) : (countKey k s).rows = s.rows := rfl
@[simp] theorem countKey_cols (k : Key) (s : State) : (countKey k s).cols = s.cols := rfl
@[simp] theorem countKey_ncolors (k : Key) (s : State) : (countKey k s).ncolors = s.ncolors := rfl
@[simp] theorem countKey_rcw (k : Key) (s : State) : (countKey k s).rcw = s.rcw := rfl
@[simp] theorem countKey_pixrem (k : Key) (s : State) : (countKey k s).pixrem = s.pixrem := rfl
@[simp] theorem countKey_err (k : Key) (s : State) : (countKey k s).err = s.err := rfl
@[simp] theorem countKey_rstatus (k : Key) (s : State) : (countKey k s).rstatus = s.rstatus := rfl
@[simp] theorem countKey_res0 (k : Key) (s : State) : (countKey k s).res0 = s.res0 := rfl
@[simp] theorem countKey_res1 (k : Key) (s : State) : (countKey k s).res1 = s.res1 := rfl
@[simp] theorem countKey_res2 (k : Key) (s : State) : (countKey k s).res2 = s.res2 := rfl
@[simp] theorem countKey_inputs (k : Key) (s : State) : (countKey k s).inputs = s.inputs := rfl
@[simp] theorem countKey_responses (k : Key) (s : State) : (countKey k s).responses = s.responses := rfl
@[simp] theorem countKey_sinkAnswers (k : Key) (s : State) : (countKey k s).sinkAnswers = s.sinkAnswers := rfl
@[simp] theorem countKey_sinkOffers (k : Key) (s : State) : (countKey k s).sinkOffers = s.sinkOffers := rfl
@[simp] theorem countKey_freeDraws (k : Key) (s : State) : (countKey k s).freeDraws = s.freeDraws := rfl

/-! loadHeader (R141, R145) -/

@[simp] theorem loadHeader_params (rows cols numColors : Word) (s : State) : (loadHeader rows cols numColors s).params = s.params := rfl
@[simp] theorem loadHeader_wbuf (rows cols numColors : Word) (s : State) : (loadHeader rows cols numColors s).wbuf = s.wbuf := rfl
@[simp] theorem loadHeader_wpos (rows cols numColors : Word) (s : State) : (loadHeader rows cols numColors s).wpos = s.wpos := rfl
@[simp] theorem loadHeader_wclosed (rows cols numColors : Word) (s : State) : (loadHeader rows cols numColors s).wclosed = s.wclosed := rfl
@[simp] theorem loadHeader_sinkcnt (rows cols numColors : Word) (s : State) : (loadHeader rows cols numColors s).sinkcnt = s.sinkcnt := rfl
@[simp] theorem loadHeader_sink (rows cols numColors : Word) (s : State) : (loadHeader rows cols numColors s).sink = s.sink := rfl
@[simp] theorem loadHeader_src (rows cols numColors : Word) (s : State) : (loadHeader rows cols numColors s).src = s.src := rfl
@[simp] theorem loadHeader_srcLen (rows cols numColors : Word) (s : State) : (loadHeader rows cols numColors s).srcLen = s.srcLen := rfl
@[simp] theorem loadHeader_ropen (rows cols numColors : Word) (s : State) : (loadHeader rows cols numColors s).ropen = s.ropen := rfl
@[simp] theorem loadHeader_rpos (rows cols numColors : Word) (s : State) : (loadHeader rows cols numColors s).rpos = s.rpos := rfl
@[simp] theorem loadHeader_cnt (rows cols numColors : Word) (s : State) : (loadHeader rows cols numColors s).cnt = s.cnt := rfl
@[simp] theorem loadHeader_seen (rows cols numColors : Word) (s : State) : (loadHeader rows cols numColors s).seen = s.seen := rfl
@[simp] theorem loadHeader_ndist (rows cols numColors : Word) (s : State) : (loadHeader rows cols numColors s).ndist = s.ndist := rfl
@[simp] theorem loadHeader_total (rows cols numColors : Word) (s : State) : (loadHeader rows cols numColors s).total = s.total := rfl
@[simp] theorem loadHeader_rsorted (rows cols numColors : Word) (s : State) : (loadHeader rows cols numColors s).rsorted = s.rsorted := rfl
@[simp] theorem loadHeader_pal (rows cols numColors : Word) (s : State) : (loadHeader rows cols numColors s).pal = s.pal := rfl
@[simp] theorem loadHeader_palLen (rows cols numColors : Word) (s : State) : (loadHeader rows cols numColors s).palLen = s.palLen := rfl
@[simp] theorem loadHeader_rankof (rows cols numColors : Word) (s : State) : (loadHeader rows cols numColors s).rankof = s.rankof := rfl
@[simp] theorem loadHeader_cphase (rows cols numColors : Word) (s : State) : (loadHeader rows cols numColors s).cphase = s.cphase := rfl
@[simp] theorem loadHeader_rows (rows cols numColors : Word) (s : State) : (loadHeader rows cols numColors s).rows = rows := rfl
@[simp] theorem loadHeader_cols (rows cols numColors : Word) (s : State) : (loadHeader rows cols numColors s).cols = cols := rfl
@[simp] theorem loadHeader_ncolors (rows cols numColors : Word) (s : State) : (loadHeader rows cols numColors s).ncolors = numColors := rfl
@[simp] theorem loadHeader_rcw (rows cols numColors : Word) (s : State) : (loadHeader rows cols numColors s).rcw = BitVec.ofNat 6 (rankCodeWidth numColors.toNat) := rfl
@[simp] theorem loadHeader_pixrem (rows cols numColors : Word) (s : State) : (loadHeader rows cols numColors s).pixrem = gridSize rows cols := rfl
@[simp] theorem loadHeader_err (rows cols numColors : Word) (s : State) : (loadHeader rows cols numColors s).err = s.err := rfl
@[simp] theorem loadHeader_rstatus (rows cols numColors : Word) (s : State) : (loadHeader rows cols numColors s).rstatus = s.rstatus := rfl
@[simp] theorem loadHeader_res0 (rows cols numColors : Word) (s : State) : (loadHeader rows cols numColors s).res0 = s.res0 := rfl
@[simp] theorem loadHeader_res1 (rows cols numColors : Word) (s : State) : (loadHeader rows cols numColors s).res1 = s.res1 := rfl
@[simp] theorem loadHeader_res2 (rows cols numColors : Word) (s : State) : (loadHeader rows cols numColors s).res2 = s.res2 := rfl
@[simp] theorem loadHeader_inputs (rows cols numColors : Word) (s : State) : (loadHeader rows cols numColors s).inputs = s.inputs := rfl
@[simp] theorem loadHeader_responses (rows cols numColors : Word) (s : State) : (loadHeader rows cols numColors s).responses = s.responses := rfl
@[simp] theorem loadHeader_sinkAnswers (rows cols numColors : Word) (s : State) : (loadHeader rows cols numColors s).sinkAnswers = s.sinkAnswers := rfl
@[simp] theorem loadHeader_sinkOffers (rows cols numColors : Word) (s : State) : (loadHeader rows cols numColors s).sinkOffers = s.sinkOffers := rfl
@[simp] theorem loadHeader_freeDraws (rows cols numColors : Word) (s : State) : (loadHeader rows cols numColors s).freeDraws = s.freeDraws := rfl

/-! resetState (R185) -/

@[simp] theorem resetState_params (s : State) : (resetState s).params = s.params := rfl
@[simp] theorem resetState_wbuf (s : State) : (resetState s).wbuf = [] := rfl
@[simp] theorem resetState_wpos (s : State) : (resetState s).wpos = 0 := rfl
@[simp] theorem resetState_wclosed (s : State) : (resetState s).wclosed = false := rfl
@[simp] theorem resetState_sinkcnt (s : State) : (resetState s).sinkcnt = 0 := rfl
@[simp] theorem resetState_sink (s : State) : (resetState s).sink = s.sink := rfl
@[simp] theorem resetState_src (s : State) : (resetState s).src = [] := rfl
@[simp] theorem resetState_srcLen (s : State) : (resetState s).srcLen = 0 := rfl
@[simp] theorem resetState_ropen (s : State) : (resetState s).ropen = false := rfl
@[simp] theorem resetState_rpos (s : State) : (resetState s).rpos = 0 := rfl
@[simp] theorem resetState_cnt (s : State) : (resetState s).cnt = [] := rfl
@[simp] theorem resetState_seen (s : State) : (resetState s).seen = [] := rfl
@[simp] theorem resetState_ndist (s : State) : (resetState s).ndist = 0 := rfl
@[simp] theorem resetState_total (s : State) : (resetState s).total = 0 := rfl
@[simp] theorem resetState_rsorted (s : State) : (resetState s).rsorted = false := rfl
@[simp] theorem resetState_pal (s : State) : (resetState s).pal = [] := rfl
@[simp] theorem resetState_palLen (s : State) : (resetState s).palLen = 0 := rfl
@[simp] theorem resetState_rankof (s : State) : (resetState s).rankof = [] := rfl
@[simp] theorem resetState_cphase (s : State) : (resetState s).cphase = .idle := rfl
@[simp] theorem resetState_rows (s : State) : (resetState s).rows = 0 := rfl
@[simp] theorem resetState_cols (s : State) : (resetState s).cols = 0 := rfl
@[simp] theorem resetState_ncolors (s : State) : (resetState s).ncolors = 0 := rfl
@[simp] theorem resetState_rcw (s : State) : (resetState s).rcw = 0 := rfl
@[simp] theorem resetState_pixrem (s : State) : (resetState s).pixrem = 0 := rfl
@[simp] theorem resetState_err (s : State) : (resetState s).err = .noError := rfl
@[simp] theorem resetState_rstatus (s : State) : (resetState s).rstatus = .noError := rfl
@[simp] theorem resetState_res0 (s : State) : (resetState s).res0 = 0 := rfl
@[simp] theorem resetState_res1 (s : State) : (resetState s).res1 = 0 := rfl
@[simp] theorem resetState_res2 (s : State) : (resetState s).res2 = 0 := rfl
@[simp] theorem resetState_inputs (s : State) : (resetState s).inputs = s.inputs := rfl
@[simp] theorem resetState_responses (s : State) : (resetState s).responses = s.responses := rfl
@[simp] theorem resetState_sinkAnswers (s : State) : (resetState s).sinkAnswers = s.sinkAnswers := rfl
@[simp] theorem resetState_sinkOffers (s : State) : (resetState s).sinkOffers = s.sinkOffers := rfl
@[simp] theorem resetState_freeDraws (s : State) : (resetState s).freeDraws = s.freeDraws + 1 := rfl

/-! unspecified (R165): what the error entry keeps -/

@[simp] theorem unspecified_params (s : State) : (unspecified s).params = s.params := rfl
@[simp] theorem unspecified_sink (s : State) : (unspecified s).sink = s.sink := rfl
@[simp] theorem unspecified_err (s : State) : (unspecified s).err = s.err := rfl
@[simp] theorem unspecified_rstatus (s : State) : (unspecified s).rstatus = s.rstatus := rfl
@[simp] theorem unspecified_res0 (s : State) : (unspecified s).res0 = s.res0 := rfl
@[simp] theorem unspecified_res1 (s : State) : (unspecified s).res1 = s.res1 := rfl
@[simp] theorem unspecified_res2 (s : State) : (unspecified s).res2 = s.res2 := rfl
@[simp] theorem unspecified_inputs (s : State) : (unspecified s).inputs = s.inputs := rfl
@[simp] theorem unspecified_responses (s : State) : (unspecified s).responses = s.responses := rfl
@[simp] theorem unspecified_sinkAnswers (s : State) : (unspecified s).sinkAnswers = s.sinkAnswers := rfl
@[simp] theorem unspecified_sinkOffers (s : State) : (unspecified s).sinkOffers = s.sinkOffers := rfl
@[simp] theorem unspecified_freeDraws (s : State) : (unspecified s).freeDraws = s.freeDraws + 1 := rfl

end Sys2Proof.Machine
end

