-- ==== Sys2Proof/Laws/Ops.lean ====
section
/-! SUPPORT. What the shared operations can do, said once: how a command ends, the error entry, the sink port, PutBits, FlushBuf
and GetBits. -/

namespace Sys2Proof.Machine

/-! ### The shape of a command -/

section
variable {α β : Type}

@[simp] theorem andThen_ok (a : α) (s : State) (k : α → State → Result β) : (Result.ok a s).andThen k = k a s := rfl
@[simp] theorem andThen_raised (e : ErrCode) (s : State) (k : α → State → Result β) :
    (Result.raised e s : Result α).andThen k = .raised e s := rfl
@[simp] theorem andThen_fault (f : Fault) (k : α → State → Result β) : (Result.fault f : Result α).andThen k = .fault f := rfl

/-- If a sequence of two answers, the first answered and the second did from there. -/
theorem andThen_eq_ok {r : Result α} {k : α → State → Result β} {b : β} {t : State} (h : r.andThen k = .ok b t) :
    ∃ a u, r = .ok a u ∧ k a u = .ok b t := by
  cases r with
  | ok a u => exact ⟨a, u, rfl, h⟩
  | raised e u => cases h
  | fault f => cases h

/-- If a sequence of two raises, the first raised, or it answered and the second raised. -/
theorem andThen_eq_raised {r : Result α} {k : α → State → Result β} {e : ErrCode} {t : State}
    (h : r.andThen k = .raised e t) : r = .raised e t ∨ ∃ a u, r = .ok a u ∧ k a u = .raised e t := by
  cases r with
  | ok a u => exact .inr ⟨a, u, rfl, h⟩
  | raised e' u => exact .inl (by simpa using h)
  | fault f => cases h

@[simp] theorem require_true {c : Prop} [Decidable c] {s : State} {rest : Result α} (h : c) : require c s rest = rest := if_pos h
@[simp] theorem require_false {c : Prop} [Decidable c] {s : State} {rest : Result α} (h : ¬c) :
    require c s rest = .raised .usageError s := if_neg h

end

@[simp] theorem finish_ok (r : Response) (s : State) : finish (.ok r s) = .next (respond r s) := rfl
@[simp] theorem finish_raised (e : ErrCode) (s : State) : finish (.raised e s) = .next (raiseError e s) := rfl
@[simp] theorem finish_fault (f : Fault) : finish (.fault f) = .fault f := rfl

theorem command_noError {s : State} (body : Result Response) (h : s.err = .noError) : command s body = finish body := if_pos h
theorem command_sticky {s : State} (body : Result Response) (h : s.err ≠ .noError) :
    command s body = .next (refuseSticky s) := if_neg h

/-- Everything a command that answers a next state can have done. -/
theorem command_next {s t : State} {body : Result Response} (h : command s body = .next t) :
    (s.err ≠ .noError ∧ t = refuseSticky s) ∨
    (s.err = .noError ∧ ∃ r u, body = .ok r u ∧ t = respond r u) ∨
    (s.err = .noError ∧ ∃ e u, body = .raised e u ∧ t = raiseError e u) := by
  by_cases hs : s.err = .noError
  · rw [command_noError body hs] at h
    cases body with
    | ok r u => exact .inr (.inl ⟨hs, r, u, rfl, by simpa using h.symm⟩)
    | raised e u => exact .inr (.inr ⟨hs, e, u, rfl, by simpa using h.symm⟩)
    | fault f => cases h
  · rw [command_sticky body hs] at h
    exact .inl ⟨hs, by simpa using h.symm⟩

theorem respond_responded (r : Response) (s : State) : Responded s (respond r s) r := ⟨rfl, rfl, rfl, rfl, rfl⟩

/-! ### The error entry -/

theorem raiseError_noError {e : ErrCode} {s : State} (h : s.err = .noError) :
    raiseError e s = respond (failure e) { unspecified s with err := e } := if_pos h
theorem raiseError_sticky {e : ErrCode} {s : State} (h : s.err ≠ .noError) : raiseError e s = respond (failure e) s := if_neg h

/-- What the error entry keeps of the state the error was raised in (R165). -/
theorem raiseError_keeps (e : ErrCode) (s : State) :
    Responded s (raiseError e s) ⟨e, 0, 0, 0⟩ ∧ (raiseError e s).sink = s.sink ∧ SameHost s (raiseError e s) ∧
      (raiseError e s).err = (if s.err = .noError then e else s.err) := by
  by_cases h : s.err = .noError
  · rw [raiseError_noError h, if_pos h]
    exact ⟨respond_responded _ _, rfl, ⟨rfl, rfl⟩, rfl⟩
  · rw [raiseError_sticky h, if_neg h]
    exact ⟨respond_responded _ _, rfl, ⟨rfl, rfl⟩, rfl⟩

/-! ### The fields the writer's operations may change -/

/-- Only WBUF, WPOS, the sink stream, SINKCNT and the sink's answers differ. -/
def OnlyWriter (s t : State) : Prop :=
  t = { s with wbuf := t.wbuf, wpos := t.wpos, sink := t.sink, sinkcnt := t.sinkcnt,
               sinkAnswers := t.sinkAnswers, sinkOffers := t.sinkOffers }

theorem OnlyWriter.rfl' (s : State) : OnlyWriter s s := rfl

theorem OnlyWriter.trans {s t u : State} (h : OnlyWriter s t) (k : OnlyWriter t u) : OnlyWriter s u := by
  unfold OnlyWriter at *
  rw [k, h]

/-! ### The sink port -/

theorem sinkAnswer_eq_answerAt (s : State) : sinkAnswer s = answerAt s 0 := by
  unfold sinkAnswer answerAt
  cases s.sinkAnswers <;> simp

theorem answerAt_takeAnswer (s : State) (i : Nat) : answerAt (takeAnswer s) i = answerAt s (i + 1) := by
  unfold answerAt
  simp [takeAnswer, Nat.add_comm, Nat.add_left_comm]

/-- s after the sink accepted `bytes` (R61). -/
def accepted (bytes : List Byte) (s : State) : State :=
  { s with
    sink := s.sink ++ bytes
    sinkcnt := s.sinkcnt + BitVec.ofNat 64 bytes.length
    sinkAnswers := s.sinkAnswers.drop bytes.length
    sinkOffers := s.sinkOffers + bytes.length }

theorem accepted_nil (s : State) : accepted [] s = s := by simp [accepted]

theorem accepted_append (xs ys : List Byte) (s : State) : accepted ys (accepted xs s) = accepted (xs ++ ys) s := by
  simp only [accepted, List.append_assoc, List.length_append, List.drop_drop, BitVec.ofNat_add, BitVec.add_assoc,
    Nat.add_assoc]

theorem accepted_onlyWriter (bytes : List Byte) (s : State) : OnlyWriter s (accepted bytes s) := rfl

theorem answerAt_accepted (bytes : List Byte) (s : State) (i : Nat) :
    answerAt (accepted bytes s) i = answerAt s (bytes.length + i) := by
  unfold answerAt
  simp [accepted, List.getElem?_drop, Nat.add_assoc]

theorem emit_accepted {b : Byte} {s : State} (h : answerAt s 0 = true) : emit b s = .ok () (accepted [b] s) := by
  rw [← sinkAnswer_eq_answerAt] at h
  simp [emit, h, takeAnswer, accepted]

theorem emit_refused {b : Byte} {s : State} (h : answerAt s 0 = false) : emit b s = .raised .ioError (takeAnswer s) := by
  rw [← sinkAnswer_eq_answerAt] at h
  simp [emit, h]

theorem SinkAccepts.mono {s : State} {m n : Nat} (h : SinkAccepts s n) (hmn : m ≤ n) : SinkAccepts s m :=
  fun i hi => h i (lt_of_lt_of_le hi hmn)

theorem SinkAccepts.after {s : State} {n : Nat} (bytes : List Byte) (h : SinkAccepts s (bytes.length + n)) :
    SinkAccepts (accepted bytes s) n := by
  intro i hi
  rw [answerAt_accepted]
  exact h _ (by omega)

theorem SinkAccepts.before {s : State} {n : Nat} {bytes : List Byte} (h : SinkAccepts s bytes.length)
    (k : SinkAccepts (accepted bytes s) n) : SinkAccepts s (bytes.length + n) := by
  intro i hi
  by_cases hb : i < bytes.length
  · exact h i hb
  · have := k (i - bytes.length) (by omega)
    rwa [answerAt_accepted, Nat.add_sub_cancel' (by omega)] at this

/-- Emission to a sink that accepts every byte. -/
theorem emitAll_accepted {bytes : List Byte} {s : State} (h : SinkAccepts s bytes.length) :
    emitAll bytes s = .ok () (accepted bytes s) := by
  induction bytes generalizing s with
  | nil => simp [emitAll, accepted_nil]
  | cons b rest ih =>
    rw [emitAll, emit_accepted (h 0 (by simp)), andThen_ok, ih, accepted_append]
    · rfl
    · exact SinkAccepts.after [b] (h.mono (by simp; omega))

/-- Emission to a sink that accepts j bytes and refuses the next: exactly those j bytes, and IOError (R61). -/
theorem emitAll_refused {bytes : List Byte} {s : State} {j : Nat} (hj : j < bytes.length) (h : FirstRefusalAt s j) :
    emitAll bytes s = .raised .ioError (takeAnswer (accepted (bytes.take j) s)) := by
  induction bytes generalizing s j with
  | nil => simp at hj
  | cons b rest ih =>
    cases j with
    | zero => rw [emitAll, emit_refused h.2, List.take_zero, accepted_nil]; rfl
    | succ j =>
      have h1 : FirstRefusalAt (accepted [b] s) j :=
        ⟨SinkAccepts.after [b] (h.1.mono (by simp; omega)), by
          rw [answerAt_accepted, List.length_singleton, Nat.add_comm]; exact h.2⟩
      rw [emitAll, emit_accepted (h.1 0 (by omega)), andThen_ok, ih (by simpa using hj) h1, accepted_append]
      rfl

/-- Everything an emission can do. -/
theorem emitAll_cases (bytes : List Byte) (s : State) :
    (SinkAccepts s bytes.length ∧ emitAll bytes s = .ok () (accepted bytes s)) ∨
    ∃ j, j < bytes.length ∧ FirstRefusalAt s j ∧
      emitAll bytes s = .raised .ioError (takeAnswer (accepted (bytes.take j) s)) := by
  by_cases h : SinkAccepts s bytes.length
  · exact .inl ⟨h, emitAll_accepted h⟩
  · unfold SinkAccepts at h
    push Not at h
    obtain ⟨i, hi, hr⟩ := h
    have hex : ∃ n, answerAt s n = false := ⟨i, by simpa using hr⟩
    have hmin : Nat.find hex ≤ i := Nat.find_min' hex (by simpa using hr)
    refine .inr ⟨Nat.find hex, by omega, ?_⟩
    have hf : FirstRefusalAt s (Nat.find hex) :=
      ⟨fun m hm => by simpa using Nat.find_min hex hm, Nat.find_spec hex⟩
    exact ⟨hf, emitAll_refused (by omega) hf⟩

/-! ### PutBits -/

theorem setBit_getLsbD (byte : Byte) (i j : Nat) (b : Bool) (hi : i < 8) (hj : j < 8) :
    (setBit byte i b).getLsbD j = if j = i then b else byte.getLsbD j := by
  cases b
  · simp only [setBit, Bool.false_eq_true, if_false, BitVec.getLsbD_and, BitVec.getLsbD_not, BitVec.getLsbD_shiftLeft,
      BitVec.getLsbD_one]
    by_cases h : j = i
    · subst h; simp [hj]
    · simp [h, hj]
      intro _; omega
  · simp only [setBit, if_true, BitVec.getLsbD_or, BitVec.getLsbD_shiftLeft, BitVec.getLsbD_one]
    by_cases h : j = i
    · subst h; simp [hj]
    · simp [h, hj]
      intro _ _; omega

theorem wbufByte_storeBit (b : Bool) (s : State) (j : Nat) :
    wbufByte (storeBit b s) j =
      if j = s.wpos.toNat / 8 then setBit (wbufByte s (s.wpos.toNat / 8)) (s.wpos.toNat % 8) b else wbufByte s j := by
  conv_lhs => unfold wbufByte
  rw [storeBit_wbuf, readCell_writeCell]
  split
  · simp
  · rfl

theorem wbufBit_storeBit (b : Bool) (s : State) (k : Nat) :
    wbufBit (storeBit b s) k = if k = s.wpos.toNat then b else wbufBit s k := by
  unfold wbufBit
  rw [wbufByte_storeBit]
  by_cases h : k / 8 = s.wpos.toNat / 8
  · rw [if_pos h, setBit_getLsbD _ _ _ _ (Nat.mod_lt _ (by omega)) (Nat.mod_lt _ (by omega))]
    by_cases h' : k = s.wpos.toNat
    · simp [h']
    · rw [if_neg (by omega), if_neg h', h]
  · rw [if_neg h, if_neg (by rintro rfl; exact h rfl)]

theorem storeBit_onlyWriter (b : Bool) (s : State) : OnlyWriter s (storeBit b s) := rfl

theorem byteBits_length (b : Byte) : (byteBits b).length = 8 := by simp [byteBits]

theorem bytesBits_append (xs ys : List Byte) : bytesBits (xs ++ ys) = bytesBits xs ++ bytesBits ys := by
  simp [bytesBits]

theorem bytesBits_length (bytes : List Byte) : (bytesBits bytes).length = 8 * bytes.length := by
  induction bytes with
  | nil => rfl
  | cons b rest ih =>
    rw [bytesBits, List.flatMap_cons, List.length_append, byteBits_length]
    rw [bytesBits] at ih
    rw [ih, List.length_cons]; omega

theorem bytesBits_take (bytes : List Byte) (j : Nat) : bytesBits (bytes.take j) = (bytesBits bytes).take (8 * j) := by
  induction bytes generalizing j with
  | nil => simp [bytesBits]
  | cons b rest ih =>
    cases j with
    | zero => simp [bytesBits]
    | succ j =>
      have h : bytesBits (b :: rest) = byteBits b ++ bytesBits rest := by simp [bytesBits]
      have h' : bytesBits (b :: rest.take j) = byteBits b ++ bytesBits (rest.take j) := by simp [bytesBits]
      rw [List.take_succ_cons, h', h, ih, show 8 * (j + 1) = (byteBits b).length + 8 * j by rw [byteBits_length]; omega,
        List.take_length_add_append]

/-- The bits of WBUF's bytes are its stream bits. -/
theorem bytesBits_wbuf (s : State) (n : Nat) :
    bytesBits ((List.range n).map (wbufByte s)) = (List.range (8 * n)).map (wbufBit s) := by
  induction n with
  | zero => rfl
  | succ n ih =>
    rw [List.range_succ, List.map_append, bytesBits_append, ih, show 8 * (n + 1) = 8 * n + 8 by omega, List.range_add,
      List.map_append, List.map_map]
    congr 1
    simp only [bytesBits, List.map_cons, List.map_nil, List.flatMap_cons, List.flatMap_nil, List.append_nil, byteBits]
    refine List.map_congr_left fun i hi => ?_
    have hi : i < 8 := List.mem_range.1 hi
    simp only [Function.comp, wbufBit]
    rw [show (8 * n + i) / 8 = n by omega, show (8 * n + i) % 8 = i by omega]

theorem storeBit_wpos_toNat {b : Bool} {s : State} (hw : s.wpos.toNat < 32768) :
    (storeBit b s).wpos.toNat = s.wpos.toNat + 1 := by
  rw [storeBit_wpos, BitVec.toNat_add]
  simp
  omega

theorem pendingBits_storeBit {b : Bool} {s : State} (hw : s.wpos.toNat < 32768) :
    pendingBits (storeBit b s) = pendingBits s ++ [b] := by
  unfold pendingBits
  rw [storeBit_wpos_toNat hw, List.range_succ, List.map_append, List.map_singleton, wbufBit_storeBit, if_pos rfl]
  congr 1
  refine List.map_congr_left fun k hk => ?_
  rw [wbufBit_storeBit, if_neg (by have := List.mem_range.1 hk; omega)]

theorem pendingBits_length (s : State) : (pendingBits s).length = s.wpos.toNat := by simp [pendingBits]

theorem accepted_pendingBits (bytes : List Byte) (s : State) : pendingBits (accepted bytes s) = pendingBits s := rfl

theorem wbufBit_accepted (bytes : List Byte) (s : State) (k : Nat) : wbufBit (accepted bytes s) k = wbufBit s k := rfl

/-- The 4096 bytes of a full buffer hold its pending bits. -/
theorem bytesBits_fullBuffer {s : State} (hw : s.wpos.toNat = 32768) :
    bytesBits ((List.range Config.wbufBytes).map (wbufByte s)) = pendingBits s := by
  rw [bytesBits_wbuf, pendingBits, hw, Config.wbufBytes]

/-- One turn of PutBits' loop on a sink that accepts what it is offered. -/
theorem putBit_spec {b : Bool} {s : State} (hw : s.wpos.toNat < 32768) (ha : SinkAccepts s (bytesOffered s 1)) :
    ∃ t, putBit b s = .ok () t ∧ AppendsBits s t [b] ∧ OnlyWriter s t := by
  unfold putBit
  rw [storeBit_wpos_toNat hw]
  by_cases hfull : s.wpos.toNat + 1 = Config.wbufBits
  · rw [if_pos hfull]
    have hw' : s.wpos.toNat + 1 = 32768 := hfull
    obtain ⟨full, hf⟩ : ∃ full, full = (List.range Config.wbufBytes).map (wbufByte (storeBit b s)) := ⟨_, rfl⟩
    have hlen : full.length = 4096 := by simp [hf, Config.wbufBytes]
    have hbits : bytesBits full = pendingBits s ++ [b] := by
      rw [hf, bytesBits_fullBuffer (by rw [storeBit_wpos_toNat hw]; exact hw'), pendingBits_storeBit hw]
    have hacc : SinkAccepts (storeBit b s) full.length := by
      rw [hlen]
      have : bytesOffered s 1 = 4096 := by simp [bytesOffered, hw']
      rw [this] at ha
      exact ha
    rw [emitFull, ← hf, emitAll_accepted hacc, andThen_ok]
    refine ⟨_, rfl, ⟨?_, ⟨full, rfl, ?_, ?_, rfl, rfl, rfl⟩, ?_, rfl⟩, rfl⟩
    · simp [hw']
    · rw [hlen]; simp [hw']
    · rw [hbits]
      simp [pendingBits]
    · intro k hk
      have := hk 0 (by simp)
      show wbufBit (storeBit b s) k = _
      rw [wbufBit_storeBit, if_neg (by omega)]
  · rw [if_neg hfull]
    have hw' : s.wpos.toNat + 1 < 32768 := by
      have : s.wpos.toNat + 1 ≠ 32768 := hfull
      omega
    refine ⟨_, rfl, ⟨?_, ⟨[], ?_, ?_, ?_, ?_, ?_, ?_⟩, ?_, rfl⟩, rfl⟩
    · rw [storeBit_wpos_toNat hw, List.length_singleton]; omega
    · simp
    · simp; omega
    · rw [pendingBits_storeBit hw]; rfl
    · simp
    · simp
    · simp
    · intro k hk
      have := hk 0 (by simp)
      rw [wbufBit_storeBit, if_neg (by omega)]

theorem AppendsBits.wpos_lt {s t : State} {bits : List Bool} (h : AppendsBits s t bits) : t.wpos.toNat < 32768 := by
  rw [h.1]; exact Nat.mod_lt _ (by omega)

theorem AppendsBits.nil {s : State} (hw : s.wpos.toNat < 32768) : AppendsBits s s [] := by
  refine ⟨?_, ⟨[], ?_, ?_, ?_, ?_, ?_, ?_⟩, fun k _ => rfl, rfl⟩
  · simp; omega
  · simp
  · simp; omega
  · simp [bytesBits]
  · simp
  · simp
  · simp

/-- Appending one run of bits after another appends the two runs. -/
theorem AppendsBits.trans {s t u : State} {xs ys : List Bool} (h : AppendsBits s t xs) (k : AppendsBits t u ys) :
    AppendsBits s u (xs ++ ys) := by
  obtain ⟨h1, ⟨bs, h2, h3, h4, h5, h6, h7⟩, h8, h9⟩ := h
  obtain ⟨k1, ⟨cs, k2, k3, k4, k5, k6, k7⟩, k8, k9⟩ := k
  refine ⟨?_, ⟨bs ++ cs, ?_, ?_, ?_, ?_, ?_, ?_⟩, ?_, ?_⟩
  · rw [k1, h1, List.length_append]; omega
  · rw [k2, h2, List.append_assoc]
  · rw [List.length_append, h3, k3, h1, List.length_append]; omega
  · rw [bytesBits_append, List.append_assoc, k4, ← List.append_assoc, h4, List.append_assoc]
  · rw [k5, h5, List.length_append, BitVec.ofNat_add, BitVec.add_assoc]
  · rw [k6, h6, List.drop_drop, List.length_append]
  · rw [k7, h7, List.length_append, Nat.add_assoc]
  · intro j hj
    rw [k8, h8]
    · exact fun i hi => hj i (by rw [List.length_append]; omega)
    · intro i hi
      have := hj (xs.length + i) (by rw [List.length_append]; omega)
      rw [h1]; omega
  · rw [k9, h9]

theorem SinkAccepts.of_appends {s t : State} {xs : List Bool} {n : Nat} (h : AppendsBits s t xs)
    (ha : SinkAccepts s (bytesOffered s (xs.length + n))) : SinkAccepts t (bytesOffered t n) := by
  obtain ⟨h1, ⟨bs, -, h3, -, -, h6, h7⟩, -, -⟩ := h
  intro i hi
  have := ha (bs.length + i) (by
    unfold bytesOffered at hi ⊢
    rw [h1] at hi
    rw [h3]; omega)
  rw [← this]
  unfold answerAt
  rw [h6, h7, List.getElem?_drop, Nat.add_assoc]

/-- PutBits on a sink that accepts what it is offered (R107). -/
theorem putAll_spec (bits : List Bool) {s : State} (hw : s.wpos.toNat < 32768)
    (ha : SinkAccepts s (bytesOffered s bits.length)) :
    ∃ t, putAll bits s = .ok () t ∧ AppendsBits s t bits ∧ OnlyWriter s t := by
  induction bits generalizing s with
  | nil => exact ⟨s, rfl, AppendsBits.nil hw, rfl⟩
  | cons b rest ih =>
    have ha1 : SinkAccepts s (bytesOffered s 1) := ha.mono (by
      unfold bytesOffered
      rw [List.length_cons]
      exact Nat.mul_le_mul_left _ (Nat.div_le_div_right (by omega)))
    obtain ⟨t, ht, happ, honly⟩ := putBit_spec (b := b) hw ha1
    obtain ⟨u, hu, happ', honly'⟩ := ih happ.wpos_lt
      (SinkAccepts.of_appends happ (by rwa [List.length_cons, Nat.add_comm] at ha))
    refine ⟨u, ?_, happ.trans happ', honly.trans honly'⟩
    rw [putAll, ht, andThen_ok, hu]

theorem lowBits_length (v : Word) (w : Nat) : (lowBits v w).length = w := by simp [lowBits]

theorem putBits_spec (v : Word) (w : Nat) {s : State} (hw : s.wpos.toNat < 32768) (ha : SinkAccepts s (bytesOffered s w)) :
    ∃ t, putBits v w s = .ok () t ∧ AppendsBits s t (lowBits v w) ∧ OnlyWriter s t :=
  putAll_spec _ hw (by rwa [lowBits_length])

/-- What PutBits can have done to the sink, in any state: some bytes accepted, all counted unless IOError ended it. -/
def SinkGrew (s t : State) : Prop :=
  ∃ bytes, t.sink = s.sink ++ bytes ∧ t.sinkcnt = s.sinkcnt + BitVec.ofNat 64 bytes.length

theorem SinkGrew.rfl' (s : State) : SinkGrew s s := ⟨[], by simp, by simp⟩

theorem SinkGrew.trans {s t u : State} (h : SinkGrew s t) (k : SinkGrew t u) : SinkGrew s u := by
  obtain ⟨bs, h1, h2⟩ := h
  obtain ⟨cs, k1, k2⟩ := k
  exact ⟨bs ++ cs, by rw [k1, h1, List.append_assoc],
    by rw [k2, h2, List.length_append, BitVec.ofNat_add, BitVec.add_assoc]⟩

/-- Everything an operation of the writer can do: it answers or raises IOError, in a state where only the writer's fields
differ and the sink stream has grown by counted bytes. -/
def WriterOutcome (s : State) (r : Result Unit) : Prop :=
  (∃ t, r = .ok () t ∧ OnlyWriter s t ∧ SinkGrew s t) ∨
  ∃ t, r = .raised .ioError t ∧ OnlyWriter s t ∧ SinkGrew s t

theorem WriterOutcome.andThen {s : State} {r : Result Unit} {k : Unit → State → Result Unit} (h : WriterOutcome s r)
    (hk : ∀ t, WriterOutcome t (k () t)) : WriterOutcome s (r.andThen k) := by
  rcases h with ⟨t, rfl, h1, h2⟩ | ⟨t, rfl, h1, h2⟩
  · rcases hk t with ⟨u, hu, k1, k2⟩ | ⟨u, hu, k1, k2⟩
    · exact .inl ⟨u, by rw [andThen_ok, hu], h1.trans k1, h2.trans k2⟩
    · exact .inr ⟨u, by rw [andThen_ok, hu], h1.trans k1, h2.trans k2⟩
  · exact .inr ⟨t, rfl, h1, h2⟩

theorem emitAll_outcome (bytes : List Byte) (s : State) : WriterOutcome s (emitAll bytes s) := by
  rcases emitAll_cases bytes s with ⟨-, h⟩ | ⟨j, -, -, h⟩
  · exact .inl ⟨_, h, rfl, bytes, rfl, rfl⟩
  · exact .inr ⟨_, h, rfl, bytes.take j, rfl, rfl⟩

theorem emitFull_outcome (s : State) : WriterOutcome s (emitFull s) := by
  unfold emitFull
  generalize (List.range Config.wbufBytes).map (wbufByte s) = full
  exact WriterOutcome.andThen (emitAll_outcome _ _) fun u => .inl ⟨_, rfl, rfl, [], by simp, by simp⟩

theorem putBit_outcome (b : Bool) (s : State) : WriterOutcome s (putBit b s) := by
  have h0 : WriterOutcome s (.ok () (storeBit b s)) := .inl ⟨_, rfl, rfl, [], by simp, by simp⟩
  unfold putBit
  split
  · have h := WriterOutcome.andThen (k := fun _ t => emitFull t) h0 emitFull_outcome
    rwa [andThen_ok] at h
  · exact h0

theorem putAll_outcome (bits : List Bool) (s : State) : WriterOutcome s (putAll bits s) := by
  induction bits generalizing s with
  | nil => exact .inl ⟨s, rfl, rfl, SinkGrew.rfl' s⟩
  | cons b rest ih => exact WriterOutcome.andThen (putBit_outcome b s) fun t => ih t

theorem flushBuf_outcome (s : State) : WriterOutcome s (flushBuf s) :=
  WriterOutcome.andThen (emitAll_outcome _ _) fun u => .inl ⟨_, rfl, rfl, [], by simp, by simp⟩

/-! ### FlushBuf -/

theorem keepLow_getLsbD (byte : Byte) (n i : Nat) (hi : i < 8) :
    (keepLow byte n).getLsbD i = (decide (i < n) && byte.getLsbD i) := by
  unfold keepLow
  rw [BitVec.getLsbD_and, BitVec.getLsbD_ofNat, Nat.testBit_two_pow_sub_one]
  cases byte.getLsbD i <;> simp [hi]

theorem flushBytes_length (s : State) : (flushBytes s).length = (s.wpos.toNat + 7) / 8 := by
  simp [flushBytes, flushLength]

/-- Bit i of byte j of what FlushBuf emits: a pending bit below WPOS, zero from there on (R108). -/
theorem flushByte_getLsbD {s : State} {j i : Nat} (hj : j < flushLength s) (hi : i < 8) :
    (flushByte s (flushLength s) j).getLsbD i = (decide (8 * j + i < s.wpos.toNat) && wbufBit s (8 * j + i)) := by
  have hbit : wbufBit s (8 * j + i) = (wbufByte s j).getLsbD i := by
    unfold wbufBit
    rw [show (8 * j + i) / 8 = j by omega, show (8 * j + i) % 8 = i by omega]
  unfold flushByte
  unfold flushLength at hj ⊢
  split
  · next h =>
    rw [keepLow_getLsbD _ _ _ hi, hbit]
    congr 1
    exact decide_eq_decide.2 (by omega)
  · next h =>
    rw [hbit]
    have : 8 * j + i < s.wpos.toNat := by
      by_cases h1 : j + 1 = (s.wpos.toNat + 7) / 8
      · have : s.wpos.toNat % 8 = 0 := by
          by_contra h2
          exact h ⟨h1, h2⟩
        omega
      · omega
    simp [this]

theorem byteBits_getElem (b : Byte) (i : Nat) (h : i < (byteBits b).length) : (byteBits b)[i] = b.getLsbD i := by
  simp [byteBits]

/-- The bits FlushBuf emits: the pending bits, then zeros to the byte boundary (R108). -/
theorem bytesBits_flushBytes (s : State) :
    bytesBits (flushBytes s) =
      pendingBits s ++ List.replicate (8 * ((s.wpos.toNat + 7) / 8) - s.wpos.toNat) false := by
  have key : ∀ n, n ≤ flushLength s →
      bytesBits ((List.range n).map (flushByte s (flushLength s))) =
        (List.range (8 * n)).map (fun k => decide (k < s.wpos.toNat) && wbufBit s k) := by
    intro n
    induction n with
    | zero => intro _; rfl
    | succ n ih =>
      intro hn
      rw [List.range_succ, List.map_append, bytesBits_append, ih (by omega), show 8 * (n + 1) = 8 * n + 8 by omega,
        List.range_add, List.map_append, List.map_map]
      congr 1
      simp only [bytesBits, List.map_cons, List.map_nil, List.flatMap_cons, List.flatMap_nil, List.append_nil, byteBits]
      refine List.map_congr_left fun i hi => ?_
      exact flushByte_getLsbD (by omega) (List.mem_range.1 hi)
  rw [flushBytes, key _ le_rfl, flushLength]
  have hle : s.wpos.toNat ≤ 8 * ((s.wpos.toNat + 7) / 8) := by omega
  obtain ⟨m, hm⟩ := Nat.exists_eq_add_of_le hle
  rw [hm, Nat.add_sub_cancel_left, List.range_add, List.map_append, List.map_map]
  unfold pendingBits
  congr 1
  · refine List.map_congr_left fun k hk => ?_
    simp [List.mem_range.1 hk]
  · refine List.ext_getElem (by simp) fun i h1 h2 => ?_
    simp

/-- FlushBuf on a sink that accepts what it is offered (R108). -/
theorem flushBuf_spec {s : State} (ha : SinkAccepts s ((s.wpos.toNat + 7) / 8)) :
    ∃ t, flushBuf s = .ok () t ∧ FlushesBits s t ∧ OnlyWriter s t ∧ t.wclosed = s.wclosed := by
  rw [flushBuf, emitAll_accepted (by rwa [flushBytes_length]), andThen_ok]
  refine ⟨_, rfl, ⟨rfl, fun k => rfl, flushBytes s, rfl, flushBytes_length s, bytesBits_flushBytes s, rfl, rfl, rfl⟩, rfl, rfl⟩

/-- FlushBuf on a sink that refuses byte j: exactly the first j bytes were accepted, and IOError. -/
theorem flushBuf_refused {s : State} {j : Nat} (hj : j < (s.wpos.toNat + 7) / 8) (h : FirstRefusalAt s j) :
    flushBuf s = .raised .ioError (takeAnswer (accepted ((flushBytes s).take j) s)) := by
  rw [flushBuf, emitAll_refused (by rwa [flushBytes_length]) h]
  rfl

/-! ### GetBits -/

/-- Only RPOS differs. -/
def OnlyRpos (s t : State) : Prop := t = { s with rpos := t.rpos }

theorem natOfBits_testBit (bits : List Bool) (i : Nat) : (natOfBits bits).testBit i = bits.getD i false := by
  induction bits generalizing i with
  | nil => simp [natOfBits]
  | cons b rest ih =>
    rw [natOfBits]
    cases i with
    | zero => cases b <;> simp [Nat.testBit_zero]
    | succ i =>
      rw [Nat.testBit_succ, show (b.toNat + 2 * natOfBits rest) / 2 = natOfBits rest by cases b <;> (simp; try omega), ih]
      simp

/-- The bits taken from SRC, where every byte they lie in was written. -/
theorem srcBits_written {s : State} {pos w : Nat} (h : SrcWritten s pos (pos + w)) :
    srcBits s pos w = .ok ((List.range w).map (fun i => (srcBit? s (pos + i)).getD false)) := by
  induction w generalizing pos with
  | zero => rfl
  | succ w ih =>
    obtain ⟨b, hb⟩ := Option.ne_none_iff_exists'.1 (h pos le_rfl (by omega))
    have ih' := ih (pos := pos + 1) (fun k h1 h2 => h k (by omega) (by omega))
    simp only [srcBits, hb, ih']
    rw [List.range_succ_eq_map, List.map_cons, List.map_map]
    simp only [Nat.add_zero, hb, Option.getD_some]
    congr 2
    refine List.map_congr_left fun i _ => ?_
    simp only [Function.comp]
    rw [show pos + 1 + i = pos + i.succ by omega]

theorem srcBits_error {s : State} {pos w offset : Nat} (h : srcBits s pos w = .error offset) :
    ∃ k, pos ≤ k ∧ k < pos + w ∧ offset = k / 8 ∧ srcBit? s k = none := by
  induction w generalizing pos with
  | zero => cases h
  | succ w ih =>
    unfold srcBits at h
    split at h
    · next hb => exact ⟨pos, le_rfl, by omega, by simpa using h.symm, hb⟩
    · split at h
      · next o hb =>
        obtain rfl : o = offset := by simpa using h
        obtain ⟨k, h1, h2, h3, h4⟩ := ih hb
        exact ⟨k, by omega, by omega, h3, h4⟩
      · cases h

/-- GetBits where w bits remain and were written (R117). -/
theorem getBits_spec {s : State} {w : Nat} (h : Readable s w) :
    ∃ v t, getBits w s = .ok v t ∧ (w ≤ 32 → FieldAt s s.rpos.toNat w v) ∧ OnlyRpos s t ∧
      t.rpos.toNat = s.rpos.toNat + w := by
  rw [getBits, if_neg (by have := h.1; omega), srcBits_written h.2]
  refine ⟨_, _, rfl, ?_, rfl, ?_⟩
  · intro hw i
    rw [BitVec.getLsbD_ofNat, natOfBits_testBit]
    by_cases hi : i < w
    · simp [hi, show i < 32 by omega]
    · simp [hi]
  · have h1 : s.rpos.toNat + w ≤ 8 * s.srcLen.toNat := h.1
    have h2 : s.srcLen.toNat < 2 ^ 32 := s.srcLen.isLt
    rw [BitVec.toNat_add, BitVec.toNat_ofNat]
    norm_num at h2 ⊢
    omega

theorem getBits_short {s : State} {w : Nat} (h : 8 * s.srcLen.toNat < s.rpos.toNat + w) :
    getBits w s = .raised .formatError s := by
  rw [getBits, if_pos h]

/-- Everything GetBits can do: FormatError with nothing taken; a stop at an unwritten byte; or the bits, where only RPOS
moves. -/
theorem getBits_cases (w : Nat) (s : State) :
    (8 * s.srcLen.toNat < s.rpos.toNat + w ∧ getBits w s = .raised .formatError s) ∨
    (∃ k, s.rpos.toNat ≤ k ∧ k < s.rpos.toNat + w ∧ s.rpos.toNat + w ≤ 8 * s.srcLen.toNat ∧ srcBit? s k = none ∧
      getBits w s = .fault (.srcUnwritten (k / 8))) ∨
    ∃ v t, getBits w s = .ok v t ∧ OnlyRpos s t ∧ s.rpos.toNat + w ≤ 8 * s.srcLen.toNat ∧
      t.rpos.toNat = s.rpos.toNat + w := by
  by_cases h : 8 * s.srcLen.toNat < s.rpos.toNat + w
  · exact .inl ⟨h, getBits_short h⟩
  · have hle : s.rpos.toNat + w ≤ 8 * s.srcLen.toNat := by omega
    cases hb : srcBits s s.rpos.toNat w with
    | error offset =>
      obtain ⟨k, h1, h2, rfl, h4⟩ := srcBits_error hb
      exact .inr (.inl ⟨k, h1, h2, hle, h4, by rw [getBits, if_neg (by omega), hb]⟩)
    | ok bits =>
      refine .inr (.inr ⟨BitVec.ofNat 32 (natOfBits bits), { s with rpos := s.rpos + BitVec.ofNat 35 w },
        by rw [getBits, if_neg (by omega), hb], rfl, hle, ?_⟩)
      have h2 : s.srcLen.toNat < 2 ^ 32 := s.srcLen.isLt
      rw [BitVec.toNat_add, BitVec.toNat_ofNat]
      norm_num at h2 ⊢
      omega

end Sys2Proof.Machine
end

