-- ==== Sys2Proof/Laws/PerInstr.lean ====
section
/-! SUPPORT. The family EncodedSelector: the encoder writes an opcode of R83 and RSV = 0 (R79, check 3 of R84). -/

namespace Sys2Proof.Laws.EncodedSelector

/-- The word of i has an assigned opcode and zero reserved bits. -/
def Statement (i : Instr) : Prop := opField (encode i) ∈ Sys2Proof.Machine.assignedOpcodes ∧ rsvField (encode i) = 0

theorem of_commandWord {op : BitVec 8} {width : BitVec 6} {a b c : Word}
    (h : Sys2Proof.Machine.assignedOpcodes.contains op = true) :
    opField (commandWord op width a b c) ∈ Sys2Proof.Machine.assignedOpcodes ∧ rsvField (commandWord op width a b c) = 0 :=
  ⟨by simpa [opField_commandWord] using h, rsvField_commandWord op width a b c⟩

theorem nop : Statement (.nop) :=
  of_commandWord rfl

theorem reset : Statement (.reset) :=
  of_commandWord rfl

theorem regRead (number : Word) : Statement (.regRead number) :=
  of_commandWord rfl

theorem writeBits (width : BitVec 6) (value : Word) : Statement (.writeBits width value) :=
  of_commandWord rfl

theorem writeHeader (rows : Word) (cols : Word) (numColors : Word) : Statement (.writeHeader rows cols numColors) :=
  of_commandWord rfl

theorem flush : Statement (.flush) :=
  of_commandWord rfl

theorem close : Statement (.close) :=
  of_commandWord rfl

theorem srcWrite (offset : Word) (byte : Byte) : Statement (.srcWrite offset byte) :=
  of_commandWord rfl

theorem readerOpen (length : Word) : Statement (.readerOpen length) :=
  of_commandWord rfl

theorem readBits (width : BitVec 6) : Statement (.readBits width) :=
  of_commandWord rfl

theorem readHeader : Statement (.readHeader) :=
  of_commandWord rfl

theorem quantize (pixel : Pixel) : Statement (.quantize pixel) :=
  of_commandWord rfl

theorem dequantize (key : Key) : Statement (.dequantize key) :=
  of_commandWord rfl

theorem rankClear : Statement (.rankClear) :=
  of_commandWord rfl

theorem rankCount (pixel : Pixel) : Statement (.rankCount pixel) :=
  of_commandWord rfl

theorem rankSort : Statement (.rankSort) :=
  of_commandWord rfl

theorem rankLookup (key : Key) : Statement (.rankLookup key) :=
  of_commandWord rfl

theorem palRead (rank : Word) : Statement (.palRead rank) :=
  of_commandWord rfl

theorem encHeader (rows : Word) (cols : Word) : Statement (.encHeader rows cols) :=
  of_commandWord rfl

theorem encPalette : Statement (.encPalette) :=
  of_commandWord rfl

theorem encPixel (pixel : Pixel) : Statement (.encPixel pixel) :=
  of_commandWord rfl

theorem encFinish : Statement (.encFinish) :=
  of_commandWord rfl

theorem rankWidth (n : Word) : Statement (.rankWidth n) :=
  of_commandWord rfl

theorem decHeader : Statement (.decHeader) :=
  of_commandWord rfl

theorem decPalette : Statement (.decPalette) :=
  of_commandWord rfl

theorem decPixel : Statement (.decPixel) :=
  of_commandWord rfl

end Sys2Proof.Laws.EncodedSelector
end

