-- ==== Sys2Proof/Laws/Ranker.lean ====
section
/-! SUPPORT. The key of a pixel, the order of RANK_SORT and what it stores, and the count of one occurrence. -/

namespace Sys2Proof.Machine

/-! ### Quant -/

/-- The key of R19 and R123, as a number. -/
theorem quant_toNat (p : Pixel) : (quant p).toNat = p.r.toNat / 4 * 4096 + p.g.toNat / 4 * 64 + p.b.toNat / 4 := by
  have hr : p.r.toNat / 4 < 64 := by have := p.r.isLt; omega
  have hg : p.g.toNat / 4 < 64 := by have := p.g.isLt; omega
  have hb : p.b.toNat / 4 < 64 := by have := p.b.isLt; omega
  unfold quant
  simp only [BitVec.toNat_or, BitVec.toNat_shiftLeft, BitVec.toNat_setWidth, BitVec.toNat_udiv, Nat.shiftLeft_eq,
    show BitVec.toNat (4 : Byte) = 4 from rfl]
  rw [Nat.mod_eq_of_lt (show p.r.toNat / 4 < 2 ^ 18 by omega), Nat.mod_eq_of_lt (show p.g.toNat / 4 < 2 ^ 18 by omega),
    Nat.mod_eq_of_lt (show p.b.toNat / 4 < 2 ^ 18 by omega), Nat.mod_eq_of_lt (show p.r.toNat / 4 * 2 ^ 12 < 2 ^ 18 by omega),
    Nat.mod_eq_of_lt (show p.g.toNat / 4 * 2 ^ 6 < 2 ^ 18 by omega), Nat.mul_comm (p.r.toNat / 4), Nat.lor_assoc,
    Nat.mul_comm (p.g.toNat / 4), ← Nat.two_pow_add_eq_or_of_lt (show p.b.toNat / 4 < 2 ^ 6 by omega),
    ← Nat.two_pow_add_eq_or_of_lt (show 2 ^ 6 * (p.g.toNat / 4) + p.b.toNat / 4 < 2 ^ 12 by omega)]
  omega

theorem isKeyOf_iff {k : Key} {p : Pixel} : IsKeyOf k p ↔ k = quant p := by
  unfold IsKeyOf
  rw [← quant_toNat]
  exact ⟨fun h => BitVec.eq_of_toNat_eq h, fun h => by rw [h]⟩

/-! ### The order of RANK_SORT -/

theorem before_iff (s : State) (a b : Key) :
    before s a b = true ↔
      (cntEntry s b).toNat < (cntEntry s a).toNat ∨ cntEntry s a = cntEntry s b ∧ tieRank s a < tieRank s b := by
  simp [before]

theorem not_before_iff (s : State) (a b : Key) :
    before s b a = false ↔
      (cntEntry s b).toNat < (cntEntry s a).toNat ∨ (cntEntry s b).toNat = (cntEntry s a).toNat ∧ tieRank s a ≤ tieRank s b := by
  rw [← Bool.not_eq_true, before_iff, ← BitVec.toNat_inj]
  omega

theorem not_before_total (s : State) (a b : Key) : before s b a = false ∨ before s a b = false := by
  rw [not_before_iff, not_before_iff]; omega

theorem not_before_trans (s : State) (a b c : Key) (h : before s b a = false) (k : before s c b = false) :
    before s c a = false := by
  rw [not_before_iff] at *; omega

theorem rankedKeys_perm (s : State) : (rankedKeys s).Perm (seenKeys s) := List.perm_insertionSort _ _

theorem rankedKeys_sorted (s : State) : (rankedKeys s).Pairwise (fun a b => before s b a = false) := by
  have : Std.Total (fun a b => before s b a = false) := ⟨not_before_total s⟩
  have : IsTrans Key (fun a b => before s b a = false) := ⟨not_before_trans s⟩
  exact List.pairwise_insertionSort _ _

theorem rankedKeys_length (s : State) : (rankedKeys s).length = s.ndist.toNat := by
  rw [(rankedKeys_perm s).length_eq, seenKeys]
  simp

theorem mem_rankedKeys (s : State) (k : Key) : k ∈ rankedKeys s ↔ k ∈ seenKeys s := (rankedKeys_perm s).mem_iff

/-! ### storeRanking -/

/-- Only PAL and RANKOF differ. -/
def OnlyRanking (s t : State) : Prop := t = { s with pal := t.pal, rankof := t.rankof }

theorem storeRanking_only (keys : List Key) (i : Nat) (s : State) : OnlyRanking s (storeRanking keys i s) := by
  induction keys generalizing i s with
  | nil => rfl
  | cons k rest ih =>
    unfold OnlyRanking at *
    rw [storeRanking, ih]

/-- PAL after RANK_SORT's loop: the keys from index i on, and every other entry as it was. -/
theorem storeRanking_pal (keys : List Key) (i : Nat) (s : State) (j : Nat) :
    readCell tableUnlisted (storeRanking keys i s).pal j =
      if i ≤ j then (keys[j - i]?).or (readCell tableUnlisted s.pal j) else readCell tableUnlisted s.pal j := by
  induction keys generalizing i s with
  | nil => simp [storeRanking]
  | cons k rest ih =>
    rw [storeRanking, ih]
    simp only [readCell_writeCell]
    by_cases h1 : j = i
    · subst h1; simp
    · by_cases h2 : i ≤ j
      · rw [if_pos (by omega), if_pos h2, if_neg h1, show j - i = (j - (i + 1)) + 1 by omega, List.getElem?_cons_succ]
      · rw [if_neg (by omega), if_neg h2, if_neg h1]

theorem key_toNat_inj {a b : Key} : a.toNat = b.toNat ↔ a = b := BitVec.toNat_inj

/-- RANKOF of a key that is not ranked is as it was. -/
theorem storeRanking_rankof_of_not_mem (keys : List Key) (i : Nat) (s : State) {k : Key} (h : k ∉ keys) :
    readCell tableUnlisted (storeRanking keys i s).rankof k.toNat = readCell tableUnlisted s.rankof k.toNat := by
  induction keys generalizing i s with
  | nil => rfl
  | cons k' rest ih =>
    rw [storeRanking, ih _ _ (fun hm => h (List.mem_cons_of_mem _ hm))]
    exact readCell_writeCell_ne _ _ _ (fun he => h (by rw [key_toNat_inj.1 he]; simp))

/-- RANKOF of a ranked key does not depend on what stood there. -/
theorem storeRanking_rankof_of_mem (keys : List Key) (i : Nat) (s t : State) {k : Key} (h : k ∈ keys) :
    readCell tableUnlisted (storeRanking keys i s).rankof k.toNat =
      readCell tableUnlisted (storeRanking keys i t).rankof k.toNat := by
  induction keys generalizing i s t with
  | nil => simp at h
  | cons k' rest ih =>
    rw [storeRanking, storeRanking]
    by_cases hm : k ∈ rest
    · exact ih _ _ _ hm
    · rw [storeRanking_rankof_of_not_mem _ _ _ hm, storeRanking_rankof_of_not_mem _ _ _ hm]
      have : k = k' := by simpa [hm] using h
      subst this
      rw [readCell_writeCell_self, readCell_writeCell_self]

/-- RANKOF after RANK_SORT's loop over keys without repetition: each key's own index. -/
theorem storeRanking_rankof (keys : List Key) (i : Nat) (s : State) (hn : keys.Nodup) {m : Nat} (hm : m < keys.length) :
    readCell tableUnlisted (storeRanking keys i s).rankof (keys[m]).toNat = some (BitVec.ofNat 18 (i + m)) := by
  induction keys generalizing i s m with
  | nil => simp at hm
  | cons k rest ih =>
    rw [List.nodup_cons] at hn
    rw [storeRanking]
    cases m with
    | zero =>
      rw [List.getElem_cons_zero, storeRanking_rankof_of_not_mem _ _ _ hn.1]
      exact readCell_writeCell_self _ _ _ _
    | succ m =>
      rw [List.getElem_cons_succ, ih _ _ hn.2, show i + 1 + m = i + (m + 1) by omega]

/-- Storing a ranking keeps both tables' form, and their range where the ranks are in range. -/
theorem storeRanking_wf (keys : List Key) (i : Nat) (s : State) (hp : CellsWf tableUnlisted s.pal)
    (hr : CellsWf tableUnlisted s.rankof) :
    CellsWf tableUnlisted (storeRanking keys i s).pal ∧ CellsWf tableUnlisted (storeRanking keys i s).rankof := by
  induction keys generalizing i s with
  | nil => exact ⟨hp, hr⟩
  | cons k rest ih => exact ih _ _ (writeCell_wf _ _ hp) (writeCell_wf _ _ hr)

theorem storeRanking_below (keys : List Key) (i : Nat) (s : State) (hi : i + keys.length ≤ 262144)
    (hp : CellsBelow 262144 s.pal) (hr : CellsBelow 262144 s.rankof) :
    CellsBelow 262144 (storeRanking keys i s).pal ∧ CellsBelow 262144 (storeRanking keys i s).rankof := by
  induction keys generalizing i s with
  | nil => exact ⟨hp, hr⟩
  | cons k rest ih =>
    rw [List.length_cons] at hi
    have hk : k.toNat < 262144 := k.isLt
    have hi' : i < 262144 := by omega
    have h1 : CellsBelow 262144 (writeCell tableUnlisted s.pal i k) := writeCell_below k hi' hp
    have h2 : CellsBelow 262144 (writeCell tableUnlisted s.rankof k.toNat (BitVec.ofNat 18 i)) :=
      writeCell_below (α := Key) _ hk hr
    exact ih _ _ (by omega) h1 h2

/-! ### countKey (R129) -/

theorem cntEntry_countKey (k : Key) (s : State) (j : Key) :
    cntEntry (countKey k s) j = if j = k then cntEntry s k + 1 else cntEntry s j := by
  conv_lhs => unfold cntEntry
  rw [countKey_cnt, readCell_writeCell]
  by_cases h : j = k
  · simp [h]
  · rw [if_neg (fun he => h (key_toNat_inj.1 he)), if_neg h]
    rfl

theorem seenEntry_countKey (k : Key) (s : State) (i : Nat) :
    seenEntry (countKey k s) i = if cntEntry s k = 0 ∧ i = s.ndist.toNat then k else seenEntry s i := by
  conv_lhs => unfold seenEntry
  rw [countKey_seen, countKey_freeDraws]
  by_cases h : cntEntry s k = 0
  · rw [if_pos h, readCell_writeCell]
    by_cases hi : i = s.ndist.toNat
    · simp [h, hi]
    · rw [if_neg hi, if_neg (fun hh => hi hh.2)]
      rfl
  · rw [if_neg h, if_neg (fun hh => h hh.1)]
    rfl

/-! ### What R54 says of counts and ranks -/

theorem cntEntry_le_total {s : State} (h : CountsConsistent s) (k : Key) : (cntEntry s k).toNat ≤ s.total.toNat := by
  by_cases hk : cntEntry s k = 0
  · rw [hk]; simp
  · rw [h.2.2]
    apply List.single_le_sum
    · simp
    · exact List.mem_map.2 ⟨k, (h.2.1 k).2 hk, rfl⟩

theorem ndist_le_total {s : State} (h : CountsConsistent s) : s.ndist.toNat ≤ s.total.toNat := by
  rw [h.2.2]
  have h1 : s.ndist.toNat = (seenKeys s).length := by simp [seenKeys]
  rw [h1]
  have : ∀ l : List Key, (∀ k ∈ l, cntEntry s k ≠ 0) → l.length ≤ (l.map (fun k => (cntEntry s k).toNat)).sum := by
    intro l hl
    induction l with
    | nil => simp
    | cons a l ih =>
      have h2 := ih (fun k hk => hl k (by simp [hk]))
      have h3 : (cntEntry s a).toNat ≠ 0 := by
        intro h; exact hl a (by simp) (BitVec.eq_of_toNat_eq (by simpa using h))
      rw [List.map_cons, List.sum_cons, List.length_cons]
      omega
  exact this _ (fun k hk => (h.2.1 k).1 hk)

theorem le_two_pow_rankCodeWidth (n : Nat) : n ≤ 2 ^ rankCodeWidth n := by
  unfold rankCodeWidth bitlen
  split
  · simp; omega
  · rw [if_neg (by omega)]
    have := @Nat.lt_log2_self (n - 1)
    omega

/-- While a ranking is current every counted key has a rank below NDIST, and PAL holds the key there. -/
theorem CountsConsistent.rank {s : State} (hc : CountsConsistent s) (hrank : RankingConsistent s) {k : Key} (hk : cntEntry s k ≠ 0) :
    (rankEntry s k).toNat < s.ndist.toNat ∧ palEntry s (rankEntry s k).toNat = k := by
  obtain ⟨h1, h2, -, h4⟩ := hrank
  have hm : k ∈ paletteKeys s := h2.mem_iff.2 ((hc.2.1 k).2 hk)
  obtain ⟨i, hi, rfl⟩ := List.mem_map.1 hm
  have hi := List.mem_range.1 hi
  rw [h4 i hi, ← h1]
  exact ⟨hi, rfl⟩

end Sys2Proof.Machine
end

