-- ==== Sys2Proof/Laws/Reader.lean ====
section
/-! SUPPORT. The runs of GetBits that READ_HEADER, DEC_HEADER and DEC_PALETTE make. -/

namespace Sys2Proof.Machine

theorem FieldAt.unique {s : State} {pos w : Nat} {v v' : Word} (h : FieldAt s pos w v) (h' : FieldAt s pos w v') : v = v' := by
  apply BitVec.eq_of_getLsbD_eq
  intro i _
  rw [h i, h' i]

theorem OnlyRpos.trans {s t u : State} (h : OnlyRpos s t) (k : OnlyRpos t u) : OnlyRpos s u := by
  unfold OnlyRpos at *
  rw [k, h]

theorem OnlyRpos.srcByte? {s t : State} (h : OnlyRpos s t) (j : Nat) : srcByte? t j = srcByte? s j := by rw [h]; rfl

theorem OnlyRpos.srcBit? {s t : State} (h : OnlyRpos s t) (k : Nat) : srcBit? t k = srcBit? s k := by rw [h]; rfl

theorem OnlyRpos.fieldAt {s t : State} (h : OnlyRpos s t) {pos w : Nat} {v : Word} : FieldAt t pos w v ↔ FieldAt s pos w v := by
  unfold FieldAt
  simp only [h.srcBit?]

theorem OnlyRpos.srcLen {s t : State} (h : OnlyRpos s t) : t.srcLen = s.srcLen := by rw [h]

theorem SrcWritten.mono {s : State} {lo hi lo' hi' : Nat} (h : SrcWritten s lo hi) (hl : lo ≤ lo') (hh : hi' ≤ hi) :
    SrcWritten s lo' hi' := fun k h1 h2 => h k (by omega) (by omega)

theorem OnlyRpos.srcWritten {s t : State} (h : OnlyRpos s t) {lo hi : Nat} : SrcWritten t lo hi ↔ SrcWritten s lo hi := by
  unfold SrcWritten
  simp only [h.srcBit?]

/-- GetBits of a field whose value is known (R117). -/
theorem getBits_field {s : State} {w : Nat} {v : Word} (hw : w ≤ 32) (h : Readable s w) (hv : FieldAt s s.rpos.toNat w v) :
    ∃ t, getBits w s = .ok v t ∧ OnlyRpos s t ∧ t.rpos.toNat = s.rpos.toNat + w := by
  obtain ⟨v', t, h1, h2, h3, h4⟩ := getBits_spec h
  exact ⟨t, by rw [h1, (h2 hw).unique hv], h3, h4⟩

/-- What is readable behind a field that was read. -/
theorem Readable.after {s t : State} {w n : Nat} (h : Readable s (w + n)) (ht : OnlyRpos s t)
    (hr : t.rpos.toNat = s.rpos.toNat + w) : Readable t n := by
  refine ⟨?_, ?_⟩
  · have := h.1
    rw [hr, ht.srcLen]; omega
  · rw [ht.srcWritten, hr]
    exact h.2.mono (by omega) (by omega)

theorem Readable.mono {s : State} {m n : Nat} (h : Readable s n) (hmn : m ≤ n) : Readable s m :=
  ⟨by have := h.1; omega, h.2.mono le_rfl (by omega)⟩

/-- A header with the right magic at the cursor (R119, R145). -/
theorem getHeader_spec {s : State} {r c n : Word} (h : Readable s 128) (hm : FieldAt s s.rpos.toNat 32 Config.magic)
    (hr : FieldAt s (s.rpos.toNat + 32) 32 r) (hc : FieldAt s (s.rpos.toNat + 64) 32 c)
    (hn : FieldAt s (s.rpos.toNat + 96) 32 n) :
    ∃ t, getHeader s = .ok (r, c, n) t ∧ OnlyRpos s t ∧ t.rpos.toNat = s.rpos.toNat + 128 := by
  obtain ⟨t1, e1, o1, p1⟩ := getBits_field (by omega) (h.mono (by omega : 32 ≤ 128)) hm
  have h1 : Readable t1 96 := Readable.after (w := 32) h o1 p1
  obtain ⟨t2, e2, o2, p2⟩ := getBits_field (v := r) (by omega) (h1.mono (by omega : 32 ≤ 96))
    (by rw [o1.fieldAt, p1]; exact hr)
  have h2 : Readable t2 64 := Readable.after (w := 32) h1 o2 p2
  obtain ⟨t3, e3, o3, p3⟩ := getBits_field (v := c) (by omega) (h2.mono (by omega : 32 ≤ 64))
    (by rw [o2.fieldAt, o1.fieldAt, p2, p1]; exact hc)
  have h3 : Readable t3 32 := Readable.after (w := 32) h2 o3 p3
  obtain ⟨t4, e4, o4, p4⟩ := getBits_field (v := n) (by omega) h3
    (by rw [o3.fieldAt, o2.fieldAt, o1.fieldAt, p3, p2, p1]; exact hn)
  refine ⟨t4, ?_, ((o1.trans o2).trans o3).trans o4, by omega⟩
  simp [getHeader, e1, e2, e3, e4]

/-- A stop of the model: a bit within the source's length, at or behind the cursor, whose byte was not written. -/
def StopsAtUnwritten (s : State) (f : Fault) : Prop :=
  ∃ k, f = .srcUnwritten (k / 8) ∧ s.rpos.toNat ≤ k ∧ k < 8 * s.srcLen.toNat ∧ srcBit? s k = none

/-- Everything an operation of the reader can do: FormatError or an answer with only RPOS moved forward inside the source, or
the model's stop. -/
def ReaderOutcome {α : Type} (s : State) (r : Result α) : Prop :=
  (∃ v t, r = .ok v t ∧ OnlyRpos s t ∧ s.rpos.toNat ≤ t.rpos.toNat ∧
    (s.rpos.toNat ≤ 8 * s.srcLen.toNat → t.rpos.toNat ≤ 8 * s.srcLen.toNat)) ∨
  (∃ t, r = .raised .formatError t ∧ OnlyRpos s t) ∨
  ∃ f, r = .fault f ∧ StopsAtUnwritten s f

theorem getBits_outcome (w : Nat) (s : State) : ReaderOutcome s (getBits w s) := by
  rcases getBits_cases w s with ⟨-, h⟩ | ⟨k, h1, h2, h3, h4, h⟩ | ⟨v, t, h, ho, h1, h2⟩
  · exact .inr (.inl ⟨s, h, rfl⟩)
  · exact .inr (.inr ⟨_, h, k, rfl, h1, by omega, h4⟩)
  · exact .inl ⟨v, t, h, ho, by omega, fun _ => by omega⟩

theorem ReaderOutcome.andThen {α β : Type} {s : State} {r : Result α} {k : α → State → Result β} (h : ReaderOutcome s r)
    (hk : ∀ v t, ReaderOutcome t (k v t)) : ReaderOutcome s (r.andThen k) := by
  rcases h with ⟨v, t, rfl, ho, h1, h2⟩ | ⟨t, rfl, ho⟩ | ⟨f, rfl, hf⟩
  · rcases hk v t with ⟨v', u, hu, ko, k1, k2⟩ | ⟨u, hu, ko⟩ | ⟨f, hf, j, rfl, k1, k2, k3⟩
    · exact .inl ⟨v', u, by rw [andThen_ok, hu], ho.trans ko, by omega, fun hs => by
        rw [ho.srcLen] at k2; exact k2 (h2 hs)⟩
    · exact .inr (.inl ⟨u, by rw [andThen_ok, hu], ho.trans ko⟩)
    · refine .inr (.inr ⟨_, by rw [andThen_ok, hf], j, rfl, by omega, ?_, ?_⟩)
      · rwa [ho.srcLen] at k2
      · rwa [ho.srcBit?] at k3
  · exact .inr (.inl ⟨t, rfl, ho⟩)
  · exact .inr (.inr ⟨f, rfl, hf⟩)

theorem getHeader_outcome (s : State) : ReaderOutcome s (getHeader s) := by
  unfold getHeader
  refine ReaderOutcome.andThen (getBits_outcome 32 s) fun m t => ?_
  split
  · refine ReaderOutcome.andThen (getBits_outcome 32 t) fun r t => ?_
    refine ReaderOutcome.andThen (getBits_outcome 32 t) fun c t => ?_
    refine ReaderOutcome.andThen (getBits_outcome 32 t) fun n t => ?_
    exact .inl ⟨_, t, rfl, rfl, le_rfl, fun h => h⟩
  · exact .inr (.inl ⟨t, rfl, rfl⟩)

/-- Only RPOS and PAL differ. -/
def OnlyPalette (s t : State) : Prop := t = { s with rpos := t.rpos, pal := t.pal }

theorem OnlyPalette.srcBit? {s t : State} (h : OnlyPalette s t) (k : Nat) : srcBit? t k = srcBit? s k := by rw [h]; rfl

theorem OnlyPalette.srcLen {s t : State} (h : OnlyPalette s t) : t.srcLen = s.srcLen := by rw [h]

theorem OnlyPalette.trans {s t u : State} (h : OnlyPalette s t) (k : OnlyPalette t u) : OnlyPalette s u := by
  unfold OnlyPalette at *
  rw [k, h]

theorem palEntry_congr {s t : State} {j : Nat} (h : readCell tableUnlisted t.pal j = readCell tableUnlisted s.pal j)
    (hf : t.freeDraws = s.freeDraws) : palEntry t j = palEntry s j := by
  unfold palEntry
  rw [h, hf]

/-- The palette's entries, where all of them can be read (R146). -/
theorem getPalette_spec {n i : Nat} {s : State} (h : Readable s (18 * n)) :
    ∃ t, getPalette n i s = .ok () t ∧ OnlyPalette s t ∧ t.rpos.toNat = s.rpos.toNat + 18 * n ∧
      (∀ m, m < n → FieldAt s (s.rpos.toNat + 18 * m) 18 ((palEntry t (i + m)).setWidth 32) ∧
        cellAt? t.pal (i + m) ≠ none) ∧
      ∀ j, j < i ∨ i + n ≤ j → readCell tableUnlisted t.pal j = readCell tableUnlisted s.pal j := by
  induction n generalizing i s with
  | zero => exact ⟨s, rfl, rfl, by simp, fun m hm => by omega, fun j _ => rfl⟩
  | succ n ih =>
    obtain ⟨v, t, e, hv, ho, hp⟩ := getBits_spec (h.mono (by omega : 18 ≤ 18 * (n + 1)))
    have hv := hv (by omega)
    obtain ⟨u, hu⟩ : ∃ u : State, u = { t with pal := writeCell tableUnlisted t.pal i (v.setWidth 18) } := ⟨_, rfl⟩
    have hou : OnlyPalette s u := by
      unfold OnlyPalette
      rw [hu, ho]
    have hru : Readable u (18 * n) := by
      have h1 : Readable t (18 * n) := Readable.after (w := 18) (by rw [show 18 + 18 * n = 18 * (n + 1) by omega]; exact h) ho hp
      rw [hu]
      exact ⟨h1.1, h1.2⟩
    obtain ⟨x, ex, hox, hpx, hfx, hjx⟩ := ih (i := i + 1) hru
    have hup : u.rpos.toNat = s.rpos.toNat + 18 := by rw [hu]; exact hp
    have hcell : readCell tableUnlisted x.pal i = some (v.setWidth 18) := by
      rw [hjx i (by omega), hu]
      exact readCell_writeCell_self _ _ _ _
    refine ⟨x, ?_, hou.trans hox, by omega, ?_, ?_⟩
    · rw [getPalette, Config.keyBits, e, andThen_ok, ← hu, ex]
    · intro m hm
      cases m with
      | zero =>
        refine ⟨?_, ?_⟩
        · have : (palEntry x (i + 0)).setWidth 32 = v := by
            unfold palEntry
            rw [Nat.add_zero, hcell, Option.getD_some]
            apply BitVec.eq_of_getLsbD_eq
            intro j hj
            rw [BitVec.getLsbD_setWidth, BitVec.getLsbD_setWidth]
            by_cases h18 : j < 18
            · simp [hj, h18]
            · rw [hv j]; simp [h18]
          rw [this]
          exact hv
        · intro hn
          rw [Nat.add_zero] at hn
          rw [readCell, hn] at hcell
          cases hcell
      | succ m =>
        obtain ⟨h1, h2⟩ := hfx m (by omega)
        rw [show i + (m + 1) = i + 1 + m by omega]
        refine ⟨?_, h2⟩
        intro j
        rw [h1 j, hou.srcBit?, hup]
        rw [show s.rpos.toNat + 18 + 18 * m + j = s.rpos.toNat + 18 * (m + 1) + j by omega]
    · intro j hj
      rw [hjx j (by omega), hu]
      simp only
      rw [readCell_writeCell_ne _ _ _ (by omega), ho]

/-- Everything the palette's entries can do: FormatError or an answer, with only PAL and RPOS changed, or the model's stop; and
every entry read stands in PAL. -/
theorem getPalette_outcome (n i : Nat) (s : State) :
    (∃ t, getPalette n i s = .ok () t ∧ OnlyPalette s t ∧ t.rpos.toNat = s.rpos.toNat + 18 * n ∧
      (s.rpos.toNat ≤ 8 * s.srcLen.toNat → t.rpos.toNat ≤ 8 * s.srcLen.toNat)) ∨
    (∃ t, getPalette n i s = .raised .formatError t ∧ OnlyPalette s t) ∨
    ∃ f, getPalette n i s = .fault f ∧ StopsAtUnwritten s f := by
  induction n generalizing i s with
  | zero => exact .inl ⟨s, rfl, rfl, by simp, fun h => h⟩
  | succ n ih =>
    rw [getPalette, Config.keyBits]
    rcases getBits_cases 18 s with ⟨-, h⟩ | ⟨k, h1, h2, h3, h4, h⟩ | ⟨v, t, h, ho, h1, h2⟩
    · exact .inr (.inl ⟨s, by rw [h, andThen_raised], rfl⟩)
    · exact .inr (.inr ⟨_, by rw [h, andThen_fault], k, rfl, h1, by omega, h4⟩)
    · rw [h, andThen_ok]
      obtain ⟨u, hu⟩ : ∃ u : State, u = { t with pal := writeCell tableUnlisted t.pal i (v.setWidth 18) } := ⟨_, rfl⟩
      have hou : OnlyPalette s u := by
        unfold OnlyPalette
        rw [hu, ho]
      have hur : u.rpos = t.rpos := by rw [hu]
      rw [← hu]
      rcases ih (i + 1) u with ⟨x, hx, ko, k1, k2⟩ | ⟨x, hx, ko⟩ | ⟨f, hf, j, rfl, k1, k2, k3⟩
      · exact .inl ⟨x, hx, hou.trans ko, by rw [k1, hur]; omega, fun _ => by
          rw [hou.srcLen, hur] at k2; exact k2 (by omega)⟩
      · exact .inr (.inl ⟨x, hx, hou.trans ko⟩)
      · refine .inr (.inr ⟨_, hf, j, rfl, by rw [hur] at k1; omega, ?_, ?_⟩)
        · rwa [hou.srcLen] at k2
        · rwa [hou.srcBit?] at k3

/-- What an answer of the palette's entries says of PAL: those entries are listed, the others as they were, the form and the range
kept. -/
theorem getPalette_pal {n i : Nat} {s t : State} (h : getPalette n i s = .ok () t) :
    (∀ m, m < n → cellAt? t.pal (i + m) ≠ none) ∧
    (∀ j, j < i ∨ i + n ≤ j → readCell tableUnlisted t.pal j = readCell tableUnlisted s.pal j) ∧
    (CellsWf tableUnlisted s.pal → CellsWf tableUnlisted t.pal) ∧
    (∀ size, i + n ≤ size → CellsBelow size s.pal → CellsBelow size t.pal) := by
  induction n generalizing i s with
  | zero =>
    obtain rfl : s = t := by simpa [getPalette] using h
    exact ⟨fun m hm => by omega, fun j _ => rfl, fun h => h, fun _ _ h => h⟩
  | succ n ih =>
    rw [getPalette] at h
    obtain ⟨v, u, hu, hk⟩ := andThen_eq_ok h
    have hpal : u.pal = s.pal := by
      rcases getBits_outcome Config.keyBits s with ⟨v', t', h', ho, -, -⟩ | ⟨t', h', -⟩ | ⟨f, h', -⟩
      · rw [hu] at h'
        simp only [Result.ok.injEq] at h'
        rw [h'.2, ho]
      · rw [hu] at h'; cases h'
      · rw [hu] at h'; cases h'
    obtain ⟨h1, h2, h3, h4⟩ := ih hk
    refine ⟨fun m hm => ?_, fun j hj => ?_, fun hs => ?_, fun size hn hs => ?_⟩
    · cases m with
      | zero =>
        intro hc
        have := h2 i (by omega)
        rw [Nat.add_zero] at hc
        simp only [readCell_writeCell_self] at this
        rw [readCell, hc] at this
        cases this
      | succ m =>
        rw [show i + (m + 1) = i + 1 + m by omega]
        exact h1 m (by omega)
    · rw [h2 j (by omega), ← hpal]
      exact readCell_writeCell_ne _ _ _ (by omega)
    · exact h3 (writeCell_wf _ _ (by rwa [hpal]))
    · have hi : i < size := by omega
      have hu : CellsBelow size (writeCell tableUnlisted u.pal i (v.setWidth 18)) :=
        writeCell_below _ hi (by rwa [hpal])
      exact h4 size (by omega) hu

end Sys2Proof.Machine
end

