-- ==== Sys2Proof/Laws/Writer.lean ====
section
/-! SUPPORT. PutBits where the sink refuses a byte, and the runs of PutBits that the writer and codec commands make. -/

namespace Sys2Proof.Machine

/-- PutBits where the sink accepts j bytes and refuses the next (R61, R107): exactly those j bytes, which hold the first 8·j of the
pending and the appended bits, and IOError. -/
theorem putAll_refused {bits : List Bool} {s : State} {j : Nat} (hw : s.wpos.toNat < 32768)
    (hj : j < bytesOffered s bits.length) (h : FirstRefusalAt s j) :
    ∃ t bytes, putAll bits s = .raised .ioError t ∧ OnlyWriter s t ∧ t.sink = s.sink ++ bytes ∧ bytes.length = j ∧
      bytesBits bytes = (pendingBits s ++ bits).take (8 * j) := by
  induction bits generalizing s j with
  | nil =>
    unfold bytesOffered at hj
    simp at hj
    omega
  | cons b rest ih =>
    by_cases hfull : j < bytesOffered s 1
    · have hw' : s.wpos.toNat + 1 = 32768 := by unfold bytesOffered at hfull; omega
      have hj' : j < 4096 := by unfold bytesOffered at hfull; omega
      obtain ⟨full, hf⟩ : ∃ full, full = (List.range Config.wbufBytes).map (wbufByte (storeBit b s)) := ⟨_, rfl⟩
      have hlen : full.length = 4096 := by simp [hf, Config.wbufBytes]
      have hbits : bytesBits full = pendingBits s ++ [b] := by
        rw [hf, bytesBits_fullBuffer (by rw [storeBit_wpos_toNat hw]; exact hw'), pendingBits_storeBit hw]
      have hput : putBit b s = .raised .ioError (takeAnswer (accepted (full.take j) (storeBit b s))) := by
        unfold putBit
        rw [storeBit_wpos_toNat hw, if_pos (show s.wpos.toNat + 1 = Config.wbufBits from hw'), emitFull, ← hf,
          emitAll_refused (by omega) (show FirstRefusalAt (storeBit b s) j from h), andThen_raised]
      refine ⟨takeAnswer (accepted (full.take j) (storeBit b s)), full.take j, by rw [putAll, hput, andThen_raised], rfl, rfl, by simp [hlen]; omega, ?_⟩
      rw [bytesBits_take, hbits, show pendingBits s ++ b :: rest = (pendingBits s ++ [b]) ++ rest by simp,
        List.take_append_of_le_length (l₁ := pendingBits s ++ [b])]
      rw [List.length_append, pendingBits_length, List.length_singleton]
      omega
    · obtain ⟨t, ht, happ, honly⟩ := putBit_spec (b := b) hw (h.1.mono (by omega : bytesOffered s 1 ≤ j))
      obtain ⟨h1, ⟨bs, h2, h3, h4, -, h6, h7⟩, -, -⟩ := id happ
      rw [List.length_singleton] at h1 h3
      have hbs : bs.length ≤ j := by unfold bytesOffered at hfull; omega
      have hans : ∀ i, answerAt t i = answerAt s (bs.length + i) := by
        intro i
        unfold answerAt
        rw [h6, h7, List.getElem?_drop, Nat.add_assoc]
      have href : FirstRefusalAt t (j - bs.length) := by
        refine ⟨fun i hi => ?_, ?_⟩
        · rw [hans]; exact h.1 _ (by omega)
        · rw [hans, Nat.add_sub_cancel' hbs]; exact h.2
      obtain ⟨u, bytes, hu, honly', hsink, hblen, hbb⟩ := ih happ.wpos_lt (by
        unfold bytesOffered at hj ⊢
        rw [List.length_cons] at hj
        omega) href
      refine ⟨u, bs ++ bytes, by rw [putAll, ht, andThen_ok, hu], honly.trans honly', by rw [hsink, h2, List.append_assoc],
        by rw [List.length_append, hblen]; omega, ?_⟩
      rw [bytesBits_append, hbb, show pendingBits s ++ b :: rest = (pendingBits s ++ [b]) ++ rest by simp, ← h4,
        List.append_assoc, show 8 * j = (bytesBits bs).length + 8 * (j - bs.length) by rw [bytesBits_length]; omega,
        List.take_length_add_append]

theorem lowBits_eq_fieldBits (v : Word) (w : Nat) : lowBits v w = fieldBits v.toNat w := rfl

theorem andThen_assoc {α β γ : Type} (r : Result α) (k : α → State → Result β) (l : β → State → Result γ) :
    (r.andThen k).andThen l = r.andThen fun a t => (k a t).andThen l := by
  cases r <;> rfl

theorem putAll_append (xs ys : List Bool) (s : State) :
    putAll (xs ++ ys) s = (putAll xs s).andThen fun _ t => putAll ys t := by
  induction xs generalizing s with
  | nil => rfl
  | cons b rest ih =>
    simp only [List.cons_append, putAll]
    cases putBit b s with
    | ok _ t => simpa using ih t
    | raised e t => rfl
    | fault f => rfl

/-- The header's four fields are one run of 128 bits (R110). -/
theorem putHeader_eq (rows cols numColors : Word) (s : State) :
    putHeader rows cols numColors s = putAll (headerBits rows cols numColors) s := by
  unfold headerBits putHeader putBits
  rw [putAll_append, putAll_append, putAll_append, andThen_assoc, andThen_assoc]
  rfl

theorem headerBits_length (rows cols numColors : Word) : (headerBits rows cols numColors).length = 128 := by
  simp [headerBits, fieldBits]

/-- PAL changes nothing that PutBits reads, so the palette's entries are one run of bits (R142). -/
theorem putPalette_eq (n i : Nat) (s : State) :
    putPalette n i s = putAll ((List.range n).flatMap (fun m => fieldBits (palEntry s (i + m)).toNat 18)) s := by
  induction n generalizing i s with
  | zero => rfl
  | succ n ih =>
    rw [putPalette, List.range_succ_eq_map, List.flatMap_cons, List.flatMap_map, putAll_append, putBits, lowBits_eq_fieldBits,
      Nat.add_zero i]
    have hk : (BitVec.setWidth 32 (palEntry s i)).toNat = (palEntry s i).toNat := by
      rw [BitVec.toNat_setWidth]
      have := (palEntry s i).isLt
      omega
    rw [hk, Config.keyBits]
    rcases putAll_outcome (fieldBits (palEntry s i).toNat 18) s with ⟨t, ht, honly, -⟩ | ⟨t, ht, -, -⟩
    · simp only [ht, andThen_ok]
      rw [ih]
      have hpal : ∀ j, palEntry t j = palEntry s j := by
        intro j
        unfold palEntry
        rw [honly]
      simp only [hpal, Nat.succ_eq_add_one]
      refine congrArg (fun l => putAll l t) (List.flatMap_congr fun m _ => ?_)
      rw [show i + 1 + m = i + (m + 1) by omega]
    · simp only [ht, andThen_raised]

theorem putHeader_outcome (rows cols numColors : Word) (s : State) : WriterOutcome s (putHeader rows cols numColors s) := by
  rw [putHeader_eq]; exact putAll_outcome _ s

theorem putPalette_outcome (n i : Nat) (s : State) : WriterOutcome s (putPalette n i s) := by
  rw [putPalette_eq]; exact putAll_outcome _ s

/-- WBUF in its form and range, WPOS below the buffer's end (R54 item 1). -/
def BufferOk (s : State) : Prop := CellsWf wbufUnlisted s.wbuf ∧ CellsBelow 4096 s.wbuf ∧ s.wpos.toNat < 32768

theorem emitAll_wbuf {bytes : List Byte} {s t : State} (h : emitAll bytes s = .ok () t) : t.wbuf = s.wbuf ∧ t.wpos = s.wpos := by
  rcases emitAll_cases bytes s with ⟨-, h'⟩ | ⟨j, -, -, h'⟩
  · rw [h] at h'
    simp only [Result.ok.injEq, true_and] at h'
    rw [h']
    exact ⟨rfl, rfl⟩
  · rw [h] at h'; cases h'

theorem storeBit_buffer (b : Bool) {s : State} (h : BufferOk s) :
    CellsWf wbufUnlisted (storeBit b s).wbuf ∧ CellsBelow 4096 (storeBit b s).wbuf := by
  rw [storeBit_wbuf]
  have := h.2.2
  exact ⟨writeCell_wf _ _ h.1, writeCell_below _ (by omega) h.2.1⟩

/-- PutBits keeps the buffer's form and leaves it open. -/
theorem putAll_buffer {bits : List Bool} {s t : State} (hs : BufferOk s) (h : putAll bits s = .ok () t) : BufferOk t := by
  induction bits generalizing s with
  | nil =>
    obtain rfl : s = t := by simpa [putAll] using h
    exact hs
  | cons b rest ih =>
    rw [putAll] at h
    obtain ⟨_, u, hu, hk⟩ := andThen_eq_ok h
    refine ih ?_ hk
    have hb := storeBit_buffer b hs
    unfold putBit at hu
    split at hu
    · rw [emitFull] at hu
      obtain ⟨_, v, hv, hw⟩ := andThen_eq_ok hu
      simp only [Result.ok.injEq, true_and] at hw
      have := emitAll_wbuf hv
      rw [← hw]
      refine ⟨?_, ?_, show (0 : BitVec 16).toNat < 32768 by decide⟩
      · show CellsWf wbufUnlisted v.wbuf
        rw [this.1]; exact hb.1
      · show CellsBelow 4096 v.wbuf
        rw [this.1]; exact hb.2
    · next hfull =>
      simp only [Result.ok.injEq, true_and] at hu
      rw [← hu]
      refine ⟨hb.1, hb.2, ?_⟩
      rw [storeBit_wpos_toNat hs.2.2] at hfull ⊢
      have := hs.2.2
      unfold Config.wbufBits at hfull
      omega

/-- FlushBuf keeps the buffer's form and leaves it empty. -/
theorem flushBuf_buffer {s t : State} (hs : BufferOk s) (h : flushBuf s = .ok () t) : BufferOk t := by
  rw [flushBuf] at h
  obtain ⟨_, u, hu, hk⟩ := andThen_eq_ok h
  simp only [Result.ok.injEq, true_and] at hk
  have := emitAll_wbuf hu
  rw [← hk]
  refine ⟨?_, ?_, show (0 : BitVec 16).toNat < 32768 by decide⟩
  · show CellsWf wbufUnlisted u.wbuf
    rw [this.1]; exact hs.1
  · show CellsBelow 4096 u.wbuf
    rw [this.1]; exact hs.2.1

/-! ### A sink that accepts n more bits and their padding -/

/-- The sink accepts the bytes of the pending bits and n more, the padded last one included. -/
def BitBudget (s : State) (n : Nat) : Prop := SinkAccepts s ((s.wpos.toNat + n + 7) / 8)

theorem BitBudget.offered {s : State} {n} (h : BitBudget s n) : SinkAccepts s (bytesOffered s n) := h.mono (by unfold bytesOffered; omega)

theorem BitBudget.mono {s : State} {m n} (h : BitBudget s n) (k : m ≤ n) : BitBudget s m := SinkAccepts.mono h (by omega)

theorem BitBudget.after {s t : State} {xs} {n : Nat} (h : AppendsBits s t xs) (b : BitBudget s (xs.length + n)) : BitBudget t n := by
  obtain ⟨hw, ⟨bs, -, hl, -, -, h6, h7⟩, -, -⟩ := h
  intro i hi
  have := b (bs.length + i) (by rw [hl]; omega)
  unfold answerAt at *
  rw [h6, h7, List.getElem?_drop, Nat.add_assoc]; exact this

end Sys2Proof.Machine
end

