-- ==== Sys2Proof/Laws/Runs.lean ====
section
/-! SUPPORT. Runs of commands: sequencing, the loading of SRC, and fields of SRC known from the bits that were loaded. -/

namespace Sys2Proof.Machine

theorem execAll_append (xs ys : List Instr) (s : State) {t : State} (h : execAll xs s = .next t) :
    execAll (xs ++ ys) s = execAll ys t := by
  induction xs generalizing s with
  | nil =>
    simp only [execAll, Host.Outcome.next.injEq] at h
    rw [List.nil_append, h]
  | cons i rest ih =>
    simp only [List.cons_append, execAll] at h ⊢
    split at h
    · exact ih _ h
    · cases h
    · cases h

theorem execAll_cons {i : Instr} {rest : List Instr} {s t : State} (h : exec i s = .next t) :
    execAll (i :: rest) s = execAll rest t := by
  rw [execAll, h]

/-- Only the response and the bytes of SRC differ. -/
def OnlySource (s t : State) : Prop :=
  t = { s with src := t.src, rstatus := t.rstatus, res0 := t.res0, res1 := t.res1, res2 := t.res2, responses := t.responses }

/-- SRC_WRITE of each byte from an offset on (R115): those bytes stand there, the others as they were. -/
theorem execAll_srcWrites {bytes : List Byte} {offset : Nat} {s : State} (he : s.err = .noError) (ho : s.ropen = false)
    (hlen : offset + bytes.length ≤ s.params.srcMax.toNat) :
    ∃ t, execAll (srcWrites offset bytes) s = .next t ∧ OnlySource s t ∧
      ∀ j, srcByte? t j = if offset ≤ j ∧ j < offset + bytes.length then bytes[j - offset]? else srcByte? s j := by
  induction bytes generalizing offset s with
  | nil =>
    refine ⟨s, rfl, rfl, fun j => ?_⟩
    rw [if_neg (by simp only [List.length_nil]; omega)]
  | cons b rest ih =>
    rw [List.length_cons] at hlen
    have hmax := s.params.srcMax.isLt
    have hoff : (BitVec.ofNat 32 offset).toNat = offset := by
      rw [BitVec.toNat_ofNat]; exact Nat.mod_eq_of_lt (by omega)
    obtain ⟨u, hu⟩ : ∃ u : State, u = respond (success 0 0 0) { s with src := writeCell srcUnlisted s.src offset b } := ⟨_, rfl⟩
    have hexec : exec (.srcWrite (BitVec.ofNat 32 offset) b) s = .next u := by
      simp only [exec, execSrcWrite]
      rw [command_noError _ he, require_true ho, require_true (by rw [hoff]; omega), hoff, hu]
      rfl
    have hou : OnlySource s u := by rw [hu]; rfl
    obtain ⟨t, ht, hot, hj⟩ := ih (s := u) (offset := offset + 1) (by rw [hu]; exact he) (by rw [hu]; exact ho)
      (by rw [hu]; simp only [respond_params]; omega)
    refine ⟨t, by rw [srcWrites, execAll_cons hexec, ht], ?_, fun j => ?_⟩
    · unfold OnlySource at *
      rw [hot, hou]
    · rw [hj j]
      have hub : srcByte? u j = if j = offset then some b else srcByte? s j := by
        rw [hu]
        exact readCell_writeCell _ _ _ _ _
      by_cases h1 : j = offset
      · subst h1
        rw [if_neg (by omega), hub, if_pos rfl, if_pos (by rw [List.length_cons]; omega)]
        simp
      · by_cases h2 : offset ≤ j ∧ j < offset + (rest.length + 1)
        · rw [if_pos (by omega), if_pos (by rw [List.length_cons]; omega),
            show j - offset = (j - (offset + 1)) + 1 by omega, List.getElem?_cons_succ]
        · rw [if_neg (by omega), hub, if_neg h1, if_neg (by rw [List.length_cons]; omega)]

/-- SRC holds `bits` from stream bit 0 on. -/
def SrcHolds (s : State) (bits : List Bool) : Prop := ∀ k, k < bits.length → srcBit? s k = bits[k]?

theorem bytesBits_getElem? (bytes : List Byte) (k : Nat) :
    (bytesBits bytes)[k]? = (bytes[k / 8]?).map (fun b => b.getLsbD (k % 8)) := by
  induction bytes generalizing k with
  | nil => simp [bytesBits]
  | cons b rest ih =>
    have h : bytesBits (b :: rest) = byteBits b ++ bytesBits rest := by simp [bytesBits]
    rw [h]
    by_cases hk : k < 8
    · rw [List.getElem?_append_left (by rw [byteBits_length]; omega), show k / 8 = 0 by omega, show k % 8 = k by omega]
      simp [byteBits, hk]
    · rw [List.getElem?_append_right (by rw [byteBits_length]; omega), byteBits_length, ih,
        show k / 8 = (k - 8) / 8 + 1 by omega, show k % 8 = (k - 8) % 8 by omega, List.getElem?_cons_succ]

theorem srcHolds_of_bytes {s : State} {bytes : List Byte} (h : ∀ j, j < bytes.length → srcByte? s j = bytes[j]?) :
    SrcHolds s (bytesBits bytes) := by
  intro k hk
  rw [bytesBits_length] at hk
  rw [bytesBits_getElem?]
  unfold srcBit?
  rw [h _ (by omega)]
  cases bytes[k / 8]? <;> rfl

theorem SrcHolds.written {s : State} {bits : List Bool} (h : SrcHolds s bits) {lo hi : Nat} (hh : hi ≤ bits.length) :
    SrcWritten s lo hi := by
  intro k _ h2
  rw [h k (by omega), List.getElem?_eq_getElem (by omega)]
  simp

/-- The field behind a known prefix of the bits is the value whose bits stand there. -/
theorem SrcHolds.fieldAt {s : State} {bits front back : List Bool} {w : Nat} {v : Word} (h : SrcHolds s bits)
    (hb : bits = front ++ fieldBits v.toNat w ++ back) (hv : v.toNat < 2 ^ w) : FieldAt s front.length w v := by
  intro i
  by_cases hi : i < w
  · have hl : front.length + i < bits.length := by rw [hb]; simp [fieldBits]; omega
    rw [h _ hl, hb, List.append_assoc, List.getElem?_append_right (by omega), Nat.add_sub_cancel_left,
      List.getElem?_append_left (by simpa [fieldBits] using hi)]
    simp [fieldBits, hi, BitVec.getLsbD]
  · rw [decide_eq_false hi, Bool.false_and]
    exact Nat.testBit_lt_two_pow (lt_of_lt_of_le hv (Nat.pow_le_pow_right (by omega) (by omega)))

end Sys2Proof.Machine
end

