-- ==== Sys2Proof/Tests/Slice0.lean ====
section
/-! SUPPORT. Tests whose expected values come from the spec's examples (95_test_vectors.md, named V<n> or P<n>, and the rules'
own examples), and for each statement of Certificates/Slice0/Obligations.lean with hypotheses a theorem that shows them met. -/

namespace Sys2Proof.Tests
open Sys2Proof Sys2Proof.Machine

/-! ### Helpers -/

/-- The response of an outcome that is a next state. -/
def reply (o : Host.Outcome State Fault Refusal) : Option Response :=
  match o with
  | .next t => some ⟨t.rstatus, t.res0, t.res1, t.res2⟩
  | _ => none

/-- A part of an outcome that is a next state. -/
def look {α : Type} (o : Host.Outcome State Fault Refusal) (f : State → α) : Option α :=
  match o with
  | .next t => some (f t)
  | _ => none

def ok (r0 r1 r2 : Word) : Option Response := some ⟨.noError, r0, r1, r2⟩

def failed (e : ErrCode) : Option Response := some ⟨e, 0, 0, 0⟩

/-- After reset, with a sink that accepts the first 40 bytes. -/
def idle : State := { State.reset with sinkAnswers := List.replicate 40 true }

/-- `idle` with an open reader on `bytes`. -/
def reading (bytes : List Byte) : State :=
  { idle with src := bytes.zipIdx.map (fun c => (c.2, c.1)), srcLen := BitVec.ofNat 32 bytes.length, ropen := true }

/-- The counts of R130's example: 0x3F000 three times, 0x0003F twice, 0x02147 once. -/
def counted : State :=
  { idle with
    cnt := [(0x3F, 2), (0x2147, 1), (0x3F000, 3)], seen := [(0, 0x3F000), (1, 0x3F), (2, 0x2147)], ndist := 3, total := 6 }

/-- `counted` after RANK_SORT (R130's example). -/
def ranked : State :=
  { counted with
    pal := [(0, 0x3F000), (1, 0x3F), (2, 0x2147)], palLen := 3, rankof := [(0x3F, 1), (0x2147, 2), (0x3F000, 0)],
    rsorted := true }

/-- `ranked` with a 2 × 3 header written: phase ENC_PAL. -/
def encoding : State := { ranked with rows := 2, cols := 3, ncolors := 3, rcw := 2, pixrem := 6, cphase := .encPal }

/-- The same in phase ENC_PIX. -/
def encodingPixels : State := { encoding with cphase := .encPix }

/-- The file header of P2. -/
def headerBytes : List Byte := [0xFF, 0xAD, 0xBE, 0xFF, 2, 0, 0, 0, 3, 0, 0, 0, 3, 0, 0, 0]

/-- The palette section of P2 (R142's example), 54 bits, then zeros. -/
def paletteBytes : List Byte := [0x00, 0xF0, 0xFF, 0x00, 0x70, 0x14, 0x02]

/-- The decoder before its palette: three entries of 18 bits to come. -/
def decoding : State := { reading paletteBytes with ncolors := 3, rcw := 2, pixrem := 6, cphase := .decPal }

/-- The decoder before a pixel whose rank code is the two low bits of `code`. -/
def decodingPixel (code : Byte) : State :=
  { reading [code] with
    pal := [(0, 0x3F000), (1, 0x3F), (2, 0x2147)], palLen := 3, ncolors := 3, rcw := 2, pixrem := 6, cphase := .decPix }

/-- The writer one bit before the full buffer, with a sink that accepts j bytes and refuses the next. -/
def almostFull (j : Nat) : State := { idle with wpos := 32767, sinkAnswers := List.replicate j true ++ [false] }

/-- A field of SRC is known from its 32 bits. -/
theorem fieldAt_of_bits {s : State} {pos w : Nat} {v : Word} (hw : w ≤ 32)
    (h : ∀ i, i < 32 → v.getLsbD i = (decide (i < w) && (srcBit? s (pos + i)).getD false)) : FieldAt s pos w v := by
  intro i
  by_cases hi : i < 32
  · exact h i hi
  · rw [BitVec.getLsbD_of_ge _ _ (by omega), decide_eq_false (by omega), Bool.false_and]

/-! ### WellFormed: each check refuses -/

theorem test_wf_writeBits_32 : Instr.wf (.writeBits 32 0) = true := by decide
theorem test_wf_writeBits_33 : Instr.wf (.writeBits 33 0) = false := by decide
theorem test_wf_readBits_33 : Instr.wf (.readBits 33) = false := by decide

/-! ### Decode: a word of each command, written from R79 (C, B, A, RSV and W, OP) -/

theorem test_decode_nop : decode 0x00000000_00000000_00000000_00000000 = .ok .nop := by decide
theorem test_decode_reset : decode 0x00000000_00000000_00000000_00000001 = .ok .reset := by decide
theorem test_decode_regRead : decode 0x00000000_00000000_00000013_00000002 = .ok (.regRead 0x13) := by decide
theorem test_decode_writeBits : decode 0x00000000_00000000_00000005_00000510 = .ok (.writeBits 5 5) := by decide
theorem test_decode_writeHeader :
    decode 0x00040001_FFFFFFFF_12345678_00000011 = .ok (.writeHeader 0x12345678 0xFFFFFFFF 0x40001) := by decide
theorem test_decode_flush : decode 0x00000000_00000000_00000000_00000012 = .ok .flush := by decide
theorem test_decode_close : decode 0x00000000_00000000_00000000_00000013 = .ok .close := by decide
theorem test_decode_srcWrite : decode 0x00000000_FFFFFFAB_00000007_00000018 = .ok (.srcWrite 7 0xAB) := by decide
theorem test_decode_readerOpen : decode 0x00000000_00000000_00000010_00000019 = .ok (.readerOpen 16) := by decide
theorem test_decode_readBits : decode 0x00000000_00000000_00000000_0000121A = .ok (.readBits 18) := by decide
theorem test_decode_readHeader : decode 0x00000000_00000000_00000000_0000001B = .ok .readHeader := by decide
theorem test_decode_quantize : decode 0x00000000_00000000_FF204080_00000020 = .ok (.quantize ⟨128, 64, 32⟩) := by decide
theorem test_decode_dequantize : decode 0x00000000_00000000_FFFC1041_00000021 = .ok (.dequantize 0x1041) := by decide
theorem test_decode_rankClear : decode 0x00000000_00000000_00000000_00000030 = .ok .rankClear := by decide
theorem test_decode_rankCount : decode 0x00000000_00000000_001E140A_00000031 = .ok (.rankCount ⟨10, 20, 30⟩) := by decide
theorem test_decode_rankSort : decode 0x00000000_00000000_00000000_00000032 = .ok .rankSort := by decide
theorem test_decode_rankLookup : decode 0x00000000_00000000_FFFFF000_00000033 = .ok (.rankLookup 0x3F000) := by decide
theorem test_decode_palRead : decode 0x00000000_00000000_80000002_00000034 = .ok (.palRead 0x80000002) := by decide
theorem test_decode_encHeader : decode 0x00000000_00000003_00000002_00000040 = .ok (.encHeader 2 3) := by decide
theorem test_decode_encPalette : decode 0x00000000_00000000_00000000_00000041 = .ok .encPalette := by decide
theorem test_decode_encPixel : decode 0x00000000_00000000_000000FF_00000042 = .ok (.encPixel ⟨255, 0, 0⟩) := by decide
theorem test_decode_encFinish : decode 0x00000000_00000000_00000000_00000043 = .ok .encFinish := by decide
theorem test_decode_rankWidth : decode 0x00000000_00000000_FFFFFFFF_00000044 = .ok (.rankWidth 0xFFFFFFFF) := by decide
theorem test_decode_decHeader : decode 0x00000000_00000000_00000000_00000048 = .ok .decHeader := by decide
theorem test_decode_decPalette : decode 0x00000000_00000000_00000000_00000049 = .ok .decPalette := by decide
theorem test_decode_decPixel : decode 0x00000000_00000000_00000000_0000004A = .ok .decPixel := by decide

/-! Refusals of the decoder: V2 to V5 and V11. -/

theorem test_decode_V2 : decode 0x00004000 = .error .reservedBitsSet := by decide
theorem test_decode_V3 : decode 0x00000003 = .error .unassignedOpcode := by decide
theorem test_decode_V4 : decode 0x00000000_00000000_00000001_00002110 = .error .widthOutOfRange := by decide
theorem test_decode_V5 : decode 0x00000120 = .error .widthOutOfRange := by decide
theorem test_decode_V11 : decode 0x00000101 = .error .widthOutOfRange := by decide
theorem test_decodeTableWord : decodeTableWord 64 0xFF_00000042 = some (.encPixel ⟨255, 0, 0⟩) := by decide

/-! ### Reset -/

theorem test_reset_memories : CanonicalMemories State.reset := by unfold CanonicalMemories; decide
theorem test_reset_fetches : look (step (State.reset.withFetchWord 128 0x2_00000044)) State.res0 = some 1 := by decide

/-! ### One step each -/

theorem test_nop_V1 : reply (step { idle with inputs := [.command 0] }) = ok 0 0 0 := by decide
theorem test_nop_V2 : reply (step { idle with inputs := [.command 0x4000] }) = failed .usageError := by decide
theorem test_reset_V10 : look (exec .reset { counted with err := .formatError }) (fun t => (t.err, t.abort, t.total)) =
    some (.noError, false, 0) := by decide
theorem test_regRead_V6 : reply (exec (.regRead 0x11) idle) = ok 0xFFBEADFF 0 0 := by decide
theorem test_regRead_V9 : reply (exec (.regRead 0x14) idle) = failed .usageError := by decide
theorem test_regRead_status :
    reply (exec (.regRead 0) { ranked with ropen := true, cphase := .encPix }) = ok 0b10110000 0 0 := by decide
theorem test_writeBits_V23 : look (exec (.writeBits 3 0xFFFFFFFF) idle) (fun t => (t.wbuf, t.wpos)) = some ([(0, 7)], 3) := by decide
theorem test_writeBits_closed : reply (exec (.writeBits 1 1) { idle with wclosed := true }) = failed .usageError := by decide
theorem test_writeHeader_V24 : look (exec (.writeHeader 2 3 3) idle) (fun t => (t.wpos, (List.range 16).map (wbufByte t))) =
    some (128, headerBytes) := by decide +kernel
theorem test_flush_V32 : look (exec .flush { idle with wbuf := [(0, 0xFA)], wpos := 4, sinkcnt := 4096 })
    (fun t => (t.sink, t.wpos, t.sinkcnt)) = some ([0x0A], 0, 4097) := by decide
theorem test_flush_V34 : look (exec .flush { idle with wbuf := [(0, 0xCD), (1, 0xAB)], wpos := 16, sinkAnswers := [true, false] })
    (fun t => (t.sink, t.rstatus, t.err, t.abort)) = some ([0xCD], .ioError, .ioError, true) := by decide
theorem test_close_V22 : look (exec .close { idle with wbuf := [(0, 0x2A)], wpos := 6 }) (fun t => (t.sink, t.wclosed)) =
    some ([0x2A], true) := by decide
theorem test_close_twice : reply (exec .close { idle with wclosed := true }) = failed .usageError := by decide
theorem test_srcWrite : look (exec (.srcWrite 7 0) idle) State.src = some [(7, 0)] := by decide
theorem test_srcWrite_V26 : reply (exec (.srcWrite 4 1) { idle with params := ⟨4, .firstSeen⟩ }) = failed .usageError := by decide
theorem test_readerOpen_V28 : look (exec (.readerOpen 0) { idle with rpos := 3 }) (fun t => (t.ropen, t.rpos, t.srcLen)) =
    some (true, 0, 0) := by decide
theorem test_readerOpen_V27 : reply (exec (.readerOpen 5) { idle with params := ⟨4, .firstSeen⟩ }) = failed .usageError := by decide
theorem test_readBits_V20 : reply (exec (.readBits 16) { reading [0xFF, 0xAD, 0xBE, 0xFF] with rpos := 8 }) = ok 0xBEAD 0 0 := by
  decide
theorem test_readBits_V20_end : reply (exec (.readBits 1) { reading [0xFF] with rpos := 8 }) = failed .formatError := by decide
theorem test_readHeader : reply (exec .readHeader (reading headerBytes)) = ok 2 3 3 := by decide
theorem test_readHeader_V18 : reply (exec .readHeader (reading (0xFE :: headerBytes.drop 1))) = failed .formatError := by decide
theorem test_quantize_V37 : reply (exec (.quantize ⟨10, 20, 30⟩) idle) = ok 0x2147 0 0 := by decide
theorem test_quantize_V39f : reply (exec (.quantize ⟨253, 130, 66⟩) idle) = ok 0x3F810 0 0 := by decide
theorem test_dequantize_V39g : reply (exec (.dequantize 0x20408) idle) = ok 0x00224282 0 0 := by decide
theorem test_dequantize_V39m : reply (exec (.dequantize 0xFC0) idle) = ok 0x0002FE02 0 0 := by decide
theorem test_rankClear_V61 : look (exec .rankClear ranked) (fun t => (t.ndist, t.total, t.palLen, t.rsorted)) =
    some (0, 0, 0, false) := by decide
theorem test_rankCount_V58 : look (exec (.rankCount ⟨0, 0, 255⟩) { ranked with cphase := .idle })
    (fun t => (t.res0, t.rsorted, cntEntry t 0x3F, t.ndist)) = some (0x3F, false, 3, 3) := by decide
theorem test_rankCount_V62 : reply (exec (.rankCount ⟨0, 0, 0⟩) encoding) = failed .usageError := by decide
theorem test_rankSort_R130 : look (exec .rankSort counted) (fun t => (t.pal, t.rankof, t.palLen, t.res0)) =
    some (ranked.pal, ranked.rankof, 3, 3) := by decide
theorem test_rankSort_V65 : look (exec .rankSort
    { idle with params := ⟨64, .keyAsc⟩, cnt := [(0x3F, 2), (0x3F000, 2)], seen := [(0, 0x3F000), (1, 0x3F)], ndist := 2, total := 4 })
    State.pal = some [(0, 0x3F), (1, 0x3F000)] := by decide
theorem test_rankLookup_V60 : reply (exec (.rankLookup 0x2147) ranked) = ok 2 0 0 := by decide
theorem test_rankLookup_V60_uncounted : reply (exec (.rankLookup 0x1041) ranked) = failed .usageError := by decide
theorem test_palRead_V60 : reply (exec (.palRead 2) ranked) = ok 0x2147 0 0 := by decide
theorem test_palRead_V60_end : reply (exec (.palRead 3) ranked) = failed .usageError := by decide
theorem test_rankWidth_V45 : reply (exec (.rankWidth 5) idle) = ok 3 0 0 := by decide
theorem test_rankWidth_V53 : reply (exec (.rankWidth 0xFFFFFFFF) idle) = ok 32 0 0 := by decide
theorem test_encHeader_P2 : look (exec (.encHeader 2 3) ranked)
    (fun t => (t.res0, t.res1, t.pixrem, t.cphase, (List.range 16).map (wbufByte t))) =
    some (3, 2, 6, .encPal, headerBytes) := by decide +kernel
theorem test_encHeader_size : reply (exec (.encHeader 2 2) ranked) = failed .usageError := by decide
theorem test_encPalette_R142 : look (exec .encPalette encoding) (fun t => (t.wpos, t.cphase, (List.range 7).map (wbufByte t))) =
    some (54, .encPix, paletteBytes) := by decide +kernel
theorem test_encPixel_P2 : look (exec (.encPixel ⟨10, 20, 30⟩) encodingPixels)
    (fun t => (t.res0, t.res1, t.pixrem, t.wpos, wbufByte t 0)) = some (2, 0x2147, 5, 2, 2) := by decide
theorem test_encPixel_uncounted : reply (exec (.encPixel ⟨0, 0, 0⟩) encodingPixels) = failed .usageError := by decide
theorem test_encFinish : look (exec .encFinish { encodingPixels with pixrem := 0, wbuf := [(0, 2)], wpos := 2, sinkcnt := 24 })
    (fun t => (t.res0, t.sink, t.wclosed, t.cphase)) = some (25, [2], true, .encDone) := by decide
theorem test_encFinish_early : reply (exec .encFinish encodingPixels) = failed .usageError := by decide
theorem test_decHeader_P3 : look (exec .decHeader (reading headerBytes)) (fun t => (t.res2, t.rcw, t.pixrem, t.cphase, t.rpos)) =
    some (3, 2, 6, .decPal, 128) := by decide
theorem test_decHeader_V19 : reply (exec .decHeader
    (reading [0xFF, 0xAD, 0xBE, 0xFF, 2, 0, 0, 0, 3, 0, 0, 0, 1, 0, 4, 0])) = failed .formatError := by decide
theorem test_decPalette_P3 : look (exec .decPalette decoding) (fun t => (t.pal, t.palLen, t.cphase, t.rpos)) =
    some (ranked.pal, 3, .decPix, 54) := by decide
theorem test_decPalette_short : reply (exec .decPalette { decoding with ncolors := 4 }) = failed .formatError := by decide
theorem test_decPixel_P3 : look (exec .decPixel (decodingPixel 0b10)) (fun t => (t.res0, t.res1, t.res2, t.pixrem)) =
    some (0x001E160A, 2, 0x2147, 5) := by decide
theorem test_decPixel_P6 : reply (exec .decPixel (decodingPixel 0b11)) = failed .formatError := by decide

/-! ### Witnesses: states and operands that meet a statement's hypotheses, clause by clause -/

theorem sinkAccepts_replicate {s : State} {n : Nat} (h : s.sinkAnswers = List.replicate n true) : SinkAccepts s n := by
  intro i hi
  simp [answerAt, h, hi]

theorem firstRefusalAt_almostFull (j : Nat) : FirstRefusalAt (almostFull j) j := by
  refine ⟨fun i hi => ?_, ?_⟩
  · simp [answerAt, almostFull, List.getElem?_append, hi]
  · simp [answerAt, almostFull]

theorem cntEntry_counted (k : Key) : cntEntry counted k ≠ 0 ↔ k = 0x3F000 ∨ k = 0x3F ∨ k = 0x2147 := by
  refine ⟨fun h => ?_, ?_⟩
  · by_contra hk
    simp only [not_or, ← BitVec.toNat_inj] at hk
    apply h
    have h1 : 0x3F ≠ k.toNat := fun he => hk.2.1 (by rw [← he]; rfl)
    have h2 : 0x2147 ≠ k.toNat := fun he => hk.2.2 (by rw [← he]; rfl)
    have h3 : 0x3F000 ≠ k.toNat := fun he => hk.1 (by rw [← he]; rfl)
    simp [cntEntry, readCell, counted, cellAt?, cntUnlisted, h1, h2, h3]
  · rintro (rfl | rfl | rfl) <;> decide

/-- A state with counts that the invariant admits. -/
theorem counted_invariant : Invariant counted := by
  have hseen : seenKeys counted = [0x3F000, 0x3F, 0x2147] := by decide
  refine ⟨by decide, by unfold CanonicalMemories; decide, by unfold MemoriesInRange; decide, fun _ => ⟨?_, ?_, ?_⟩⟩
  · refine ⟨by decide, by decide, ⟨?_, fun k => ?_, ?_⟩, fun h => ?_, fun h => ?_, fun h => ?_, fun h => ?_, fun h => ?_⟩
    · rw [hseen]; decide
    · rw [hseen, cntEntry_counted]; simp
    · rw [hseen]; decide
    · exact absurd h (by decide)
    · exact absurd h (by decide)
    · exact absurd h (by decide)
    · exact absurd h (by decide)
    · exact absurd rfl h
  · exact ⟨by decide, by decide⟩
  · exact fun _ => rfl

theorem witness_DecodeInvertsEncode : (Instr.writeBits 32 0xFFFFFFFF).wf = true ∧ (Instr.readBits 0).wf = true := by decide

theorem witness_DecodedCommandReencodesItsSelector :
    decode 0xFF000000_FF000000_FF000000_00000042 = .ok (.encPixel ⟨0, 0, 0⟩) := by decide

theorem witness_EveryWordSelectsOneRowOrRaisesUsageError :
    PassesChecks 0x2010 ∧ PassesChecks 0x4A ∧ ¬PassesChecks 0x2110 ∧ ¬PassesChecks 0x4B ∧ ¬PassesChecks 0x4012 ∧
      ¬PassesChecks 0x112 ∧ ({ idle with inputs := [.command 0x2110] } : State).err = .noError := by
  unfold PassesChecks; decide

theorem witness_StepRunsTheDecodedCommand :
    ({ idle with inputs := [.command 0x1] } : State).inputs = .command 0x1 :: [] ∧ decode 0x1 = .ok .reset := by decide

theorem witness_IdleBlockKeepsItsState : State.reset.inputs = [] := by decide

theorem witness_ResetInputGivesResetValuesAndNoResponse :
    ({ counted with inputs := [.reset] } : State).inputs = .reset :: [] ∧
      ({ counted with inputs := [.commandCutByReset 0x12 0] } : State).inputs = .commandCutByReset 0x12 0 :: [] := by decide

theorem witness_EachCommandDeliversOneResponse : ∃ t, step { idle with inputs := [.command 0x12] } = .next t := ⟨_, rfl⟩

theorem witness_StepKeepsTheParameters : ∃ t, step { counted with inputs := [.reset] } = .next t := ⟨_, rfl⟩

theorem witness_SinkStreamIsAppendOnly : ∃ t u, step { idle with inputs := [.command 0x12] } = .next t ∧
    exec (.srcWrite 0 1) idle = .next u := ⟨_, _, rfl, rfl⟩

theorem witness_SinkcntCountsAcceptedBytes : ∃ t, exec .flush idle = .next t ∧ t.err = .noError := ⟨_, rfl, rfl⟩

theorem witness_CommandsWriteOnlyTheirState :
    Instr.encPixel ⟨10, 20, 30⟩ ≠ .reset ∧ Part.phase ∉ writtenParts (.encPixel ⟨10, 20, 30⟩) ∧
      ∃ t, exec (.encPixel ⟨10, 20, 30⟩) encodingPixels = .next t ∧ t.err = .noError := ⟨by decide, by decide, _, rfl, rfl⟩

theorem witness_PhaseMovesOnlyByItsCommands :
    Instr.encPalette ≠ .reset ∧ (∃ t, exec .encPalette encoding = .next t ∧ t.err = .noError) ∧ ∃ t, exec .reset encoding = .next t :=
  ⟨by decide, ⟨_, rfl, rfl⟩, _, rfl⟩

theorem witness_OnlyUnwrittenSourceStopsTheModel :
    exec (.readBits 1) { idle with srcLen := 1, ropen := true } = .fault (.srcUnwritten 0) := by rfl

theorem not_decoded {w : Command} {e : DecodeError} (h : decode w = .error e) (i : Instr) : decode w ≠ .ok i := by
  rw [h]; exact fun he => by cases he

theorem witness_StickyErrorRefusesAllButThree :
    ({ idle with err := .formatError } : State).err ≠ .noError ∧ (∀ i, decode 0x3 ≠ .ok i) ∧ (∀ i, decode 0x4012 ≠ .ok i) ∧
      ∃ t, exec .nop { idle with err := .formatError } = .next t :=
  ⟨by decide, not_decoded (e := .unassignedOpcode) (by decide), not_decoded (e := .reservedBitsSet) (by decide), _, rfl⟩

theorem witness_FirstErrorSetsErr :
    (∃ t, exec (.palRead 0) idle = .next t) ∧ ({ idle with err := .ioError } : State).err ≠ .noError ∧
      (∀ i, decode 0x101 ≠ .ok i) ∧ opField 0x101 = 0x01 :=
  ⟨⟨_, rfl⟩, by decide, not_decoded (e := .widthOutOfRange) (by decide), by decide⟩

theorem witness_CapacityErrorIsNeverRaised : Invariant counted ∧ counted.err = .noError ∧ ∃ t, exec .nop counted = .next t :=
  ⟨counted_invariant, rfl, _, rfl⟩

theorem witness_ResetStateMeetsTheInvariant : 1 ≤ (⟨1, .keyAsc⟩ : Params).srcMax.toNat := by decide

theorem witness_EveryStepKeepsTheInvariant :
    Invariant { counted with inputs := [.command 0x32] } ∧ ∃ t, step { counted with inputs := [.command 0x32] } = .next t :=
  ⟨counted_invariant, _, rfl⟩

theorem witness_EveryStepKeepsMemoriesCanonical :
    CanonicalMemories ranked ∧ ∃ t, step { ranked with inputs := [.command 0x30] } = .next t :=
  ⟨by unfold CanonicalMemories; decide, _, rfl⟩

theorem witness_StaleBufferBitsAreUnobservable :
    (32767 : BitVec 16).toNat < 32768 ∧ SameButStaleBits idle { idle with wbuf := [(0, 0xFF)] } ∧
      SameButStaleBits { idle with wpos := 3 } { idle with wpos := 3, wbuf := [(0, 0xF8)] } ∧
      ∃ t, exec .close { idle with wpos := 3 } = .next t :=
  ⟨by decide, ⟨rfl, fun k hk => absurd hk (Nat.not_lt_zero k)⟩, ⟨rfl, by decide⟩, _, rfl⟩

theorem witness_TieBreakOnlyAffectsRankSort :
    Instr.rankClear ≠ .rankSort ∧ (∀ n, Instr.rankClear ≠ .regRead n) ∧ (∃ t, exec .rankClear counted = .next t) ∧
      ∃ f, exec (.readBits 1) { idle with srcLen := 1, ropen := true } = .fault f :=
  ⟨by decide, by simp, ⟨_, rfl⟩, _, rfl⟩

theorem witness_RegReadReturnsTheRegister :
    ranked.err = .noError ∧ ((0x00 : Word), (0x20 : Word)) ∈ registerTable ranked ∧
      ((0x13 : Word), (0xFFFFFFFF : Word)) ∈ registerTable ranked ∧ 0x13 < (0x14 : Word).toNat := by decide

theorem witness_RegReadInTheErrorState :
    ({ idle with err := .usageError } : State).err ≠ .noError ∧ (0x13 : Word).toNat ≤ 0x13 ∧ 0x13 < (0x14 : Word).toNat := by decide

theorem witness_WriteBitsAppendsTheLowBits :
    (opField 0x2010 = 0x10 ∧ rsvField 0x2010 = 0 ∧ (widthField 0x2010).toNat ≤ 32) ∧ idle.err = .noError ∧
      32 < (33 : BitVec 6).toNat ∧ ({ idle with wclosed := true } : State).wclosed = true ∧
      ((32 : BitVec 6).toNat ≤ 32 ∧ idle.wclosed = false ∧ idle.wpos.toNat < 32768 ∧ SinkAccepts idle (bytesOffered idle 32)) ∧
      (SinkAccepts { idle with wpos := 32736, sinkAnswers := List.replicate 4096 true } 4096 ∧
        bytesOffered { idle with wpos := 32736, sinkAnswers := List.replicate 4096 true } 32 = 4096) ∧
      ((almostFull 0).wpos.toNat < 32768 ∧ 0 < bytesOffered (almostFull 0) 1 ∧ FirstRefusalAt (almostFull 0) 0) ∧
      4095 < bytesOffered (almostFull 4095) 1 ∧ FirstRefusalAt (almostFull 4095) 4095 :=
  ⟨by decide, by decide, by decide, rfl, ⟨by decide, rfl, by decide, fun i hi => absurd hi (Nat.not_lt_zero i)⟩,
    ⟨sinkAccepts_replicate rfl, rfl⟩, ⟨by decide, by decide, firstRefusalAt_almostFull 0⟩,
    Nat.lt_of_lt_of_eq (Nat.lt_succ_self 4095) rfl, firstRefusalAt_almostFull 4095⟩

theorem witness_WriteHeaderAppendsFourFields :
    ({ idle with wclosed := true } : State).wclosed = true ∧
      (idle.err = .noError ∧ idle.wclosed = false ∧ idle.wpos.toNat < 32768 ∧ SinkAccepts idle (bytesOffered idle 128)) ∧
      (almostFull 7).err = .noError ∧ (almostFull 7).wclosed = false ∧ 7 < bytesOffered (almostFull 7) 128 ∧
      FirstRefusalAt (almostFull 7) 7 :=
  ⟨rfl, ⟨rfl, rfl, by decide, fun i hi => absurd hi (Nat.not_lt_zero i)⟩, rfl, rfl, by decide, firstRefusalAt_almostFull 7⟩

/-- For FLUSH, CLOSE and, in phase ENC_PIX, ENC_FINISH: nothing pending, a partial byte, the full buffer, a refusal. -/
theorem witness_FlushEmitsThePendingBits :
    ({ idle with wclosed := true } : State).wclosed = true ∧
      (idle.err = .noError ∧ idle.wclosed = false ∧ SinkAccepts idle ((idle.wpos.toNat + 7) / 8)) ∧
      SinkAccepts { idle with wpos := 9 } (((9 : BitVec 16).toNat + 7) / 8) ∧
      (almostFull 4095).wclosed = false ∧ 4095 < ((almostFull 4095).wpos.toNat + 7) / 8 ∧ FirstRefusalAt (almostFull 4095) 4095 :=
  ⟨rfl, ⟨rfl, rfl, fun i hi => absurd hi (Nat.not_lt_zero i)⟩, by unfold SinkAccepts; decide, rfl,
    Nat.lt_of_lt_of_eq (Nat.lt_succ_self 4095) rfl, firstRefusalAt_almostFull 4095⟩

theorem witness_CloseFlushesAndClosesOnce :
    ({ idle with wclosed := true } : State).wclosed = true ∧
      (idle.err = .noError ∧ idle.wclosed = false ∧ SinkAccepts idle ((idle.wpos.toNat + 7) / 8)) ∧
      (almostFull 0).wclosed = false ∧ 0 < ((almostFull 0).wpos.toNat + 7) / 8 ∧ FirstRefusalAt (almostFull 0) 0 :=
  ⟨rfl, ⟨rfl, rfl, fun i hi => absurd hi (Nat.not_lt_zero i)⟩, rfl, by decide, firstRefusalAt_almostFull 0⟩

theorem witness_ClosedWriterRefusesWriting :
    ({ encodingPixels with wclosed := true } : State).err = .noError ∧ ({ encodingPixels with wclosed := true } : State).wclosed = true := by
  decide

theorem witness_HeaderBytesAreLittleEndian :
    idle.err = .noError ∧ idle.wclosed = false ∧ idle.wpos = 0 ∧ SinkAccepts idle 16 :=
  ⟨rfl, rfl, rfl, by unfold SinkAccepts; decide⟩

theorem witness_SrcWriteStoresOneByte :
    idle.err = .noError ∧ (reading []).ropen = true ∧ idle.ropen = false ∧ (0xFFFFFFFE : Word).toNat < idle.params.srcMax.toNat ∧
      idle.params.srcMax.toNat ≤ (0xFFFFFFFF : Word).toNat := by decide

theorem witness_ReaderOpenFixesTheLength :
    idle.err = .noError ∧ (reading []).ropen = true ∧ idle.ropen = false ∧ (0xFFFFFFFF : Word).toNat ≤ idle.params.srcMax.toNat ∧
      ({ idle with params := ⟨4, .firstSeen⟩ } : State).params.srcMax.toNat < (5 : Word).toNat := by decide

theorem witness_ReadBitsReturnsTheFieldAtTheCursor :
    (opField 0x201A = 0x1A ∧ rsvField 0x201A = 0 ∧ (widthField 0x201A).toNat ≤ 32) ∧
      32 < (33 : BitVec 6).toNat ∧ idle.ropen = false ∧ (reading [0xFF, 0xAD, 0xBE, 0xFF]).ropen = true ∧
      8 * (reading [0xFF]).srcLen.toNat < (reading [0xFF]).rpos.toNat + (9 : BitVec 6).toNat ∧
      (Readable (reading [0xFF, 0xAD, 0xBE, 0xFF]) 32 ∧ FieldAt (reading [0xFF, 0xAD, 0xBE, 0xFF]) 0 32 0xFFBEADFF) ∧
      (Readable (reading []) 0 ∧ FieldAt (reading []) 0 0 0) ∧
      (({ idle with srcLen := 1, ropen := true } : State).rpos.toNat + 8 ≤ 8 * ({ idle with srcLen := 1, ropen := true } : State).srcLen.toNat ∧
        ¬SrcWritten { idle with srcLen := 1, ropen := true } 0 8) := by
  refine ⟨by decide, by decide, rfl, rfl, by decide, ⟨?_, ?_⟩, ⟨?_, ?_⟩, by decide, ?_⟩
  · unfold Readable SrcWritten; decide
  · exact fieldAt_of_bits (by decide) (by decide)
  · unfold Readable SrcWritten; decide
  · exact fieldAt_of_bits (by decide) (by decide)
  · unfold SrcWritten; decide

/-- For READ_HEADER and DEC_HEADER: a header, a wrong magic, a source one byte short. -/
theorem witness_ReadHeaderReturnsTheThreeFields :
    idle.ropen = false ∧ (reading headerBytes).ropen = true ∧ (reading headerBytes).cphase = .idle ∧ (reading headerBytes).rpos = 0 ∧
      (Readable (reading headerBytes) 128 ∧ FieldAt (reading headerBytes) 0 32 0xFFBEADFF ∧ FieldAt (reading headerBytes) 32 32 2 ∧
        FieldAt (reading headerBytes) 64 32 3 ∧ FieldAt (reading headerBytes) 96 32 3) ∧
      (Readable (reading [0xFE, 0xAD, 0xBE, 0xFF]) 32 ∧ FieldAt (reading [0xFE, 0xAD, 0xBE, 0xFF]) 0 32 0xFFBEADFE) ∧
      (8 * (reading (headerBytes.take 15)).srcLen.toNat < 128 ∧ SrcWritten (reading (headerBytes.take 15)) 0 120) := by
  refine ⟨rfl, rfl, rfl, rfl, ⟨?_, ?_, ?_, ?_, ?_⟩, ⟨?_, ?_⟩, by decide, ?_⟩
  · unfold Readable SrcWritten; decide
  · exact fieldAt_of_bits (by decide) (by decide)
  · exact fieldAt_of_bits (by decide) (by decide)
  · exact fieldAt_of_bits (by decide) (by decide)
  · exact fieldAt_of_bits (by decide) (by decide)
  · unfold Readable SrcWritten; decide
  · exact fieldAt_of_bits (by decide) (by decide)
  · unfold SrcWritten; decide

theorem witness_WrittenBitsReadBack :
    (32 : BitVec 6).toNat ≤ 32 ∧ (0xFFFFFFFF : Word).toNat < 2 ^ (32 : BitVec 6).toNat ∧ (0 : Word).toNat < 2 ^ (0 : BitVec 6).toNat ∧
      idle.err = .noError ∧ idle.wclosed = false ∧ idle.wpos = 0 ∧ SinkAccepts idle (((32 : BitVec 6).toNat + 7) / 8) ∧
      idle.ropen = false ∧ ((32 : BitVec 6).toNat + 7) / 8 ≤ idle.params.srcMax.toNat :=
  ⟨by decide, by decide, by decide, rfl, rfl, rfl, by unfold SinkAccepts; decide, rfl, by decide⟩

theorem witness_WrittenHeaderReadsBack :
    idle.err = .noError ∧ idle.wclosed = false ∧ idle.wpos = 0 ∧ SinkAccepts idle 16 ∧ idle.ropen = false ∧
      16 ≤ idle.params.srcMax.toNat ∧ ([0xFE, 0xAD, 0xBE, 0xFF] : List Byte).length = 4 ∧
      4 ≤ (16 : Word).toNat ∧ (16 : Word).toNat ≤ idle.params.srcMax.toNat ∧
      ([0xFE, 0xAD, 0xBE, 0xFF] : List Byte) ≠ [0xFF, 0xAD, 0xBE, 0xFF] :=
  ⟨rfl, rfl, rfl, by unfold SinkAccepts; decide, rfl, by decide, rfl, by decide, by decide, by decide⟩

/-- For QUANTIZE, DEQUANTIZE, their two round trips and RANK_WIDTH. -/
theorem witness_QuantizeReturnsTheKey : idle.err = .noError := rfl

theorem witness_RankWidthIsTheLeastWidth : idle.err = .noError ∧ (1 : Word).toNat ≤ 1 ∧ 2 ≤ (2 : Word).toNat := by decide

theorem witness_RankClearEmptiesTheCounter : ranked.err = .noError ∧ ranked.cphase = .idle ∧ encoding.cphase ≠ .idle := by decide

theorem witness_RankCountCountsThePixelsKey :
    counted.err = .noError ∧ counted.cphase = .idle ∧ counted.total.toNat ≠ 2 ^ 64 - 1 ∧
      ({ counted with total := 0xFFFFFFFFFFFFFFFF } : State).total.toNat = 2 ^ 64 - 1 ∧
      (IsKeyOf 0x3F000 ⟨255, 3, 0⟩ ∧ cntEntry counted 0x3F000 ≠ 0) ∧ (IsKeyOf 0x1041 ⟨4, 7, 5⟩ ∧ cntEntry counted 0x1041 = 0) := by
  unfold IsKeyOf; decide

theorem witness_RankSortOrdersTheKeys :
    counted.err = .noError ∧ counted.cphase = .idle ∧ (seenKeys counted).Nodup ∧ encoding.cphase ≠ .idle := by decide

theorem witness_RankingIsADescendingBijection :
    Invariant counted ∧ counted.err = .noError ∧ counted.cphase = .idle ∧ ∃ t, exec .rankSort counted = .next t :=
  ⟨counted_invariant, rfl, rfl, _, rfl⟩

theorem witness_RankSortIsIdempotent :
    counted.err = .noError ∧ counted.cphase = .idle ∧ ∃ t, exec .rankSort counted = .next t := ⟨rfl, rfl, _, rfl⟩

theorem witness_RankLookupReturnsTheRank :
    ranked.err = .noError ∧ ranked.rsorted = true ∧ cntEntry ranked 0x2147 ≠ 0 ∧ cntEntry ranked 0x1041 = 0 ∧
      counted.rsorted = false := by decide

theorem witness_PalReadReturnsTheKey :
    ranked.err = .noError ∧ (2 : Word).toNat < ranked.palLen.toNat ∧ ranked.palLen.toNat ≤ (3 : Word).toNat := by decide

theorem witness_EncHeaderOpensTheStream :
    ranked.err = .noError ∧ ranked.cphase = .idle ∧ ranked.rsorted = true ∧ ranked.wclosed = false ∧ ranked.wpos = 0 ∧
      ranked.sinkcnt = 0 ∧ (2 : Word).toNat * (3 : Word).toNat = ranked.total.toNat ∧
      ({ ranked with ndist := 0x40000 } : State).ndist.toNat ≤ 2 ^ 18 ∧ 2 ^ 18 < ({ ranked with ndist := 0x40001 } : State).ndist.toNat ∧
      (2 : Word).toNat * (2 : Word).toNat ≠ ranked.total.toNat := by decide

theorem witness_EncPaletteWritesTheKeys :
    encoding.err = .noError ∧ encodingPixels.cphase ≠ .encPal ∧
      (encoding.cphase = .encPal ∧ encoding.wclosed = false ∧ encoding.wpos.toNat < 32768 ∧
        SinkAccepts encoding (bytesOffered encoding (18 * encoding.ncolors.toNat))) ∧
      (0 < bytesOffered { almostFull 0 with ncolors := 1, cphase := .encPal } 18 ∧
        FirstRefusalAt { almostFull 0 with ncolors := 1, cphase := .encPal } 0) :=
  ⟨rfl, by decide, ⟨rfl, rfl, by decide, fun i hi => absurd hi (Nat.not_lt_zero i)⟩, by decide, firstRefusalAt_almostFull 0⟩

theorem witness_EncPixelWritesTheRankCode :
    encodingPixels.err = .noError ∧ IsKeyOf 0x2147 ⟨10, 20, 30⟩ ∧
      (encodingPixels.cphase = .encPix ∧ encodingPixels.wclosed = false ∧ encodingPixels.pixrem ≠ 0 ∧
        cntEntry encodingPixels 0x2147 ≠ 0 ∧ encodingPixels.wpos.toNat < 32768 ∧
        SinkAccepts encodingPixels (bytesOffered encodingPixels encodingPixels.rcw.toNat)) ∧
      ({ encodingPixels with pixrem := 0 } : State).pixrem = 0 ∧ cntEntry encodingPixels 0 = 0 ∧
      (0 < bytesOffered { encodingPixels with wpos := 32767, sinkAnswers := [false] } 2 ∧
        FirstRefusalAt { encodingPixels with wpos := 32767, sinkAnswers := [false] } 0) :=
  ⟨rfl, by unfold IsKeyOf; decide,
    ⟨rfl, rfl, by decide, by decide, by decide, fun i hi => absurd hi (Nat.not_lt_zero i)⟩, rfl, by decide, by decide,
    fun i hi => absurd hi (Nat.not_lt_zero i), rfl⟩

theorem witness_EncFinishClosesTheStream :
    ({ encodingPixels with pixrem := 0 } : State).cphase = .encPix ∧ ({ encodingPixels with pixrem := 0 } : State).wclosed = false ∧
      SinkAccepts { encodingPixels with pixrem := 0, wpos := 9 } (((9 : BitVec 16).toNat + 7) / 8) ∧ encodingPixels.pixrem ≠ 0 ∧
      (0 < (({ encodingPixels with pixrem := 0, wpos := 1, sinkAnswers := [false] } : State).wpos.toNat + 7) / 8 ∧
        FirstRefusalAt { encodingPixels with pixrem := 0, wpos := 1, sinkAnswers := [false] } 0) :=
  ⟨rfl, rfl, by unfold SinkAccepts; decide, by decide, by decide, fun i hi => absurd hi (Nat.not_lt_zero i), rfl⟩

theorem witness_DecHeaderLoadsTheHeader :
    (reading headerBytes).err = .noError ∧ encoding.cphase ≠ .idle ∧ (0x40000 : Word).toNat ≤ 2 ^ 18 ∧ 2 ^ 18 < (0x40001 : Word).toNat ∧
      FieldAt (reading [0xFF, 0xAD, 0xBE, 0xFF, 2, 0, 0, 0, 3, 0, 0, 0, 1, 0, 4, 0]) 96 32 0x40001 ∧
      FieldAt (reading [0xFF, 0xAD, 0xBE, 0xFF, 2, 0, 0, 0, 3, 0, 0, 0, 0, 0, 4, 0]) 96 32 0x40000 :=
  ⟨rfl, by decide, by decide, by decide, fieldAt_of_bits (by decide) (by decide), fieldAt_of_bits (by decide) (by decide)⟩

theorem witness_DecPaletteLoadsTheEntries :
    decoding.err = .noError ∧ idle.cphase ≠ .decPal ∧ decoding.cphase = .decPal ∧ decoding.ncolors.toNat ≤ 2 ^ 18 ∧
      Readable decoding (18 * decoding.ncolors.toNat) ∧
      (8 * decoding.srcLen.toNat < decoding.rpos.toNat + 18 * (4 : Word).toNat ∧ SrcWritten decoding 0 56) := by
  refine ⟨rfl, by decide, rfl, by decide, ?_, by decide, ?_⟩
  · unfold Readable SrcWritten; decide
  · unfold SrcWritten; decide

theorem witness_DecPixelLooksUpTheRankCode :
    (decodingPixel 2).err = .noError ∧ idle.cphase ≠ .decPix ∧ (decodingPixel 2).cphase = .decPix ∧ (decodingPixel 2).pixrem ≠ 0 ∧
      (decodingPixel 2).rcw.toNat ≤ 32 ∧ Readable (decodingPixel 2) 2 ∧ FieldAt (decodingPixel 2) 0 2 2 ∧
      (2 : Word).toNat < (decodingPixel 2).ncolors.toNat ∧ FieldAt (decodingPixel 3) 0 2 3 ∧
      (decodingPixel 3).ncolors.toNat ≤ (3 : Word).toNat ∧
      8 * (decodingPixel 2).srcLen.toNat < ({ decodingPixel 2 with rpos := 7 } : State).rpos.toNat + (decodingPixel 2).rcw.toNat := by
  refine ⟨rfl, by decide, rfl, by decide, by decide, ?_, ?_, by decide, ?_, by decide, by decide⟩
  · unfold Readable SrcWritten; decide
  · exact fieldAt_of_bits (by decide) (by decide)
  · exact fieldAt_of_bits (by decide) (by decide)

theorem witness_EncodedImageHasTheFileLayout :
    1 ≤ idle.params.srcMax.toNat ∧ [(⟨0xFF, 0x00, 0x80⟩ : Pixel)].length = (1 : Word).toNat * (1 : Word).toNat ∧
      SinkAccepts idle (5 * [(⟨0xFF, 0x00, 0x80⟩ : Pixel)].length + 17) :=
  ⟨by decide, rfl, by unfold SinkAccepts; decide⟩

/-- A grid of one pixel and a grid of none; the decoder's SRC holds either stream. -/
theorem witness_DecodingAnEncodedImageGivesTheQuantizedPixels :
    1 ≤ idle.params.srcMax.toNat ∧ [(⟨0xFF, 0x00, 0x80⟩ : Pixel)].length = (1 : Word).toNat * (1 : Word).toNat ∧
      ([] : List Pixel).length = (0 : Word).toNat * (5 : Word).toNat ∧
      SinkAccepts idle (5 * [(⟨0xFF, 0x00, 0x80⟩ : Pixel)].length + 17) ∧ 22 ≤ State.reset.params.srcMax.toNat :=
  ⟨by decide, rfl, rfl, by unfold SinkAccepts; decide, by decide⟩

end Sys2Proof.Tests
end

section
/-! The parts of the invariant (R54), and what the shared operations do to each. -/

namespace Sys2Proof.Machine

/-! ### The invariant in parts -/

/-- SRC in its form and range, the cursor and the source's length in theirs (R54 item 2). -/
def SourceOk (s : State) : Prop :=
  CellsWf srcUnlisted s.src ∧ CellsBelow s.params.srcMax.toNat s.src ∧
    s.rpos.toNat ≤ 8 * s.srcLen.toNat ∧ s.srcLen.toNat ≤ s.params.srcMax.toNat

/-- A table of one entry for each key or rank, in its form and range. -/
def TableOk {α : Type} (unlisted : Option α) (m : List (Nat × α)) : Prop := CellsWf unlisted m ∧ CellsBelow 262144 m

/-- The counts and the ranking (R54 items 3 and 4), and the tables they stand in. -/
def RankerOk (s : State) : Prop :=
  (TableOk cntUnlisted s.cnt ∧ TableOk tableUnlisted s.seen ∧ TableOk tableUnlisted s.pal ∧ TableOk tableUnlisted s.rankof) ∧
    CountsConsistent s ∧ (s.rsorted = true → RankingConsistent s) ∧ TablesSpecified s

/-- What the phases promise (R54 items 5 to 7, R145). -/
def CodecOk (s : State) : Prop :=
  (s.cphase = .encPal ∨ s.cphase = .encPix ∨ s.cphase = .encDone →
    s.rsorted = true ∧ s.ncolors.toNat = s.ndist.toNat ∧ s.ndist.toNat ≤ 2 ^ 18) ∧
  (s.cphase = .decPal ∨ s.cphase = .decPix → s.ncolors.toNat ≤ 2 ^ 18) ∧
  (s.cphase = .decPix → s.palLen.toNat = s.ncolors.toNat) ∧
  (s.cphase ≠ .idle → s.rcw.toNat = rankCodeWidth s.ncolors.toNat) ∧
  UnrankedWhileDecoding s

/-- What the invariant says of a state with ERR = 0, but for SRC_MAX (`invariant_iff_healthy`), by the unit it speaks of. -/
structure Healthy (s : State) : Prop where
  buffer : BufferOk s
  source : SourceOk s
  ranker : RankerOk s
  codec : CodecOk s

theorem invariant_iff_healthy {s : State} (h : s.err = .noError) :
    Invariant s ↔ 1 ≤ s.params.srcMax.toNat ∧ Healthy s := by
  constructor
  · rintro ⟨hp, ⟨wb, ws, wc, we, wp, wr⟩, ⟨rb, rs, rc, re, rp, rr⟩, hok⟩
    obtain ⟨⟨hw, ⟨hpos, hlen⟩, hcounts, hrank, henc, hdec, hpal, hwidth⟩, htab, hun⟩ := hok h
    exact ⟨hp, ⟨wb, rb, by omega⟩, ⟨ws, rs, hpos, hlen⟩, ⟨⟨⟨wc, rc⟩, ⟨we, re⟩, ⟨wp, rp⟩, wr, rr⟩, hcounts, hrank, htab⟩,
      henc, hdec, hpal, hwidth, hun⟩
  · rintro ⟨hp, ⟨wb, rb, hw⟩, ⟨ws, rs, hpos, hlen⟩, ⟨⟨⟨wc, rc⟩, ⟨we, re⟩, ⟨wp, rp⟩, wr, rr⟩, hcounts, hrank, htab⟩,
      henc, hdec, hpal, hwidth, hun⟩
    exact ⟨hp, ⟨wb, ws, wc, we, wp, wr⟩, ⟨rb, rs, rc, re, rp, rr⟩, fun _ =>
      ⟨⟨by omega, ⟨hpos, hlen⟩, hcounts, hrank, henc, hdec, hpal, hwidth⟩, htab, hun⟩⟩

theorem TableOk.nil {α : Type} (u : Option α) : TableOk u ([] : List (Nat × α)) := ⟨nil_wf u, nil_below _⟩

theorem TableOk.writeCell {α : Type} [DecidableEq α] {u : Option α} {m : List (Nat × α)} {k : Nat} (v : α) (hk : k < 262144)
    (h : TableOk u m) : TableOk u (writeCell u m k v) := ⟨writeCell_wf k v h.1, writeCell_below v hk h.2⟩

/-- The idle phase promises nothing. -/
theorem codecOk_of_idle {s : State} (h : s.cphase = .idle) : CodecOk s := by simp [CodecOk, UnrankedWhileDecoding, h]

/-! ### Reset and the error entry -/

/-- No memory lists an entry. -/
def EmptyMemories (s : State) : Prop :=
  s.wbuf = [] ∧ s.src = [] ∧ s.cnt = [] ∧ s.seen = [] ∧ s.pal = [] ∧ s.rankof = []

theorem countsConsistent_of_empty {s : State} (hcnt : ∀ k, cntEntry s k = 0) (hn : s.ndist = 0) (ht : s.total = 0) :
    CountsConsistent s := by
  have hkeys : seenKeys s = [] := by simp [seenKeys, hn]
  simp [CountsConsistent, hkeys, hcnt, ht]

/-- The reset values of R57, with nothing listed, meet the invariant. -/
theorem invariant_of_resetValues {s : State} (hp : 1 ≤ s.params.srcMax.toNat) (hv : HasResetValues s) (hm : EmptyMemories s) :
    Invariant s := by
  obtain ⟨⟨hwpos, -, -⟩, ⟨hlen, hrpos, -, -⟩, ⟨hcnt, hn, ht, hpl, hrs⟩, ⟨hph, -⟩, herr, -⟩ := hv
  obtain ⟨mb, ms, mc, me, mp, mr⟩ := hm
  refine (invariant_iff_healthy herr).2 ⟨hp, ?buffer, ?source, ⟨?tables, ?counts, ?ranking, ?specified⟩, codecOk_of_idle hph⟩
  case buffer => exact ⟨mb ▸ nil_wf _, mb ▸ nil_below _, by simp [hwpos]⟩
  case source => exact ⟨ms ▸ nil_wf _, ms ▸ nil_below _, by simp [hrpos], by simp [hlen]⟩
  case tables => exact ⟨mc ▸ TableOk.nil _, me ▸ TableOk.nil _, mp ▸ TableOk.nil _, mr ▸ TableOk.nil _⟩
  case counts => exact countsConsistent_of_empty hcnt hn ht
  case ranking => simp [hrs]
  case specified => simp [TablesSpecified, hn, hpl]

theorem cntEntry_of_nil {s : State} (h : s.cnt = []) (k : Key) : cntEntry s k = 0 := by
  simp [cntEntry, h, cntUnlisted]

theorem srcByte?_of_nil {s : State} (h : s.src = []) (j : Nat) : srcByte? s j = none := by
  simp [srcByte?, h, srcUnlisted]

theorem resetState_hasResetValues (s : State) : HasResetValues (resetState s) :=
  ⟨⟨rfl, rfl, rfl⟩, ⟨rfl, rfl, rfl, srcByte?_of_nil rfl⟩, ⟨cntEntry_of_nil rfl, rfl, rfl, rfl, rfl⟩,
    ⟨rfl, rfl, rfl, rfl, rfl, rfl⟩, ⟨rfl, rfl, rfl, rfl, rfl, rfl⟩⟩

/-- Power-up acts as reset (R57). -/
theorem resetWith_hasResetValues (p : Params) : HasResetValues (State.resetWith p) :=
  resetState_hasResetValues (State.resetWith p)

theorem resetState_invariant {s : State} (hp : 1 ≤ s.params.srcMax.toNat) : Invariant (resetState s) :=
  invariant_of_resetValues hp (resetState_hasResetValues s) ⟨rfl, rfl, rfl, rfl, rfl, rfl⟩

theorem resetWith_invariant {p : Params} (hp : 1 ≤ p.srcMax.toNat) : Invariant (State.resetWith p) :=
  invariant_of_resetValues hp (resetWith_hasResetValues p) ⟨rfl, rfl, rfl, rfl, rfl, rfl⟩

/-- The response registers are no part of the invariant. -/
@[simp] theorem respond_invariant (r : Response) (s : State) : Invariant (respond r s) ↔ Invariant s := Iff.rfl

/-- The first error leaves a state the invariant admits: free contents in canonical form, and no promise while ERR ≠ 0 (R165). -/
theorem raiseError_invariant {e : ErrCode} {s : State} (he : e ≠ .noError) (hs : s.err = .noError)
    (hp : 1 ≤ s.params.srcMax.toNat) : Invariant (raiseError e s) := by
  obtain ⟨wb, rb⟩ := freeTable_wf Config.wbufBytes 8 s.freeDraws 1 (by decide)
  obtain ⟨wc, rc⟩ := freeTable_wf tableSize 64 s.freeDraws 8 (by decide)
  rw [raiseError_noError hs, respond_invariant]
  exact ⟨hp, ⟨wb, nil_wf _, wc, nil_wf _, nil_wf _, nil_wf _⟩, ⟨rb, nil_below _, rc, nil_below _, nil_below _, nil_below _⟩,
    fun h => absurd h he⟩

/-! ### The writer's, the reader's and the palette's operations -/

theorem OnlyWriter.healthy {s t : State} (h : OnlyWriter s t) (hb : BufferOk s → BufferOk t) (hs : Healthy s) : Healthy t := by
  refine ⟨hb hs.buffer, ?source, ?ranker, ?codec⟩
  case source => rw [h]; exact hs.source
  case ranker => rw [h]; exact hs.ranker
  case codec => rw [h]; exact hs.codec

theorem OnlyRpos.healthy {s t : State} (h : OnlyRpos s t)
    (hr : s.rpos.toNat ≤ 8 * s.srcLen.toNat → t.rpos.toNat ≤ 8 * s.srcLen.toNat) (hs : Healthy s) : Healthy t := by
  obtain ⟨wsrc, rsrc, hpos, hlen⟩ := hs.source
  have hpos' := hr hpos
  refine ⟨?buffer, ?source, ?ranker, ?codec⟩
  case buffer => rw [h]; exact hs.buffer
  case source => rw [h]; exact ⟨wsrc, rsrc, hpos', hlen⟩
  case ranker => rw [h]; exact hs.ranker
  case codec => rw [h]; exact hs.codec

/-! ### RANK_CLEAR, RANK_COUNT and RANK_SORT -/

theorem seenKeys_length (s : State) : (seenKeys s).length = s.ndist.toNat := by simp [seenKeys]

/-- There are 2^18 keys (R19), so no list holds more of them without repetition. -/
theorem length_le_of_nodup {keys : List Key} (h : keys.Nodup) : keys.length ≤ 2 ^ 18 := by
  have hsub : keys.map BitVec.toNat ⊆ List.range (2 ^ 18) := by
    intro n hn
    obtain ⟨k, -, rfl⟩ := List.mem_map.1 hn
    exact List.mem_range.2 k.isLt
  have hnodup : (keys.map BitVec.toNat).Nodup := h.map fun _ _ => BitVec.eq_of_toNat_eq
  simpa only [List.length_map, List.length_range] using (hnodup.subperm hsub).length_le

/-- R134: NDIST never exceeds the number of keys. -/
theorem CountsConsistent.ndist_le {s : State} (h : CountsConsistent s) : s.ndist.toNat ≤ 2 ^ 18 := by
  rw [← seenKeys_length]
  exact length_le_of_nodup h.1

/-- A key not counted yet leaves room for one more key in SEEN. -/
theorem CountsConsistent.ndist_lt {s : State} (h : CountsConsistent s) {k : Key} (hk : cntEntry s k = 0) :
    s.ndist.toNat < 2 ^ 18 := by
  have hnew : k ∉ seenKeys s := fun hm => (h.2.1 k).1 hm hk
  have hle := length_le_of_nodup (List.nodup_cons.2 ⟨hnew, h.1⟩)
  rw [List.length_cons, seenKeys_length] at hle
  exact hle

/-- SEEN grows at its end where the key is new (R129). -/
theorem seenKeys_countKey {s : State} (h : CountsConsistent s) (k : Key) :
    seenKeys (countKey k s) = if cntEntry s k = 0 then seenKeys s ++ [k] else seenKeys s := by
  by_cases hk : cntEntry s k = 0
  · have hlt := h.ndist_lt hk
    have hn : (countKey k s).ndist.toNat = s.ndist.toNat + 1 := by
      rw [countKey_ndist, if_pos hk, BitVec.toNat_add]
      exact Nat.mod_eq_of_lt (by simp; omega)
    rw [if_pos hk, seenKeys, hn, List.range_succ, List.map_append, List.map_singleton, seenEntry_countKey, if_pos ⟨hk, rfl⟩]
    congr 1
    refine List.map_congr_left fun i hi => ?_
    rw [seenEntry_countKey, if_neg fun hh => (List.mem_range.1 hi).ne hh.2]
  · rw [if_neg hk, seenKeys, countKey_ndist, if_neg hk]
    refine List.map_congr_left fun i _ => ?_
    rw [seenEntry_countKey, if_neg fun hh => hk hh.1]

/-- Raising one term of a sum over a list without repetition raises the sum by as much. -/
theorem sum_map_succ_at {keys : List Key} {k : Key} (f g : Key → Nat) (hn : keys.Nodup) (hk : k ∈ keys) (hself : g k = f k + 1)
    (hother : ∀ j, j ≠ k → g j = f j) : (keys.map g).sum = (keys.map f).sum + 1 := by
  have hperm := List.perm_cons_erase hk
  have hrest : (keys.erase k).map g = (keys.erase k).map f :=
    List.map_congr_left fun j hj => hother j (hn.mem_erase_iff.1 hj).1
  rw [(hperm.map g).sum_eq, (hperm.map f).sum_eq, List.map_cons, List.map_cons, List.sum_cons, List.sum_cons, hrest, hself]
  omega

theorem total_countKey_toNat {s : State} (ht : s.total.toNat ≠ 2 ^ 64 - 1) (k : Key) :
    (countKey k s).total.toNat = s.total.toNat + 1 := by
  have hlt := s.total.isLt
  rw [countKey_total, BitVec.toNat_add]
  exact Nat.mod_eq_of_lt (by simp; omega)

/-- A count is at most TOTAL, so it has room where TOTAL has. -/
theorem cntEntry_countKey_self_toNat {s : State} (h : CountsConsistent s) (ht : s.total.toNat ≠ 2 ^ 64 - 1) (k : Key) :
    (cntEntry (countKey k s) k).toNat = (cntEntry s k).toNat + 1 := by
  have hlt := s.total.isLt
  have hle := cntEntry_le_total h k
  rw [cntEntry_countKey, if_pos rfl, BitVec.toNat_add]
  exact Nat.mod_eq_of_lt (by simp; omega)

theorem cntEntry_countKey_ne {k j : Key} (s : State) (h : j ≠ k) : cntEntry (countKey k s) j = cntEntry s j := by
  rw [cntEntry_countKey, if_neg h]

/-- One occurrence keeps R54 item 3, where TOTAL has room for it. -/
theorem countKey_countsConsistent {s : State} (h : CountsConsistent s) (ht : s.total.toNat ≠ 2 ^ 64 - 1) (k : Key) :
    CountsConsistent (countKey k s) := by
  obtain ⟨hnodup, hmem, htotal⟩ := id h
  have hself := cntEntry_countKey_self_toNat h ht k
  have hother (j : Key) (hj : j ≠ k) : (cntEntry (countKey k s) j).toNat = (cntEntry s j).toNat := by
    rw [cntEntry_countKey_ne s hj]
  have hcounted : cntEntry (countKey k s) k ≠ 0 := fun h0 => by simp [h0] at hself
  by_cases hk : cntEntry s k = 0
  · have hnew : k ∉ seenKeys s := fun hm => (hmem k).1 hm hk
    have hkeys : seenKeys (countKey k s) = seenKeys s ++ [k] := by rw [seenKeys_countKey h, if_pos hk]
    refine ⟨?_, fun j => ?_, ?_⟩
    · rw [hkeys]
      exact hnodup.append (List.nodup_singleton k) (by simpa using hnew)
    · rw [hkeys, List.mem_append, List.mem_singleton, hmem]
      rcases eq_or_ne j k with rfl | hj
      · exact iff_of_true (.inr rfl) hcounted
      · rw [cntEntry_countKey_ne s hj, or_iff_left hj]
    · have hsame : (seenKeys s).map (fun j => (cntEntry (countKey k s) j).toNat) =
          (seenKeys s).map (fun j => (cntEntry s j).toNat) :=
        List.map_congr_left fun j hj => hother j (ne_of_mem_of_not_mem hj hnew)
      rw [hkeys, List.map_append, List.sum_append, hsame, ← htotal, total_countKey_toNat ht, List.map_singleton,
        List.sum_singleton, hself, hk]
      rfl
  · have hkeys : seenKeys (countKey k s) = seenKeys s := by rw [seenKeys_countKey h, if_neg hk]
    refine ⟨hkeys ▸ hnodup, fun j => ?_, ?_⟩
    · rw [hkeys, hmem]
      rcases eq_or_ne j k with rfl | hj
      · exact iff_of_true hk hcounted
      · rw [cntEntry_countKey_ne s hj]
    · rw [hkeys, total_countKey_toNat ht, htotal]
      exact (sum_map_succ_at _ _ hnodup ((hmem k).2 hk) hself hother).symm

theorem cellAt?_writeCell_ne_none {m : List (Nat × Key)} {i j : Nat} {v : Key} (h : j ≠ i → cellAt? m j ≠ none) :
    cellAt? (writeCell tableUnlisted m i v) j ≠ none := by
  rw [writeCell, if_neg (by simp [tableUnlisted]), cellAt?_putCell]
  split
  · simp
  · next hj => exact h hj

theorem countKey_rankerOk {s : State} (h : RankerOk s) (ht : s.total.toNat ≠ 2 ^ 64 - 1) (k : Key) : RankerOk (countKey k s) := by
  obtain ⟨⟨hcnt, hseen, hpal, hrankof⟩, hcounts, -, hseenAt, hpalAt⟩ := h
  refine ⟨⟨hcnt.writeCell _ k.isLt, ?seen, hpal, hrankof⟩, countKey_countsConsistent hcounts ht k, by simp, ?seenAt, hpalAt⟩
  case seen =>
    rw [countKey_seen]
    split
    · next hk => exact hseen.writeCell k (hcounts.ndist_lt hk)
    · exact hseen
  case seenAt =>
    intro i hi
    rw [← seenKeys_length, seenKeys_countKey hcounts] at hi
    rw [countKey_seen]
    split at hi
    · next hk =>
      rw [List.length_append, seenKeys_length, List.length_singleton] at hi
      rw [if_pos hk]
      exact cellAt?_writeCell_ne_none fun hne => hseenAt i (by omega)
    · next hk =>
      rw [seenKeys_length] at hi
      rw [if_neg hk]
      exact hseenAt i hi

/-- The state RANK_SORT leaves, but for the response (R130). -/
def afterRankSort (s : State) : State := { storeRanking (rankedKeys s) 0 s with palLen := s.ndist, rsorted := true }

theorem afterRankSort_eq (s : State) :
    afterRankSort s = { s with pal := (afterRankSort s).pal, rankof := (afterRankSort s).rankof, palLen := s.ndist, rsorted := true } := by
  conv_lhs => rw [afterRankSort, storeRanking_only (rankedKeys s) 0 s]
  rfl

theorem afterRankSort_pal (s : State) (i : Nat) (hi : i < (rankedKeys s).length) :
    readCell tableUnlisted (afterRankSort s).pal i = some (rankedKeys s)[i] := by
  show readCell tableUnlisted (storeRanking (rankedKeys s) 0 s).pal i = _
  rw [storeRanking_pal, if_pos (Nat.zero_le i), Nat.sub_zero, List.getElem?_eq_getElem hi, Option.some_or]

theorem palEntry_afterRankSort (s : State) (i : Nat) (hi : i < (rankedKeys s).length) : palEntry (afterRankSort s) i = (rankedKeys s)[i] := by
  rw [palEntry, afterRankSort_pal s i hi, Option.getD_some]

theorem rankEntry_afterRankSort {s : State} (hn : (seenKeys s).Nodup) (i : Nat) (hi : i < (rankedKeys s).length) :
    (rankEntry (afterRankSort s) (rankedKeys s)[i]).toNat = i := by
  have hnodup : (rankedKeys s).Nodup := (rankedKeys_perm s).nodup_iff.2 hn
  have hrank : readCell tableUnlisted (afterRankSort s).rankof (rankedKeys s)[i].toNat = some (BitVec.ofNat 18 (0 + i)) :=
    storeRanking_rankof (rankedKeys s) 0 s hnodup hi
  rw [rankEntry, hrank, Option.getD_some, Nat.zero_add, BitVec.toNat_ofNat]
  exact Nat.mod_eq_of_lt (lt_of_lt_of_le hi (length_le_of_nodup hnodup))

theorem paletteKeys_afterRankSort (s : State) : paletteKeys (afterRankSort s) = rankedKeys s := by
  refine List.ext_getElem ?_ fun i hi hi' => ?_
  · rw [rankedKeys_length, paletteKeys, List.length_map, List.length_range]
    rfl
  · simpa only [paletteKeys, List.getElem_map, List.getElem_range] using palEntry_afterRankSort s i hi'

/-- RANK_SORT establishes R54 item 4. -/
theorem afterRankSort_rankingConsistent {s : State} (hn : (seenKeys s).Nodup) : RankingConsistent (afterRankSort s) := by
  have hlen : (rankedKeys s).length = (afterRankSort s).palLen.toNat := rankedKeys_length s
  have hcnt (k : Key) : cntEntry (afterRankSort s) k = cntEntry s k := by rw [afterRankSort_eq]; rfl
  have hseen : seenKeys (afterRankSort s) = seenKeys s := by rw [afterRankSort_eq]; rfl
  refine ⟨?length, ?perm, fun i hi => ?descending, fun i hi => ?ranks⟩
  case length => rw [afterRankSort_eq]
  case perm => rw [paletteKeys_afterRankSort, hseen]; exact rankedKeys_perm s
  case descending =>
    have hordered := (List.pairwise_iff_getElem.1 (rankedKeys_sorted s)) i (i + 1) (by omega) (by omega) (by omega)
    rw [not_before_iff] at hordered
    rw [palEntry_afterRankSort s i (by omega), palEntry_afterRankSort s (i + 1) (by omega), hcnt, hcnt]
    omega
  case ranks =>
    rw [palEntry_afterRankSort s i (by omega)]
    exact rankEntry_afterRankSort hn i (by omega)

theorem afterRankSort_rankerOk {s : State} (h : RankerOk s) : RankerOk (afterRankSort s) := by
  obtain ⟨⟨hcnt, hseen, ⟨wpal, rpal⟩, wrank, rrank⟩, hcounts, -, hseenAt, -⟩ := h
  have hranking := afterRankSort_rankingConsistent hcounts.1
  have hlen : 0 + (rankedKeys s).length ≤ 262144 := by
    rw [rankedKeys_length, Nat.zero_add]
    exact hcounts.ndist_le
  obtain ⟨wpal', wrank'⟩ := storeRanking_wf (rankedKeys s) 0 s wpal wrank
  obtain ⟨rpal', rrank'⟩ := storeRanking_below (rankedKeys s) 0 s hlen rpal rrank
  have hpalAt : ∀ i, i < (afterRankSort s).palLen.toNat → cellAt? (afterRankSort s).pal i ≠ none := by
    intro i hi hnone
    have hread := afterRankSort_pal s i (by rw [rankedKeys_length]; exact hi)
    simp [readCell, hnone, tableUnlisted] at hread
  refine ⟨⟨?cnt, ?seen, ⟨wpal', rpal'⟩, wrank', rrank'⟩, ?counts, fun _ => hranking, ?seenAt, hpalAt⟩
  case cnt => rw [afterRankSort_eq]; exact hcnt
  case seen => rw [afterRankSort_eq]; exact hseen
  case counts => rw [afterRankSort_eq]; exact hcounts
  case seenAt => rw [afterRankSort_eq]; exact hseenAt

end Sys2Proof.Machine
end

section
/-! The registers the codec loads, and the phases it moves through (R54 items 5 to 7). -/

namespace Sys2Proof.Machine

/-- The width of a rank code fits RCW (R47). -/
theorem rankCodeWidth_le {n : Nat} (h : n ≤ 2 ^ 18) : rankCodeWidth n ≤ 18 := by
  unfold rankCodeWidth bitlen
  split
  · omega
  · rw [if_neg (by omega)]
    exact (Nat.log2_lt (by omega)).2 (by omega)

theorem loadHeader_rcw_toNat {rows cols numColors : Word} (h : numColors.toNat ≤ 2 ^ 18) (s : State) :
    (loadHeader rows cols numColors s).rcw.toNat = rankCodeWidth numColors.toNat := by
  rw [loadHeader_rcw, BitVec.toNat_ofNat]
  exact Nat.mod_eq_of_lt (lt_of_le_of_lt (rankCodeWidth_le h) (by decide))

theorem encHeader_healthy {s : State} (h : Healthy s) (hr : s.rsorted = true) (rows cols : Word) :
    Healthy { loadHeader rows cols (s.ndist.setWidth 32) s with cphase := .encPal } := by
  have hle := h.ranker.2.1.ndist_le
  have hn : (s.ndist.setWidth 32).toNat = s.ndist.toNat := by
    rw [BitVec.toNat_setWidth]
    exact Nat.mod_eq_of_lt (by omega)
  have hrcw : (loadHeader rows cols (s.ndist.setWidth 32) s).rcw.toNat = _ := loadHeader_rcw_toNat (hn ▸ hle) s
  refine ⟨h.buffer, h.source, h.ranker, fun _ => ⟨hr, hn, hle⟩, ?_, ?_, fun _ => hrcw, ?_⟩ <;> simp [UnrankedWhileDecoding]

theorem encPalette_healthy {s : State} (h : Healthy s) (hp : s.cphase = .encPal) : Healthy { s with cphase := .encPix } := by
  obtain ⟨henc, -, -, hrcw, -⟩ := h.codec
  refine ⟨h.buffer, h.source, h.ranker, fun _ => henc (.inl hp), ?_, ?_, fun _ => hrcw (by simp [hp]), ?_⟩ <;>
    simp [UnrankedWhileDecoding]

theorem encFinish_healthy {s : State} (h : Healthy s) (hp : s.cphase = .encPix) :
    Healthy { s with wclosed := true, cphase := .encDone } := by
  obtain ⟨henc, -, -, hrcw, -⟩ := h.codec
  refine ⟨h.buffer, h.source, h.ranker, fun _ => henc (.inr (.inl hp)), ?_, ?_, fun _ => hrcw (by simp [hp]), ?_⟩ <;>
    simp [UnrankedWhileDecoding]

theorem decHeader_healthy {s : State} (h : Healthy s) {numColors : Word} (hn : numColors.toNat ≤ 2 ^ 18) (rows cols : Word) :
    Healthy { loadHeader rows cols numColors s with rsorted := false, cphase := .decPal } := by
  obtain ⟨htables, hcounts, -, hspecified⟩ := h.ranker
  have hrcw : (loadHeader rows cols numColors s).rcw.toNat = _ := loadHeader_rcw_toNat hn s
  refine ⟨h.buffer, h.source, ⟨htables, hcounts, ?_, hspecified⟩, ?_, fun _ => hn, ?_, fun _ => hrcw, fun _ => rfl⟩ <;> simp

/-- The palette a header announced, once it is read (R146): the entries below PAL_LEN are written, and no ranking is in force. -/
theorem decPalette_healthy {s t : State} (h : Healthy s) (hp : s.cphase = .decPal) (ht : OnlyPalette s t)
    (hread : getPalette s.ncolors.toNat 0 s = .ok () t) (hr : t.rpos.toNat ≤ 8 * s.srcLen.toNat) :
    Healthy { t with palLen := t.ncolors.setWidth 19, cphase := .decPix } := by
  obtain ⟨wsrc, rsrc, -, hlen⟩ := h.source
  obtain ⟨⟨hcnt, hseen, ⟨wpal, rpal⟩, hrankof⟩, hcounts, -, hseenAt, -⟩ := h.ranker
  obtain ⟨-, hdec, -, hrcw, hunranked⟩ := h.codec
  have hn : s.ncolors.toNat ≤ 2 ^ 18 := hdec (.inl hp)
  have hpalLen : (s.ncolors.setWidth 19).toNat = s.ncolors.toNat := by
    rw [BitVec.toNat_setWidth]
    exact Nat.mod_eq_of_lt (by omega)
  have hunsorted : s.rsorted = false := hunranked (.inl hp)
  obtain ⟨hlisted, -, hwf, hbelow⟩ := getPalette_pal hread
  have wpal' := hwf wpal
  have rpal' := hbelow 262144 (by omega) rpal
  rw [ht]
  refine ⟨h.buffer, ⟨wsrc, rsrc, hr, hlen⟩,
    ⟨⟨hcnt, hseen, ⟨wpal', rpal'⟩, hrankof⟩, hcounts, fun hs => ?ranking, hseenAt, fun i hi => ?palAt⟩,
    ?encoding, fun _ => hn, fun _ => hpalLen, fun _ => hrcw (by simp [hp]), fun _ => hunsorted⟩
  case ranking => simp [hunsorted] at hs
  case palAt => simpa using hlisted i (hpalLen ▸ hi)
  case encoding => simp

end Sys2Proof.Machine
end

section
/-! How a command's body ends: with SRC_MAX, TIE_BREAK and ERR as they were, with a postcondition where it answers, and with an error
code where it raises. One rule for each way bodies are put together. -/

namespace Sys2Proof.Machine

/-- SRC_MAX, TIE_BREAK and ERR are as they were. -/
def SameInstance (s t : State) : Prop := t.params = s.params ∧ t.err = s.err

/-- Started in s, r answers in a state of which Q holds, or raises an error, or stops, and SRC_MAX, TIE_BREAK and ERR are as they
were. -/
def Ends {α : Type} (s : State) (Q : State → Prop) (r : Result α) : Prop :=
  match r with
  | .ok _ t => SameInstance s t ∧ Q t
  | .raised e t => e ≠ .noError ∧ SameInstance s t
  | .fault _ => True

section
variable {α β : Type} {s t : State} {Q R : State → Prop}

theorem SameInstance.rfl' (s : State) : SameInstance s s := ⟨rfl, rfl⟩

theorem Ends.ok (a : α) (h : SameInstance s t) (hq : Q t) : Ends s Q (.ok a t) := ⟨h, hq⟩

theorem Ends.raised {e : ErrCode} (he : e ≠ .noError) (h : SameInstance s t) : Ends s Q (.raised e t : Result α) := ⟨he, h⟩

theorem Ends.require {c : Prop} [Decidable c] {r : Result α} (h : c → Ends s Q r) : Ends s Q (require c s r) := by
  by_cases hc : c
  · rw [require_true hc]; exact h hc
  · rw [require_false hc]; exact Ends.raised nofun (SameInstance.rfl' s)

theorem Ends.andThen {r : Result α} {k : α → State → Result β} (h : Ends s R r) (hk : ∀ a t, R t → Ends t Q (k a t)) :
    Ends s Q (r.andThen k) := by
  cases r with
  | ok a t =>
    obtain ⟨⟨hp, he⟩, hr⟩ := h
    have hkt := hk a t hr
    rw [andThen_ok]
    cases hka : k a t with
    | ok b u => rw [hka] at hkt; exact ⟨⟨hkt.1.1.trans hp, hkt.1.2.trans he⟩, hkt.2⟩
    | raised e u => rw [hka] at hkt; exact ⟨hkt.1, hkt.2.1.trans hp, hkt.2.2.trans he⟩
    | fault f => trivial
  | raised e t => exact h
  | fault f => trivial

end

theorem OnlyWriter.sameInstance {s t : State} (h : OnlyWriter s t) : SameInstance s t := by rw [h]; exact ⟨rfl, rfl⟩

theorem OnlyRpos.sameInstance {s t : State} (h : OnlyRpos s t) : SameInstance s t := by rw [h]; exact ⟨rfl, rfl⟩

theorem OnlyPalette.sameInstance {s t : State} (h : OnlyPalette s t) : SameInstance s t := by rw [h]; exact ⟨rfl, rfl⟩

/-- What an operation of the writer that answers leaves: only the writer's fields differ, and a healthy state stays so. -/
def WriterEnd (s t : State) : Prop := OnlyWriter s t ∧ (Healthy s → Healthy t)

theorem WriterOutcome.ends {s : State} {r : Result Unit} (h : WriterOutcome s r)
    (hb : ∀ t, r = .ok () t → BufferOk s → BufferOk t) : Ends s (WriterEnd s) r := by
  rcases h with ⟨t, rfl, ho, -⟩ | ⟨t, rfl, ho, -⟩
  · exact Ends.ok () ho.sameInstance ⟨ho, ho.healthy (hb t rfl)⟩
  · exact Ends.raised nofun ho.sameInstance

theorem putAll_ends (bits : List Bool) (s : State) : Ends s (WriterEnd s) (putAll bits s) :=
  (putAll_outcome bits s).ends fun _ h hs => putAll_buffer hs h

theorem putBits_ends (v : Word) (w : Nat) (s : State) : Ends s (WriterEnd s) (putBits v w s) := putAll_ends _ s

theorem putHeader_ends (rows cols numColors : Word) (s : State) : Ends s (WriterEnd s) (putHeader rows cols numColors s) := by
  rw [putHeader_eq]; exact putAll_ends _ s

theorem putPalette_ends (n i : Nat) (s : State) : Ends s (WriterEnd s) (putPalette n i s) := by
  rw [putPalette_eq]; exact putAll_ends _ s

theorem flushBuf_ends (s : State) : Ends s (WriterEnd s) (flushBuf s) :=
  (flushBuf_outcome s).ends fun _ h hs => flushBuf_buffer hs h

/-- An operation of the reader moves RPOS inside the source, and a healthy state stays so. -/
theorem ReaderOutcome.ends {α : Type} {s : State} {r : Result α} (h : ReaderOutcome s r) :
    Ends s (fun t => Healthy s → Healthy t) r := by
  rcases h with ⟨v, t, rfl, ho, -, hr⟩ | ⟨t, rfl, ho⟩ | ⟨f, rfl, -⟩
  · exact Ends.ok v ho.sameInstance (ho.healthy hr)
  · exact Ends.raised nofun ho.sameInstance
  · trivial

theorem getPalette_ends (n i : Nat) (s : State) :
    Ends s (fun t => OnlyPalette s t ∧ getPalette n i s = .ok () t ∧
      (s.rpos.toNat ≤ 8 * s.srcLen.toNat → t.rpos.toNat ≤ 8 * s.srcLen.toNat)) (getPalette n i s) := by
  rcases getPalette_outcome n i s with ⟨t, h, ho, -, hr⟩ | ⟨t, h, ho⟩ | ⟨f, h, -⟩
  · rw [h]; exact Ends.ok () ho.sameInstance ⟨ho, rfl, hr⟩
  · rw [h]; exact Ends.raised nofun ho.sameInstance
  · rw [h]; trivial

end Sys2Proof.Machine
end

section
/-! What every command and every step keeps: the parameters, and the invariant. -/

namespace Sys2Proof.Machine

/-- The parameters are the same, and the invariant holds of t where it holds of s. -/
def Keeps (s t : State) : Prop := t.params = s.params ∧ (Invariant s → Invariant t)

/-- Every next state an outcome answers keeps what s has. -/
def OutcomeKeeps (s : State) (o : Host.Outcome State Fault Refusal) : Prop := ∀ t, o = .next t → Keeps s t

theorem OutcomeKeeps.next {s t : State} (h : Keeps s t) : OutcomeKeeps s (.next t) := by
  rintro _ ⟨⟩
  exact h

theorem respond_keeps (r : Response) (s : State) : Keeps s (respond r s) := ⟨rfl, (respond_invariant r s).2⟩

theorem resetState_keeps (s : State) : Keeps s (resetState s) := ⟨rfl, fun h => resetState_invariant h.1⟩

/-- Of a state in the error state the invariant says nothing of the free values' draws (R165). -/
theorem drawn_keeps {s : State} (h : s.err ≠ .noError) : Keeps s { s with freeDraws := s.freeDraws + 1 } :=
  ⟨rfl, fun ⟨hp, hc, hr, _⟩ => ⟨hp, hc, hr, fun h' => absurd h' h⟩⟩

theorem raiseError_keeps_invariant {e : ErrCode} (he : e ≠ .noError) (s : State) : Keeps s (raiseError e s) := by
  refine ⟨(raiseError_keeps e s).2.2.1.1, fun hs => ?_⟩
  by_cases h : s.err = .noError
  · exact raiseError_invariant he h hs.1
  · rwa [raiseError_sticky h, respond_invariant]

/-- A command keeps the invariant where its body does in a healthy state: its errors leave nothing to keep. -/
theorem command_keeps {s : State} {body : Result Response} (h : Ends s (fun t => Healthy s → Healthy t) body) :
    OutcomeKeeps s (command s body) := by
  intro t ht
  rcases command_next ht with ⟨-, rfl⟩ | ⟨hs, r, u, rfl, rfl⟩ | ⟨hs, e, u, rfl, rfl⟩
  · exact respond_keeps _ s
  · obtain ⟨⟨hp, he⟩, hk⟩ := h
    refine ⟨hp, fun hi => ?_⟩
    obtain ⟨hmax, hhealthy⟩ := (invariant_iff_healthy hs).1 hi
    exact (invariant_iff_healthy (he.trans hs)).2 ⟨by rwa [hp], hk hhealthy⟩
  · obtain ⟨hne, hp, he⟩ := h
    refine ⟨(raiseError_keeps e u).2.2.1.1.trans hp, fun hi => ?_⟩
    exact raiseError_invariant hne (he.trans hs) (hp ▸ hi.1)

/-! ### The writer's commands -/

theorem execWriteBits_keeps (width : BitVec 6) (value : Word) (s : State) : OutcomeKeeps s (execWriteBits width value s) :=
  command_keeps <| .require fun _ => .require fun _ => (putBits_ends _ _ s).andThen fun _ t ⟨_, ht⟩ => .ok _ (.rfl' t) ht

theorem execWriteHeader_keeps (rows cols numColors : Word) (s : State) :
    OutcomeKeeps s (execWriteHeader rows cols numColors s) :=
  command_keeps <| .require fun _ => (putHeader_ends _ _ _ s).andThen fun _ t ⟨_, ht⟩ => .ok _ (.rfl' t) ht

theorem execFlush_keeps (s : State) : OutcomeKeeps s (execFlush s) :=
  command_keeps <| .require fun _ => (flushBuf_ends s).andThen fun _ t ⟨_, ht⟩ => .ok _ (.rfl' t) ht

theorem execClose_keeps (s : State) : OutcomeKeeps s (execClose s) :=
  command_keeps <| .require fun _ => (flushBuf_ends s).andThen fun _ _ ⟨_, ht⟩ => .ok _ ⟨rfl, rfl⟩ fun hs =>
    have hh := ht hs
    ⟨hh.buffer, hh.source, hh.ranker, hh.codec⟩

/-! ### The reader's commands -/

theorem execSrcWrite_keeps (offset : Word) (byte : Byte) (s : State) : OutcomeKeeps s (execSrcWrite offset byte s) :=
  command_keeps <| .require fun _ => .require fun hoff => .ok _ ⟨rfl, rfl⟩ fun hs =>
    have ⟨hw, hr, hpos, hlen⟩ := hs.source
    have hr' : CellsBelow s.params.srcMax.toNat (writeCell srcUnlisted s.src offset.toNat byte) := writeCell_below byte hoff hr
    ⟨hs.buffer, ⟨writeCell_wf _ _ hw, hr', hpos, hlen⟩, hs.ranker, hs.codec⟩

theorem execReaderOpen_keeps (length : Word) (s : State) : OutcomeKeeps s (execReaderOpen length s) :=
  command_keeps <| .require fun _ => .require fun hlen => .ok _ ⟨rfl, rfl⟩ fun hs =>
    have ⟨hw, hr, _, _⟩ := hs.source
    ⟨hs.buffer, ⟨hw, hr, Nat.zero_le _, hlen⟩, hs.ranker, hs.codec⟩

theorem execReadBits_keeps (width : BitVec 6) (s : State) : OutcomeKeeps s (execReadBits width s) :=
  command_keeps <| .require fun _ => .require fun _ => (getBits_outcome _ s).ends.andThen fun _ t ht => .ok _ (.rfl' t) ht

theorem execReadHeader_keeps (s : State) : OutcomeKeeps s (execReadHeader s) :=
  command_keeps <| .require fun _ => (getHeader_outcome s).ends.andThen fun _ t ht => .ok _ (.rfl' t) ht

/-! ### Commands that only respond -/

theorem execQuantize_keeps (pixel : Pixel) (s : State) : OutcomeKeeps s (execQuantize pixel s) :=
  command_keeps <| .ok _ (.rfl' s) id

theorem execDequantize_keeps (key : Key) (s : State) : OutcomeKeeps s (execDequantize key s) :=
  command_keeps <| .ok _ (.rfl' s) id

theorem execRankWidth_keeps (n : Word) (s : State) : OutcomeKeeps s (execRankWidth n s) :=
  command_keeps <| .ok _ (.rfl' s) id

theorem execRankLookup_keeps (key : Key) (s : State) : OutcomeKeeps s (execRankLookup key s) :=
  command_keeps <| .require fun _ => .require fun _ => .ok _ (.rfl' s) id

theorem execPalRead_keeps (rank : Word) (s : State) : OutcomeKeeps s (execPalRead rank s) :=
  command_keeps <| .require fun _ => .ok _ (.rfl' s) id

/-! ### The ranker's commands -/

theorem execRankClear_keeps (s : State) : OutcomeKeeps s (execRankClear s) :=
  command_keeps <| .require fun hidle => .ok _ ⟨rfl, rfl⟩ fun hs =>
    have ⟨⟨_, hseen, hpal, hrankof⟩, _⟩ := hs.ranker
    ⟨hs.buffer, hs.source,
      ⟨⟨TableOk.nil _, hseen, hpal, hrankof⟩, countsConsistent_of_empty (cntEntry_of_nil rfl) rfl rfl, nofun, nofun, nofun⟩,
      codecOk_of_idle hidle⟩

theorem execRankCount_keeps (pixel : Pixel) (s : State) : OutcomeKeeps s (execRankCount pixel s) :=
  command_keeps <| .require fun hidle => .require fun hroom => .ok _ ⟨rfl, rfl⟩ fun hs =>
    ⟨hs.buffer, hs.source, countKey_rankerOk hs.ranker hroom _, codecOk_of_idle hidle⟩

theorem afterRankSort_healthy {s : State} (hs : Healthy s) (hidle : s.cphase = .idle) : Healthy (afterRankSort s) := by
  refine ⟨?buffer, ?source, afterRankSort_rankerOk hs.ranker, codecOk_of_idle ?phase⟩
  case buffer => rw [afterRankSort_eq]; exact hs.buffer
  case source => rw [afterRankSort_eq]; exact hs.source
  case phase => rw [afterRankSort_eq]; exact hidle

theorem execRankSort_keeps (s : State) : OutcomeKeeps s (execRankSort s) :=
  have hsame : SameInstance s (afterRankSort s) := by rw [afterRankSort_eq]; exact ⟨rfl, rfl⟩
  command_keeps <| .require fun hidle => .ok _ hsame fun hs => afterRankSort_healthy hs hidle

/-! ### The codec's commands -/

theorem execEncHeader_keeps (rows cols : Word) (s : State) : OutcomeKeeps s (execEncHeader rows cols s) := by
  refine command_keeps <| .require fun _ => .require fun hsorted => .require fun _ => .require fun _ => ?_
  split
  · exact Ends.raised nofun (.rfl' s)
  · refine (putHeader_ends _ _ _ s).andThen fun _ t ⟨ho, ht⟩ => .ok _ ⟨rfl, rfl⟩ fun hs => ?_
    have hsorted' : t.rsorted = true := by rw [ho]; exact hsorted
    exact encHeader_healthy (ht hs) hsorted' rows cols

theorem execEncPalette_keeps (s : State) : OutcomeKeeps s (execEncPalette s) := by
  refine command_keeps <| .require fun hphase => .require fun _ =>
    (putPalette_ends _ _ s).andThen fun _ t ⟨ho, ht⟩ => .ok _ ⟨rfl, rfl⟩ fun hs => ?_
  have hphase' : t.cphase = .encPal := by rw [ho]; exact hphase
  exact encPalette_healthy (ht hs) hphase'

theorem execEncPixel_keeps (pixel : Pixel) (s : State) : OutcomeKeeps s (execEncPixel pixel s) :=
  command_keeps <| .require fun _ => .require fun _ => .require fun _ => .require fun _ =>
    (putBits_ends _ _ s).andThen fun _ _ ⟨_, ht⟩ => .ok _ ⟨rfl, rfl⟩ fun hs =>
      have hh := ht hs
      ⟨hh.buffer, hh.source, hh.ranker, hh.codec⟩

theorem execEncFinish_keeps (s : State) : OutcomeKeeps s (execEncFinish s) := by
  refine command_keeps <| .require fun hphase => .require fun _ => .require fun _ =>
    (flushBuf_ends s).andThen fun _ t ⟨ho, ht⟩ => .ok _ ⟨rfl, rfl⟩ fun hs => ?_
  have hphase' : t.cphase = .encPix := by rw [ho]; exact hphase
  exact encFinish_healthy (ht hs) hphase'

theorem execDecHeader_keeps (s : State) : OutcomeKeeps s (execDecHeader s) := by
  refine command_keeps <| .require fun _ => .require fun _ => .require fun _ =>
    (getHeader_outcome s).ends.andThen fun header t ht => ?_
  split
  · exact Ends.raised nofun (.rfl' t)
  · next hn => exact .ok _ ⟨rfl, rfl⟩ fun hs => decHeader_healthy (ht hs) (Nat.le_of_not_lt hn) _ _

theorem execDecPalette_keeps (s : State) : OutcomeKeeps s (execDecPalette s) :=
  command_keeps <| .require fun hphase => (getPalette_ends _ _ s).andThen fun _ _ ⟨ho, hread, hr⟩ =>
    .ok _ ⟨rfl, rfl⟩ fun hs => decPalette_healthy hs hphase ho hread (hr hs.source.2.2.1)

theorem execDecPixel_keeps (s : State) : OutcomeKeeps s (execDecPixel s) := by
  refine command_keeps <| .require fun _ => .require fun _ => (getBits_outcome _ s).ends.andThen fun rank t ht => ?_
  split
  · refine .ok _ ⟨rfl, rfl⟩ fun hs => ?_
    have hh := ht hs
    exact ⟨hh.buffer, hh.source, hh.ranker, hh.codec⟩
  · exact Ends.raised nofun (.rfl' t)

/-! ### The control commands -/

theorem execReset_keeps (s : State) : OutcomeKeeps s (execReset s) :=
  .next ⟨rfl, fun h => (respond_invariant _ _).2 (resetState_invariant h.1)⟩

theorem execRegRead_keeps (number : Word) (s : State) : OutcomeKeeps s (execRegRead number s) := by
  have herror := OutcomeKeeps.next (raiseError_keeps_invariant (e := .usageError) nofun s)
  unfold execRegRead
  split
  · split
    · exact .next (respond_keeps _ s)
    · exact herror
  · next hs =>
    split
    · exact .next (drawn_keeps hs)
    · exact herror

/-! ### Every command and every step -/

/-- Every command keeps the parameters and the invariant. -/
theorem exec_keeps (i : Instr) (s : State) : OutcomeKeeps s (exec i s) := by
  cases i with
  | nop => exact .next (respond_keeps _ s)
  | reset => exact execReset_keeps s
  | regRead number => exact execRegRead_keeps number s
  | writeBits width value => exact execWriteBits_keeps width value s
  | writeHeader rows cols numColors => exact execWriteHeader_keeps rows cols numColors s
  | flush => exact execFlush_keeps s
  | close => exact execClose_keeps s
  | srcWrite offset byte => exact execSrcWrite_keeps offset byte s
  | readerOpen length => exact execReaderOpen_keeps length s
  | readBits width => exact execReadBits_keeps width s
  | readHeader => exact execReadHeader_keeps s
  | quantize pixel => exact execQuantize_keeps pixel s
  | dequantize key => exact execDequantize_keeps key s
  | rankClear => exact execRankClear_keeps s
  | rankCount pixel => exact execRankCount_keeps pixel s
  | rankSort => exact execRankSort_keeps s
  | rankLookup key => exact execRankLookup_keeps key s
  | palRead rank => exact execPalRead_keeps rank s
  | encHeader rows cols => exact execEncHeader_keeps rows cols s
  | encPalette => exact execEncPalette_keeps s
  | encPixel pixel => exact execEncPixel_keeps pixel s
  | encFinish => exact execEncFinish_keeps s
  | rankWidth n => exact execRankWidth_keeps n s
  | decHeader => exact execDecHeader_keeps s
  | decPalette => exact execDecPalette_keeps s
  | decPixel => exact execDecPixel_keeps s

/-- So does every command word, a legal command's or not. -/
theorem runCommand_keeps (w : Command) (s : State) : OutcomeKeeps s (runCommand w s) := by
  unfold runCommand
  split
  · exact exec_keeps _ s
  · unfold illegalWord
    split
    · exact .next (respond_keeps _ s)
    · exact .next (raiseError_keeps_invariant (e := .usageError) nofun s)

theorem cutByReset_keeps (offered : Nat) (s after : State) : Keeps s (cutByReset offered s after) := by
  unfold cutByReset
  exact ⟨rfl, fun h => resetState_invariant h.1⟩

/-- And a command that the reset input cuts. -/
theorem cutOutcome_keeps (offered : Nat) (s : State) (o : Host.Outcome State Fault Refusal) :
    OutcomeKeeps s (cutOutcome offered s o) := by
  cases o with
  | next after => exact .next (cutByReset_keeps offered s after)
  | fault f => exact .next (resetState_keeps s)
  | refused r => rintro t ⟨⟩

/-- Taking the host's next input (log 1) changes neither. -/
theorem OutcomeKeeps.of_takeInput {s : State} {o : Host.Outcome State Fault Refusal} (h : OutcomeKeeps (takeInput s) o) :
    OutcomeKeeps s o := by
  intro t ht
  obtain ⟨hp, hi⟩ := h t ht
  have htake : Invariant s → Invariant (takeInput s) := id
  exact ⟨hp, fun hs => hi (htake hs)⟩

/-- One step, from any state, keeps the parameters and the invariant. -/
theorem step_keeps (s : State) : OutcomeKeeps s (step s) := by
  unfold step
  split
  · exact .next ⟨rfl, id⟩
  · exact .of_takeInput (runCommand_keeps _ _)
  · exact .of_takeInput (.next (resetState_keeps _))
  · exact .of_takeInput (cutOutcome_keeps _ _ _)

/-- Settles O10: the parameters' part of what every step keeps. -/
theorem stepKeepsTheParameters : Obligations.StepKeepsTheParameters :=
  fun s t h => (step_keeps s t h).1

/-- Settles O19: the state after power-up has the reset values and lists no memory entry. -/
theorem resetStateMeetsTheInvariant : Obligations.ResetStateMeetsTheInvariant :=
  fun p hp => ⟨resetWith_invariant hp, resetWith_hasResetValues p⟩

/-- Settles O20: the invariant's part of what every step keeps. -/
theorem everyStepKeepsTheInvariant : Obligations.EveryStepKeepsTheInvariant :=
  fun s t hs h => (step_keeps s t h).2 hs

end Sys2Proof.Machine
end

section
/-! The rows of R56 that a command may leave changed, as one equation: the state with just those rows taken from another. -/

namespace Sys2Proof.Machine

/-- s with one row of R56 as it is in t; the sink's coming answers go with what was emitted. -/
def takePart (t : State) (part : Part) (s : State) : State :=
  match part with
  | .buffer => { s with wbuf := t.wbuf, wpos := t.wpos }
  | .closed => { s with wclosed := t.wclosed }
  | .emitted => { s with sinkcnt := t.sinkcnt, sink := t.sink, sinkAnswers := t.sinkAnswers, sinkOffers := t.sinkOffers }
  | .source => { s with src := t.src }
  | .opened => { s with srcLen := t.srcLen, ropen := t.ropen }
  | .cursor => { s with rpos := t.rpos }
  | .counts => { s with cnt := t.cnt, seen := t.seen, ndist := t.ndist, total := t.total }
  | .sorted => { s with rsorted := t.rsorted }
  | .palette => { s with pal := t.pal }
  | .paletteLength => { s with palLen := t.palLen }
  | .ranks => { s with rankof := t.rankof }
  | .phase => { s with cphase := t.cphase }
  | .header => { s with rows := t.rows, cols := t.cols, ncolors := t.ncolors, rcw := t.rcw }
  | .pixelsLeft => { s with pixrem := t.pixrem }

/-- Only these rows of R56 differ. -/
def OnlyParts (parts : List Part) (s t : State) : Prop := t = parts.foldr (takePart t) s

theorem samePart_rfl (part : Part) (s : State) : SamePart part s s := by
  cases part <;> simp [SamePart, SameCounts]

/-- Taking one row from t leaves every other row as it was. -/
theorem samePart_takePart {p part : Part} (h : part ≠ p) (s t u : State) :
    SamePart part s (takePart t p u) ↔ SamePart part s u := by
  cases p <;> cases part <;> try exact absurd rfl h
  all_goals exact Iff.rfl

/-- A row that is not among those that differ is the same. -/
theorem OnlyParts.samePart {parts : List Part} {s t : State} (h : OnlyParts parts s t) {part : Part} (hp : part ∉ parts) :
    SamePart part s t := by
  have key : ∀ ps : List Part, part ∉ ps → SamePart part s (ps.foldr (takePart t) s) := by
    intro ps
    induction ps with
    | nil => exact fun _ => samePart_rfl part s
    | cons p ps ih =>
      intro hmem
      obtain ⟨hne, hmem⟩ := not_or.1 (List.mem_cons.not.1 hmem)
      exact (samePart_takePart hne s t _).2 (ih hmem)
  rw [h]
  exact key parts hp

end Sys2Proof.Machine
end

section
/-! Everything a command can do, whatever state it runs in, said once: what it has done where it answers code 0, and how else it
can end. -/

namespace Sys2Proof.Machine

/-- The commands that take bits of SRC (R33). -/
def ReadsSource (i : Instr) : Prop :=
  (∃ width, i = .readBits width) ∨ i = .readHeader ∨ i = .decHeader ∨ i = .decPalette ∨ i = .decPixel

/-- CPHASE is as it was, or command i moves it along its transition of R45. -/
def PhaseMoves (i : Instr) (s t : State) : Prop :=
  t.cphase = s.cphase ∨
  ((∃ r c, i = .encHeader r c) ∧ s.cphase = .idle ∧ t.cphase = .encPal) ∨
  (i = .encPalette ∧ s.cphase = .encPal ∧ t.cphase = .encPix) ∨
  (i = .encFinish ∧ s.cphase = .encPix ∧ t.cphase = .encDone) ∨
  (i = .decHeader ∧ s.cphase = .idle ∧ t.cphase = .decPal) ∨
  (i = .decPalette ∧ s.cphase = .decPal ∧ t.cphase = .decPix)

/-- What command i, run in s, has done in the state t in which it answers code 0. -/
structure Did (i : Instr) (s t : State) : Prop where
  parts : OnlyParts (writtenParts i) s t
  sink : SinkGrew s t
  memories : CanonicalMemories s → CanonicalMemories t
  phase : PhaseMoves i s t

/-- How the body of command i, or a part of it, can end when the command started in s: with an answer in a state of which Q holds,
with an error, or, where the command takes bits of SRC, at an unwritten one. -/
def Runs {α : Type} (i : Instr) (s : State) (Q : State → Prop) (r : Result α) : Prop :=
  match r with
  | .ok _ t => Q t
  | .raised e t => e ≠ .noError ∧ t.err = s.err ∧ SinkGrew s t
  | .fault f => StopsAtUnwritten s f ∧ ReadsSource i

/-- How command i can end in state s. -/
def Does (i : Instr) (s : State) (o : Host.Outcome State Fault Refusal) : Prop :=
  match o with
  | .next t =>
    (s.err ≠ .noError ∧ ∃ r draws, t = respond r { s with freeDraws := draws }) ∨
    (s.err = .noError ∧ ∃ r u, t = respond r u ∧ Did i s u) ∨
    (s.err = .noError ∧ ∃ e u, t = raiseError e u ∧ e ≠ .noError ∧ u.err = s.err ∧ SinkGrew s u)
  | .fault f => s.err = .noError ∧ StopsAtUnwritten s f ∧ ReadsSource i
  | .refused _ => False

/-! ### Rules for bodies -/

section
variable {α β : Type} {i : Instr} {s t : State} {Q R : State → Prop}

theorem Runs.require {c : Prop} [Decidable c] {r : Result α} (h : c → Runs i s Q r) : Runs i s Q (require c s r) := by
  by_cases hc : c
  · rw [require_true hc]; exact h hc
  · rw [require_false hc]; exact ⟨nofun, rfl, SinkGrew.rfl' s⟩

theorem Runs.andThen {r : Result α} {k : α → State → Result β} (h : Runs i s R r) (hk : ∀ a t, R t → Runs i s Q (k a t)) :
    Runs i s Q (r.andThen k) := by
  cases r with
  | ok a t => exact hk a t h
  | raised e t => exact h
  | fault f => exact h

theorem command_does {body : Result Response} (h : Runs i s (Did i s) body) : Does i s (command s body) := by
  by_cases hs : s.err = .noError
  · rw [command_noError body hs]
    cases body with
    | ok r t => exact .inr (.inl ⟨hs, r, t, rfl, h⟩)
    | raised e t => exact .inr (.inr ⟨hs, e, t, rfl, h⟩)
    | fault f => exact ⟨hs, h⟩
  · rw [command_sticky body hs]
    exact .inl ⟨hs, _, s.freeDraws, rfl⟩

/-- A command that only responds. -/
theorem did_nothing (h : writtenParts i = []) (s : State) : Did i s s :=
  ⟨by rw [h]; rfl, SinkGrew.rfl' s, id, .inl rfl⟩

end

/-! ### The writer's operations -/

/-- What an operation of the writer has done where it answers. -/
structure Wrote (s t : State) : Prop where
  only : OnlyWriter s t
  sink : SinkGrew s t
  memories : CanonicalMemories s → CanonicalMemories t

theorem OnlyWriter.cphase {s t : State} (h : OnlyWriter s t) : t.cphase = s.cphase := by rw [h]

/-- Full buffers are emitted from WBUF as it stands, so PutBits keeps its form, wherever WPOS is. -/
theorem putAll_wbuf_wf {bits : List Bool} {s t : State} (h : putAll bits s = .ok () t) (hs : CellsWf wbufUnlisted s.wbuf) :
    CellsWf wbufUnlisted t.wbuf := by
  induction bits generalizing s with
  | nil =>
    obtain rfl : s = t := by simpa [putAll] using h
    exact hs
  | cons b rest ih =>
    rw [putAll] at h
    obtain ⟨_, u, hu, hk⟩ := andThen_eq_ok h
    have hb : CellsWf wbufUnlisted (storeBit b s).wbuf := writeCell_wf _ _ hs
    refine ih hk ?_
    unfold putBit at hu
    split at hu
    · rw [emitFull] at hu
      obtain ⟨_, v, hv, hw⟩ := andThen_eq_ok hu
      simp only [Result.ok.injEq, true_and] at hw
      rw [← hw]
      exact (emitAll_wbuf hv).1 ▸ hb
    · simp only [Result.ok.injEq, true_and] at hu
      exact hu ▸ hb

/-- FlushBuf leaves WBUF as it stands. -/
theorem flushBuf_wbuf {s t : State} (h : flushBuf s = .ok () t) : t.wbuf = s.wbuf := by
  rw [flushBuf] at h
  obtain ⟨_, u, hu, hk⟩ := andThen_eq_ok h
  simp only [Result.ok.injEq, true_and] at hk
  rw [← hk]
  exact (emitAll_wbuf hu).1

theorem WriterOutcome.runs {i : Instr} {s : State} {r : Result Unit} (h : WriterOutcome s r)
    (hb : ∀ t, r = .ok () t → CellsWf wbufUnlisted s.wbuf → CellsWf wbufUnlisted t.wbuf) : Runs i s (Wrote s) r := by
  rcases h with ⟨t, rfl, ho, hg⟩ | ⟨t, rfl, ho, hg⟩
  · refine ⟨ho, hg, fun ⟨wb, hrest⟩ => ⟨hb t rfl wb, ?_⟩⟩
    rw [ho]; exact hrest
  · exact ⟨nofun, ho.sameInstance.2, hg⟩

theorem putAll_runs {i : Instr} (bits : List Bool) (s : State) : Runs i s (Wrote s) (putAll bits s) :=
  (putAll_outcome bits s).runs fun _ h hs => putAll_wbuf_wf h hs

theorem putBits_runs {i : Instr} (v : Word) (w : Nat) (s : State) : Runs i s (Wrote s) (putBits v w s) := putAll_runs _ s

theorem putHeader_runs {i : Instr} (rows cols numColors : Word) (s : State) :
    Runs i s (Wrote s) (putHeader rows cols numColors s) := by
  rw [putHeader_eq]; exact putAll_runs _ s

theorem putPalette_runs {i : Instr} (n j : Nat) (s : State) : Runs i s (Wrote s) (putPalette n j s) := by
  rw [putPalette_eq]; exact putAll_runs _ s

theorem flushBuf_runs {i : Instr} (s : State) : Runs i s (Wrote s) (flushBuf s) :=
  (flushBuf_outcome s).runs fun _ h hs => (flushBuf_wbuf h).symm ▸ hs

/-- A command that only writes bits. -/
theorem Wrote.did {i : Instr} {s t : State} (h : Wrote s t) (hi : writtenParts i = [.buffer, .emitted]) : Did i s t :=
  ⟨by rw [hi, h.only]; rfl, h.sink, h.memories, .inl h.only.cphase⟩

/-! ### The reader's operations -/

theorem OnlyRpos.sinkGrew {s t : State} (h : OnlyRpos s t) : SinkGrew s t := by rw [h]; exact ⟨[], by simp, by simp⟩

theorem OnlyRpos.memories {s t : State} (h : OnlyRpos s t) (hs : CanonicalMemories s) : CanonicalMemories t := by
  rw [h]; exact hs

theorem OnlyRpos.cphase {s t : State} (h : OnlyRpos s t) : t.cphase = s.cphase := by rw [h]

theorem OnlyPalette.sinkGrew {s t : State} (h : OnlyPalette s t) : SinkGrew s t := by rw [h]; exact ⟨[], by simp, by simp⟩

theorem ReaderOutcome.runs {α : Type} {i : Instr} {s : State} {r : Result α} (h : ReaderOutcome s r) (hi : ReadsSource i) :
    Runs i s (OnlyRpos s) r := by
  rcases h with ⟨v, t, rfl, ho, -, -⟩ | ⟨t, rfl, ho⟩ | ⟨f, rfl, hf⟩
  · exact ho
  · exact ⟨nofun, ho.sameInstance.2, ho.sinkGrew⟩
  · exact ⟨hf, hi⟩

/-- A command that only takes bits of SRC. -/
theorem OnlyRpos.did {i : Instr} {s t : State} (h : OnlyRpos s t) (hi : writtenParts i = [.cursor]) : Did i s t :=
  ⟨by rw [hi, h]; rfl, h.sinkGrew, h.memories, .inl h.cphase⟩

theorem getPalette_runs {i : Instr} (hi : ReadsSource i) (n j : Nat) (s : State) :
    Runs i s (fun t => OnlyPalette s t ∧ (CellsWf tableUnlisted s.pal → CellsWf tableUnlisted t.pal)) (getPalette n j s) := by
  rcases getPalette_outcome n j s with ⟨t, h, ho, -, -⟩ | ⟨t, h, ho⟩ | ⟨f, h, hf⟩
  · obtain ⟨-, -, hwf, -⟩ := getPalette_pal h
    rw [h]; exact ⟨ho, hwf⟩
  · rw [h]; exact ⟨nofun, ho.sameInstance.2, ho.sinkGrew⟩
  · rw [h]; exact ⟨hf, hi⟩

/-! ### The writer's commands -/

theorem execWriteBits_does (width : BitVec 6) (value : Word) (s : State) :
    Does (.writeBits width value) s (execWriteBits width value s) :=
  command_does <| .require fun _ => .require fun _ => (putBits_runs _ _ s).andThen fun _ _ ht => ht.did rfl

theorem execWriteHeader_does (rows cols numColors : Word) (s : State) :
    Does (.writeHeader rows cols numColors) s (execWriteHeader rows cols numColors s) :=
  command_does <| .require fun _ => (putHeader_runs _ _ _ s).andThen fun _ _ ht => ht.did rfl

theorem execFlush_does (s : State) : Does .flush s (execFlush s) :=
  command_does <| .require fun _ => (flushBuf_runs s).andThen fun _ _ ht => ht.did rfl

theorem execClose_does (s : State) : Does .close s (execClose s) :=
  command_does <| .require fun _ => (flushBuf_runs s).andThen fun _ _ ht =>
    ⟨by rw [ht.only]; rfl, ht.sink, ht.memories, .inl ht.only.cphase⟩

/-! ### The reader's commands -/

theorem execSrcWrite_does (offset : Word) (byte : Byte) (s : State) :
    Does (.srcWrite offset byte) s (execSrcWrite offset byte s) :=
  command_does <| .require fun _ => .require fun _ =>
    ⟨rfl, SinkGrew.rfl' s, fun ⟨wb, ws, hrest⟩ => ⟨wb, writeCell_wf _ _ ws, hrest⟩, .inl rfl⟩

theorem execReaderOpen_does (length : Word) (s : State) : Does (.readerOpen length) s (execReaderOpen length s) :=
  command_does <| .require fun _ => .require fun _ => ⟨rfl, SinkGrew.rfl' s, id, .inl rfl⟩

theorem execReadBits_does (width : BitVec 6) (s : State) : Does (.readBits width) s (execReadBits width s) :=
  command_does <| .require fun _ => .require fun _ =>
    ((getBits_outcome _ s).runs (.inl ⟨width, rfl⟩)).andThen fun _ _ ht => ht.did rfl

theorem execReadHeader_does (s : State) : Does .readHeader s (execReadHeader s) :=
  command_does <| .require fun _ => ((getHeader_outcome s).runs (.inr (.inl rfl))).andThen fun _ _ ht => ht.did rfl

/-! ### Commands that only respond -/

theorem execQuantize_does (pixel : Pixel) (s : State) : Does (.quantize pixel) s (execQuantize pixel s) :=
  command_does (did_nothing rfl s)

theorem execDequantize_does (key : Key) (s : State) : Does (.dequantize key) s (execDequantize key s) :=
  command_does (did_nothing rfl s)

theorem execRankWidth_does (n : Word) (s : State) : Does (.rankWidth n) s (execRankWidth n s) :=
  command_does (did_nothing rfl s)

theorem execRankLookup_does (key : Key) (s : State) : Does (.rankLookup key) s (execRankLookup key s) :=
  command_does <| .require fun _ => .require fun _ => did_nothing rfl s

theorem execPalRead_does (rank : Word) (s : State) : Does (.palRead rank) s (execPalRead rank s) :=
  command_does <| .require fun _ => did_nothing rfl s

/-! ### The ranker's commands -/

theorem execRankClear_does (s : State) : Does .rankClear s (execRankClear s) :=
  command_does <| .require fun _ =>
    ⟨rfl, SinkGrew.rfl' s, fun ⟨wb, ws, _, hrest⟩ => ⟨wb, ws, nil_wf _, hrest⟩, .inl rfl⟩

theorem countKey_memories {s : State} (k : Key) (h : CanonicalMemories s) : CanonicalMemories (countKey k s) := by
  obtain ⟨wb, ws, wc, we, hrest⟩ := h
  refine ⟨wb, ws, writeCell_wf _ _ wc, ?_, hrest⟩
  rw [countKey_seen]
  split
  · exact writeCell_wf _ _ we
  · exact we

theorem execRankCount_does (pixel : Pixel) (s : State) : Does (.rankCount pixel) s (execRankCount pixel s) :=
  command_does <| .require fun _ => .require fun _ => ⟨rfl, SinkGrew.rfl' s, countKey_memories _, .inl rfl⟩

/-- RANK_SORT, from what its loop over the ranked keys leaves. -/
theorem OnlyRanking.did {s t : State} (h : OnlyRanking s t)
    (hw : CellsWf tableUnlisted s.pal → CellsWf tableUnlisted s.rankof →
      CellsWf tableUnlisted t.pal ∧ CellsWf tableUnlisted t.rankof) :
    Did .rankSort s { t with palLen := s.ndist, rsorted := true } := by
  refine ⟨?parts, ?sink, fun ⟨wb, ws, wc, we, wp, wr⟩ => ?memories, .inl ?phase⟩
  case parts => rw [h]; rfl
  case sink => rw [h]; exact SinkGrew.rfl' s
  case phase => rw [h]
  case memories =>
    have htables := hw wp wr
    rw [h]
    exact ⟨wb, ws, wc, we, htables⟩

theorem execRankSort_does (s : State) : Does .rankSort s (execRankSort s) :=
  command_does <| .require fun _ => (storeRanking_only _ 0 s).did (storeRanking_wf _ 0 s)

/-! ### The codec's commands -/

theorem execEncHeader_does (rows cols : Word) (s : State) : Does (.encHeader rows cols) s (execEncHeader rows cols s) := by
  refine command_does <| .require fun hphase => .require fun _ => .require fun _ => .require fun _ => ?_
  split
  · exact ⟨nofun, rfl, SinkGrew.rfl' s⟩
  · exact (putHeader_runs _ _ _ s).andThen fun _ _ ht =>
      ⟨by rw [ht.only]; rfl, ht.sink, ht.memories, .inr (.inl ⟨⟨rows, cols, rfl⟩, hphase, rfl⟩)⟩

theorem execEncPalette_does (s : State) : Does .encPalette s (execEncPalette s) :=
  command_does <| .require fun hphase => .require fun _ => (putPalette_runs _ _ s).andThen fun _ _ ht =>
    ⟨by rw [ht.only]; rfl, ht.sink, ht.memories, .inr (.inr (.inl ⟨rfl, hphase, rfl⟩))⟩

theorem execEncPixel_does (pixel : Pixel) (s : State) : Does (.encPixel pixel) s (execEncPixel pixel s) :=
  command_does <| .require fun _ => .require fun _ => .require fun _ => .require fun _ =>
    (putBits_runs _ _ s).andThen fun _ _ ht =>
      ⟨by rw [ht.only]; rfl, ht.sink, ht.memories, .inl ht.only.cphase⟩

theorem execEncFinish_does (s : State) : Does .encFinish s (execEncFinish s) :=
  command_does <| .require fun hphase => .require fun _ => .require fun _ => (flushBuf_runs s).andThen fun _ _ ht =>
    ⟨by rw [ht.only]; rfl, ht.sink, ht.memories, .inr (.inr (.inr (.inl ⟨rfl, hphase, rfl⟩)))⟩

theorem execDecHeader_does (s : State) : Does .decHeader s (execDecHeader s) := by
  refine command_does <| .require fun hphase => .require fun _ => .require fun _ =>
    ((getHeader_outcome s).runs (.inr (.inr (.inl rfl)))).andThen fun _ _ ht => ?_
  split
  · exact ⟨nofun, ht.sameInstance.2, ht.sinkGrew⟩
  · exact ⟨by rw [ht]; rfl, ht.sinkGrew, ht.memories, .inr (.inr (.inr (.inr (.inl ⟨rfl, hphase, rfl⟩))))⟩

theorem execDecPalette_does (s : State) : Does .decPalette s (execDecPalette s) := by
  refine command_does <| .require fun hphase =>
    (getPalette_runs (.inr (.inr (.inr (.inl rfl)))) _ _ s).andThen fun _ t ⟨ho, hwf⟩ => ?_
  refine ⟨by rw [ho]; rfl, ho.sinkGrew, fun ⟨wb, ws, wc, we, wp, wr⟩ => ?_, ?_⟩
  case refine_2 => exact .inr (.inr (.inr (.inr (.inr ⟨rfl, hphase, rfl⟩))))
  have hpal := hwf wp
  rw [ho]
  exact ⟨wb, ws, wc, we, hpal, wr⟩

theorem execDecPixel_does (s : State) : Does .decPixel s (execDecPixel s) := by
  refine command_does <| .require fun _ => .require fun _ =>
    ((getBits_outcome _ s).runs (.inr (.inr (.inr (.inr rfl))))).andThen fun _ _ ht => ?_
  split
  · exact ⟨by rw [ht]; rfl, ht.sinkGrew, ht.memories, .inl ht.cphase⟩
  · exact ⟨nofun, ht.sameInstance.2, ht.sinkGrew⟩

/-! ### The control commands -/

theorem execNop_does (s : State) : Does .nop s (execNop s) := by
  by_cases hs : s.err = .noError
  · exact .inr (.inl ⟨hs, _, s, rfl, did_nothing rfl s⟩)
  · exact .inl ⟨hs, _, s.freeDraws, rfl⟩

theorem execRegRead_does (number : Word) (s : State) : Does (.regRead number) s (execRegRead number s) := by
  unfold execRegRead
  split
  · next hs =>
    split
    · exact .inr (.inl ⟨hs, _, s, rfl, did_nothing rfl s⟩)
    · exact .inr (.inr ⟨hs, _, s, rfl, nofun, rfl, SinkGrew.rfl' s⟩)
  · next hs =>
    split
    · exact .inl ⟨hs, _, _, rfl⟩
    · rw [raiseError_sticky hs]
      exact .inl ⟨hs, _, s.freeDraws, rfl⟩

/-! ### Every command -/

/-- How each command other than RESET can end. -/
theorem exec_does {i : Instr} (hi : i ≠ .reset) (s : State) : Does i s (exec i s) := by
  cases i with
  | nop => exact execNop_does s
  | reset => exact absurd rfl hi
  | regRead number => exact execRegRead_does number s
  | writeBits width value => exact execWriteBits_does width value s
  | writeHeader rows cols numColors => exact execWriteHeader_does rows cols numColors s
  | flush => exact execFlush_does s
  | close => exact execClose_does s
  | srcWrite offset byte => exact execSrcWrite_does offset byte s
  | readerOpen length => exact execReaderOpen_does length s
  | readBits width => exact execReadBits_does width s
  | readHeader => exact execReadHeader_does s
  | quantize pixel => exact execQuantize_does pixel s
  | dequantize key => exact execDequantize_does key s
  | rankClear => exact execRankClear_does s
  | rankCount pixel => exact execRankCount_does pixel s
  | rankSort => exact execRankSort_does s
  | rankLookup key => exact execRankLookup_does key s
  | palRead rank => exact execPalRead_does rank s
  | encHeader rows cols => exact execEncHeader_does rows cols s
  | encPalette => exact execEncPalette_does s
  | encPixel pixel => exact execEncPixel_does pixel s
  | encFinish => exact execEncFinish_does s
  | rankWidth n => exact execRankWidth_does n s
  | decHeader => exact execDecHeader_does s
  | decPalette => exact execDecPalette_does s
  | decPixel => exact execDecPixel_does s

/-- RESET answers in every state (R159). -/
theorem exec_reset (s : State) : exec .reset s = .next (respond (success 0 0 0) (resetState s)) := rfl

/-- A command other than RESET that ends with ERR = 0 has answered code 0. -/
theorem exec_did {i : Instr} {s t : State} (hi : i ≠ .reset) (h : exec i s = .next t) (ht : t.err = .noError) :
    ∃ r u, t = respond r u ∧ Did i s u := by
  have hdoes := exec_does hi s
  rw [h] at hdoes
  rcases hdoes with ⟨hs, r, draws, rfl⟩ | ⟨-, r, u, rfl, hu⟩ | ⟨hs, e, u, rfl, he, hue, -⟩
  · exact absurd ht hs
  · exact ⟨r, u, rfl, hu⟩
  · rw [raiseError_noError (hue.trans hs)] at ht
    exact absurd ht he

/-- Settles O12: SINKCNT's part of what a command that answers code 0 has done. -/
theorem sinkcntCountsAcceptedBytes : Obligations.SinkcntCountsAcceptedBytes := by
  intro i s t hi h ht
  obtain ⟨r, u, rfl, hu⟩ := exec_did hi h ht
  exact hu.sink

/-- Settles O13: the response is in no row of R56, and only the rows of the command differ in the state it answers in. -/
theorem commandsWriteOnlyTheirState : Obligations.CommandsWriteOnlyTheirState := by
  intro i s t hi h ht part hpart
  obtain ⟨r, u, rfl, hu⟩ := exec_did hi h ht
  have hsame := hu.parts.samePart hpart
  cases part <;> exact hsame

/-- Settles O14: the phase's part of what a command that answers code 0 has done, and RESET's phase. -/
theorem phaseMovesOnlyByItsCommands : Obligations.PhaseMovesOnlyByItsCommands := by
  refine ⟨fun i s t hi h ht => ?_, fun s t h => ?_⟩
  · obtain ⟨r, u, rfl, hu⟩ := exec_did hi h ht
    exact hu.phase
  · rw [exec_reset] at h
    cases h
    rfl

/-- Settles O15: the two ways of not answering, in what a command can do. -/
theorem onlyUnwrittenSourceStopsTheModel : Obligations.OnlyUnwrittenSourceStopsTheModel := by
  intro i s
  by_cases hi : i = .reset
  · subst hi
    rw [exec_reset]
    exact ⟨nofun, nofun⟩
  · have hdoes := exec_does hi s
    refine ⟨fun r h => ?_, fun f h => ?_⟩
    · rw [h] at hdoes
      exact hdoes
    · rw [h] at hdoes
      exact hdoes

end Sys2Proof.Machine
end

section
/-! What every step does to the memories and to the sink stream, and the reset input (R186, R187). -/

namespace Sys2Proof.Machine

/-! ### The memories' form -/

theorem resetState_memories (s : State) : CanonicalMemories (resetState s) :=
  ⟨nil_wf _, nil_wf _, nil_wf _, nil_wf _, nil_wf _, nil_wf _⟩

/-- The free contents that an error leaves are in canonical form (R165; log 6). -/
theorem unspecified_memories (s : State) : CanonicalMemories (unspecified s) :=
  ⟨(freeTable_wf _ _ _ _ (by decide)).1, nil_wf _, (freeTable_wf _ _ _ _ (by decide)).1, nil_wf _, nil_wf _, nil_wf _⟩

theorem raiseError_memories {e : ErrCode} {s : State} (h : s.err = .noError ∨ CanonicalMemories s) :
    CanonicalMemories (raiseError e s) := by
  by_cases hs : s.err = .noError
  · rw [raiseError_noError hs]
    exact unspecified_memories s
  · rw [raiseError_sticky hs]
    exact h.resolve_left hs

theorem exec_memories {i : Instr} {s t : State} (h : exec i s = .next t) (hs : CanonicalMemories s) : CanonicalMemories t := by
  by_cases hi : i = .reset
  · subst hi
    rw [exec_reset] at h
    cases h
    exact resetState_memories s
  · have hdoes := exec_does hi s
    rw [h] at hdoes
    rcases hdoes with ⟨-, r, draws, rfl⟩ | ⟨-, r, u, rfl, hu⟩ | ⟨he, e, u, rfl, -, hue, -⟩
    · exact hs
    · exact hu.memories hs
    · exact raiseError_memories (.inl (hue.trans he))

/-- A word that is no command is answered with an error (R84). -/
theorem illegalWord_eq (w : Command) (s : State) : ∃ e, illegalWord w s = .next (raiseError e s) := by
  unfold illegalWord
  split
  · next h => exact ⟨s.err, by rw [raiseError_sticky h.1, refuseSticky]⟩
  · exact ⟨.usageError, rfl⟩

theorem runCommand_memories {w : Command} {s t : State} (h : runCommand w s = .next t) (hs : CanonicalMemories s) :
    CanonicalMemories t := by
  unfold runCommand at h
  split at h
  · exact exec_memories h hs
  · obtain ⟨e, he⟩ := illegalWord_eq w s
    rw [he] at h
    cases h
    exact raiseError_memories (.inr hs)

/-! ### The sink stream -/

/-- Bytes in the sink stream stay there (R61, R187). -/
def SinkKept (s t : State) : Prop := ∃ bytes, t.sink = s.sink ++ bytes

theorem SinkGrew.sinkKept {s t : State} (h : SinkGrew s t) : SinkKept s t := by
  obtain ⟨bytes, hsink, -⟩ := h
  exact ⟨bytes, hsink⟩

theorem raiseError_sinkKept {e : ErrCode} {s t : State} (h : SinkKept s t) : SinkKept s (raiseError e t) := by
  obtain ⟨-, hsink, -, -⟩ := raiseError_keeps e t
  rwa [SinkKept, hsink]

theorem sinkKept_of_eq {s t : State} (h : t.sink = s.sink) : SinkKept s t := ⟨[], by rw [h, List.append_nil]⟩

theorem exec_sinkKept {i : Instr} {s t : State} (h : exec i s = .next t) : SinkKept s t := by
  by_cases hi : i = .reset
  · subst hi
    rw [exec_reset] at h
    cases h
    exact sinkKept_of_eq rfl
  · have hdoes := exec_does hi s
    rw [h] at hdoes
    rcases hdoes with ⟨-, r, draws, rfl⟩ | ⟨-, r, u, rfl, hu⟩ | ⟨-, e, u, rfl, -, -, hsink⟩
    · exact sinkKept_of_eq rfl
    · exact hu.sink.sinkKept
    · exact raiseError_sinkKept hsink.sinkKept

theorem runCommand_sinkKept {w : Command} {s t : State} (h : runCommand w s = .next t) : SinkKept s t := by
  unfold runCommand at h
  split at h
  · exact exec_sinkKept h
  · obtain ⟨e, he⟩ := illegalWord_eq w s
    rw [he] at h
    cases h
    exact raiseError_sinkKept (sinkKept_of_eq rfl)

theorem runCommand_not_refused (w : Command) (s : State) (r : Refusal) : runCommand w s ≠ .refused r := by
  unfold runCommand
  split
  · next i _ => exact (onlyUnwrittenSourceStopsTheModel i s).1 r
  · obtain ⟨e, he⟩ := illegalWord_eq w s
    rw [he]
    nofun

/-! ### The step, by the next input -/

theorem takeInput_of_inputs {s : State} {input : HostInput} {rest : List HostInput} (h : s.inputs = input :: rest) :
    takeInput s = { s with inputs := rest } := by
  rw [takeInput, h]
  rfl

theorem step_command {s : State} {w : Command} {rest : List HostInput} (h : s.inputs = .command w :: rest) :
    step s = runCommand w { s with inputs := rest } := by
  rw [step, h, ← takeInput_of_inputs h]

theorem step_reset {s : State} {rest : List HostInput} (h : s.inputs = .reset :: rest) :
    step s = .next (resetState { s with inputs := rest }) := by
  rw [step, h, ← takeInput_of_inputs h]

theorem step_cut {s : State} {w : Command} {n : Nat} {rest : List HostInput} (h : s.inputs = .commandCutByReset w n :: rest) :
    step s = cutOutcome n { s with inputs := rest } (runCommand w { s with inputs := rest }) := by
  rw [step, h, ← takeInput_of_inputs h]

theorem runCommand_of_decode {w : Command} {i : Instr} (h : decode w = .ok i) (s : State) : runCommand w s = exec i s := by
  rw [runCommand, h]

/-- Settles O6: the input is taken and the word decoded. -/
theorem stepRunsTheDecodedCommand : Obligations.StepRunsTheDecodedCommand := by
  intro s w rest i hin hdec
  rw [step_command hin, runCommand_of_decode hdec]

/-- A cut command leaves reset values, so its memories list nothing. -/
theorem cutOutcome_memories {n : Nat} {s t : State} {o : Host.Outcome State Fault Refusal} (h : cutOutcome n s o = .next t) :
    CanonicalMemories t := by
  cases o with
  | next after => cases h; exact resetState_memories _
  | fault f => cases h; exact resetState_memories s
  | refused r => cases h

/-- Settles O21: by the next input, on the forms that a command's writes keep and that a reset or an error gives. -/
theorem everyStepKeepsMemoriesCanonical : Obligations.EveryStepKeepsMemoriesCanonical := by
  intro s t hs h
  cases hin : s.inputs with
  | nil =>
    rw [step, hin] at h
    cases h
    exact hs
  | cons input rest =>
    have hs' : CanonicalMemories { s with inputs := rest } := hs
    cases input with
    | command w =>
      rw [step_command hin] at h
      exact runCommand_memories h hs'
    | reset =>
      rw [step_reset hin] at h
      cases h
      exact resetState_memories _
    | commandCutByReset w n =>
      rw [step_cut hin] at h
      exact cutOutcome_memories h

/-- What the sink holds after a command cut by the reset input: the first bytes of what the whole command
would have appended (log 14). -/
theorem cutByReset_sink {s after : State} {bytes : List Byte} (h : after.sink = s.sink ++ bytes) (n : Nat) :
    (cutByReset n s after).sink = s.sink ++ bytes.take n := by
  rw [cutByReset, resetState_sink, h, List.drop_left]

theorem cutByReset_hasResetValues (n : Nat) (s after : State) : HasResetValues (cutByReset n s after) := by
  rw [cutByReset]
  exact resetState_hasResetValues _

/-- Settles O8: both reset inputs end in ResetState(); a cut command's bytes are the first it appends when run whole. -/
theorem resetInputGivesResetValuesAndNoResponse : Obligations.ResetInputGivesResetValuesAndNoResponse := by
  refine ⟨fun s rest hin => ?between, fun s w n rest hin => ?cut⟩
  case between =>
    exact ⟨_, step_reset hin, resetState_hasResetValues _, rfl, rfl, rfl, rfl⟩
  case cut =>
    rw [step_cut hin, step_command (s := { s with inputs := .command w :: rest }) rfl]
    cases hrun : runCommand w { s with inputs := rest } with
    | next after =>
      obtain ⟨bytes, hsink⟩ := runCommand_sinkKept hrun
      refine ⟨_, rfl, cutByReset_hasResetValues n _ after, rfl, rfl, rfl, bytes.take n, cutByReset_sink hsink n,
        List.length_take_le n bytes, ?_⟩
      rintro u ⟨⟩
      exact ⟨bytes.drop n, by rw [hsink, List.append_assoc, List.take_append_drop]⟩
    | fault f =>
      refine ⟨_, rfl, resetState_hasResetValues _, rfl, rfl, rfl, [], (List.append_nil _).symm, Nat.zero_le n, ?_⟩
      rintro u ⟨⟩
    | refused r => exact absurd hrun (runCommand_not_refused w _ r)

end Sys2Proof.Machine
end

section
/-! Commands that answer at once: REG_READ (R160), a refusal (R165), READ_BITS (R118), and what RANK_SORT promises (R133). -/

namespace Sys2Proof

/-- A word with the opcode of a row that takes no width is that row's command. -/
theorem decodesAt_of_row {row : OpcodeRow} (hrow : row ∈ opcodeMap) (hw : row.takesWidth = false) :
    Machine.DecodesAt row.op row.build :=
  fun _ hop hrsv hwidth => decode_of_row hrow hop hrsv (by simp [widthCheck, hw, hwidth])

end Sys2Proof

namespace Sys2Proof.Machine

/-! ### How a command ends -/

theorem sameAll_respond (r : Response) (s : State) : SameAll s (respond r s) :=
  ⟨⟨fun _ => rfl, rfl, rfl, rfl, rfl, rfl, rfl⟩, ⟨fun _ => rfl, rfl, rfl, rfl⟩, ⟨fun _ => rfl, fun _ => rfl, rfl, rfl⟩,
    ⟨fun _ => rfl, fun _ => rfl, rfl, rfl⟩, ⟨rfl, rfl, rfl, rfl, rfl, rfl⟩, ⟨rfl, rfl⟩, rfl⟩

/-- A command that raises e, in the state it started in, takes the error entry with nothing emitted. -/
theorem raises_of_exec {i : Instr} {s : State} {e : ErrCode} (hs : s.err = .noError) (h : exec i s = .next (raiseError e s)) :
    Raises i s e := by
  obtain ⟨hresp, hsink, hhost, herr⟩ := raiseError_keeps e s
  exact ⟨raiseError e s, h, by rw [herr, if_pos hs], hresp, by rw [hsink, List.append_nil], hhost⟩

theorem raises_of_body {i : Instr} {s : State} {e : ErrCode} {body : Result Response} (hi : exec i s = command s body)
    (hs : s.err = .noError) (hbody : body = .raised e s) : Raises i s e :=
  raises_of_exec hs (by rw [hi, command_noError body hs, hbody, finish_raised])

/-! ### REG_READ -/

theorem extractLsb'_high (x : BitVec 64) : x.extractLsb' 32 32 = BitVec.ofNat 32 (x.toNat / 2 ^ 32) := by
  rw [BitVec.extractLsb', Nat.shiftRight_eq_div_pow]

/-- STATUS as the sum of its fields (R53). -/
theorem statusWord_eq (s : State) :
    statusWord s = BitVec.ofNat 32 ((errBits s.err).toNat + 8 * s.wclosed.toNat + 16 * s.ropen.toNat + 32 * s.rsorted.toNat +
      64 * (phaseBits s.cphase).toNat) := by
  unfold statusWord
  cases s.err <;> cases s.wclosed <;> cases s.ropen <;> cases s.rsorted <;> cases s.cphase <;> rfl

theorem rpos_high (x : BitVec 35) : (x.extractLsb' 32 3).setWidth 32 = BitVec.ofNat 32 (x.toNat / 2 ^ 32) := by
  have hlt := x.isLt
  apply BitVec.eq_of_toNat_eq
  rw [BitVec.toNat_setWidth, BitVec.extractLsb'_toNat, BitVec.toNat_ofNat, Nat.shiftRight_eq_div_pow]
  omega

theorem configWord_eq (p : Params) : configWord p = if p.tieBreak = .keyAsc then 1 else 0 := by
  unfold configWord
  cases p.tieBreak <;> rfl

/-- Reg(n) is the register map's value for each of its 20 numbers (R52). -/
theorem regValue_of_mem {s : State} {r : Word × Word} (h : r ∈ registerTable s) : regValue s r.1 = some r.2 := by
  simp only [registerTable, ← statusWord_eq, ← configWord_eq, ← extractLsb'_high, ← rpos_high,
    BitVec.ofNat_toNat, List.mem_cons, List.not_mem_nil, or_false] at h
  rcases h with rfl | rfl | rfl | rfl | rfl | rfl | rfl | rfl | rfl | rfl | rfl | rfl | rfl | rfl | rfl | rfl | rfl | rfl |
    rfl | rfl <;> rfl

theorem regValue_eq_none {s : State} {n : Word} (h : 0x13 < n.toNat) : regValue s n = none := by
  obtain ⟨m, hm⟩ := Nat.exists_eq_add_of_le' h
  rw [regValue, hm]
  rfl

theorem execRegRead_ok {s : State} {n v : Word} (hs : s.err = .noError) (h : regValue s n = some v) :
    exec (.regRead n) s = .next (respond (success v 0 0) s) := by
  simp only [exec, execRegRead, if_pos hs, h]

theorem execRegRead_usageError {s : State} {n : Word} (hs : s.err = .noError) (h : regValue s n = none) :
    exec (.regRead n) s = .next (raiseError .usageError s) := by
  simp only [exec, execRegRead, if_pos hs, h]

/-- Settles O26: the register map's 20 rows, and no value for any other number. -/
theorem regReadReturnsTheRegister : Obligations.RegReadReturnsTheRegister := by
  refine ⟨decodesAt_of_row (row := ⟨0x02, false, fun w => .regRead (fieldA w)⟩) (by simp [opcodeMap]) rfl,
    fun s hs => ⟨fun r hr => ?_, fun n hn => ?_⟩⟩
  · exact ⟨_, ⟨execRegRead_ok hs (regValue_of_mem hr), respond_responded _ s, hs, ⟨rfl, rfl⟩, rfl⟩, sameAll_respond _ s⟩
  · exact raises_of_exec hs (execRegRead_usageError hs (regValue_eq_none hn))

/-! ### REG_READ in the error state -/

/-- STATUS in the error state: ERR in bits 2:0, six free bits, zero in bits 31:9 (R53). -/
theorem errorStatus_fields (free : BitVec 6) (code : BitVec 3) :
    (free.setWidth 32 <<< 3 ||| code.setWidth 32).extractLsb' 0 3 = code ∧
      (free.setWidth 32 <<< 3 ||| code.setWidth 32).extractLsb' 9 23 = 0 := by
  constructor
  · ext i hi
    simp [hi, show i < 32 by omega]
  · ext i hi
    have hfree : free.getLsbD (9 + i - 3) = false := BitVec.getLsbD_of_ge _ _ (by omega)
    have hcode : code.getLsbD (9 + i) = false := BitVec.getLsbD_of_ge _ _ (by omega)
    simp [hfree, hcode]

/-- What REG_READ gives for v in register n of the error state: the bits R53 and R165 fix, and no others. -/
def ErrorRegister (s : State) (n v : Word) : Prop :=
  (n = 0x00 → v.extractLsb' 0 3 = errBits s.err ∧ v.extractLsb' 9 23 = 0) ∧ (n = 0x11 → v = 0xFFBEADFF) ∧
    (n = 0x12 → v = if s.params.tieBreak = .keyAsc then 1 else 0) ∧ (n = 0x13 → v = s.params.srcMax)

theorem regValueInError_of_le (s : State) {n : Word} (h : n.toNat ≤ 0x13) :
    ∃ v, regValueInError s n = some v ∧ ErrorRegister s n v := by
  have hn (k : Nat) (hk : n.toNat = k) : n = BitVec.ofNat 32 k := by rw [← hk, BitVec.ofNat_toNat, BitVec.setWidth_eq]
  unfold regValueInError
  split
  · next h0 =>
    obtain rfl := hn _ h0
    exact ⟨_, rfl, fun _ => errorStatus_fields _ _, nofun, nofun, nofun⟩
  · next h0 =>
    obtain rfl := hn _ h0
    exact ⟨_, rfl, nofun, fun _ => rfl, nofun, nofun⟩
  · next h0 =>
    obtain rfl := hn _ h0
    exact ⟨_, rfl, nofun, nofun, fun _ => configWord_eq _, nofun⟩
  · next h0 =>
    obtain rfl := hn _ h0
    exact ⟨_, rfl, nofun, nofun, nofun, fun _ => rfl⟩
  · next h0 h1 h2 h3 =>
    refine ⟨_, if_pos (by omega), ?_, ?_, ?_, ?_⟩ <;> rintro rfl
    · exact absurd rfl h0
    · exact absurd rfl h1
    · exact absurd rfl h2
    · exact absurd rfl h3

theorem regValueInError_eq_none (s : State) {n : Word} (h : 0x13 < n.toNat) : regValueInError s n = none := by
  obtain ⟨m, hm⟩ := Nat.exists_eq_add_of_le' h
  rw [regValueInError, hm]
  exact if_neg (by omega)

/-- Settles O27: a value in every register number, drawn with nothing else changed, and the refusal of any other number. -/
theorem regReadInTheErrorState : Obligations.RegReadInTheErrorState := by
  refine fun s hs => ⟨fun n hn => ?_, fun n hn => ?_⟩
  · obtain ⟨v, hv, hbits⟩ := regValueInError_of_le s hn
    have hexec : exec (.regRead n) s = .next (respond (success v 0 0) { s with freeDraws := s.freeDraws + 1 }) := by
      simp only [exec, execRegRead, if_neg hs, hv]
    exact ⟨_, v, hexec, ⟨rfl, rfl, rfl, rfl, rfl⟩, rfl, ⟨fun _ => rfl, rfl, rfl, rfl, rfl, rfl, rfl⟩,
      ⟨fun _ => rfl, rfl, rfl, rfl⟩, ⟨rfl, rfl, rfl, rfl, rfl, rfl⟩, ⟨rfl, rfl⟩, rfl, rfl, rfl, rfl, rfl, rfl, rfl, rfl, hbits⟩
  · have hexec : exec (.regRead n) s = .next (respond (failure .usageError) s) := by
      simp only [exec, execRegRead, if_neg hs, regValueInError_eq_none s hn, raiseError_sticky hs]
    exact ⟨_, hexec, respond_responded _ s, sameAll_respond _ s⟩

/-! ### A closed writer -/

/-- The check that fails may be this one or a later one: the error is UsageError. -/
theorem require_usageError {α : Type} {c : Prop} [Decidable c] {s : State} {rest : Result α}
    (h : c → rest = .raised .usageError s) : require c s rest = .raised .usageError s := by
  by_cases hc : c
  · rw [require_true hc, h hc]
  · exact require_false hc

theorem require_open_closed {α : Type} {s : State} (hc : s.wclosed = true) (rest : Result α) :
    require (s.wclosed = false) s rest = .raised .usageError s := require_false (by simp [hc])

/-- Settles O32: each of the eight commands has the check, and only UsageErrors stand before it. -/
theorem closedWriterRefusesWriting : Obligations.ClosedWriterRefusesWriting := by
  refine fun s hs hc => ⟨fun width value => ?writeBits, fun rows cols n => ?writeHeader, ?flush, ?close,
    fun rows cols => ?encHeader, ?encPalette, fun p => ?encPixel, ?encFinish⟩
  case writeBits => exact raises_of_body rfl hs <| require_usageError fun _ => require_open_closed hc _
  case writeHeader => exact raises_of_body rfl hs <| require_open_closed hc _
  case flush => exact raises_of_body rfl hs <| require_open_closed hc _
  case close => exact raises_of_body rfl hs <| require_open_closed hc _
  case encHeader =>
    exact raises_of_body rfl hs <| require_usageError fun _ => require_usageError fun _ => require_false (by simp [hc])
  case encPalette => exact raises_of_body rfl hs <| require_usageError fun _ => require_open_closed hc _
  case encPixel => exact raises_of_body rfl hs <| require_usageError fun _ => require_open_closed hc _
  case encFinish => exact raises_of_body rfl hs <| require_usageError fun _ => require_open_closed hc _

/-! ### READ_BITS -/

theorem widthOk_iff (width : BitVec 6) : widthOk width = true ↔ width.toNat ≤ 32 := decide_eq_true_iff

/-- GetBits answers only where every bit it takes was written (R33, log 9). -/
theorem srcWritten_of_srcBits {s : State} {pos w : Nat} {bits : List Bool} (h : srcBits s pos w = .ok bits) :
    SrcWritten s pos (pos + w) := by
  induction w generalizing pos bits with
  | zero => intro k h1 h2; omega
  | succ w ih =>
    unfold srcBits at h
    split at h
    · cases h
    · next b hb =>
      split at h
      · cases h
      · next rest hrest =>
        intro k h1 h2
        by_cases hk : k = pos
        · simp [hk, hb]
        · exact ih hrest k (by omega) (by omega)

theorem srcByte?_of_srcBit?_none {s : State} {k : Nat} (h : srcBit? s k = none) : srcByte? s (k / 8) = none := by
  unfold srcBit? at h
  split at h
  · assumption
  · cases h

/-- GetBits where a bit it would take is not written: the model's stop at one that is not. -/
theorem getBits_unwritten {s : State} {w : Nat} (hle : s.rpos.toNat + w ≤ 8 * s.srcLen.toNat)
    (h : ¬SrcWritten s s.rpos.toNat (s.rpos.toNat + w)) :
    ∃ offset, getBits w s = .fault (.srcUnwritten offset) ∧ srcByte? s offset = none := by
  cases hb : srcBits s s.rpos.toNat w with
  | error offset =>
    obtain ⟨k, -, -, rfl, hk⟩ := srcBits_error hb
    exact ⟨k / 8, by rw [getBits, if_neg (by omega), hb], srcByte?_of_srcBit?_none hk⟩
  | ok bits => exact absurd (srcWritten_of_srcBits hb) h

/-- What an operation that moves only RPOS leaves as it was. -/
theorem OnlyRpos.same {s t : State} (h : OnlyRpos s t) :
    SameWriter s t ∧ SameCounts s t ∧ SameRanking s t ∧ SameCodec s t ∧ SameHost s t := by
  rw [h]
  exact ⟨⟨fun _ => rfl, rfl, rfl, rfl, rfl, rfl, rfl⟩, ⟨fun _ => rfl, fun _ => rfl, rfl, rfl⟩,
    ⟨fun _ => rfl, fun _ => rfl, rfl, rfl⟩, ⟨rfl, rfl, rfl, rfl, rfl, rfl⟩, rfl, rfl⟩

/-- READ_BITS behind its checks (R118). -/
theorem execReadBits_checked {width : BitVec 6} {s : State} (hs : s.err = .noError) (hw : width.toNat ≤ 32)
    (ho : s.ropen = true) :
    exec (.readBits width) s = finish ((getBits width.toNat s).andThen fun v t => .ok (success v 0 0) t) := by
  simp only [exec, execReadBits]
  rw [command_noError _ hs, require_true ((widthOk_iff width).2 hw), require_true ho]

theorem execReadBits_field {width : BitVec 6} {s : State} {v : Word} (hs : s.err = .noError) (hw : width.toNat ≤ 32)
    (ho : s.ropen = true) (hr : Readable s width.toNat) (hv : FieldAt s s.rpos.toNat width.toNat v) :
    ∃ t, exec (.readBits width) s = .next (respond (success v 0 0) t) ∧ OnlyRpos s t ∧
      t.rpos.toNat = s.rpos.toNat + width.toNat := by
  obtain ⟨t, ht, honly, hpos⟩ := getBits_field hw hr hv
  exact ⟨t, by rw [execReadBits_checked hs hw ho, ht, andThen_ok, finish_ok], honly, hpos⟩

/-- Settles O36: GetBits behind the checks of the width and of the reader. -/
theorem readBitsReturnsTheFieldAtTheCursor : Obligations.ReadBitsReturnsTheFieldAtTheCursor := by
  refine ⟨fun w hop hrsv hw => ?decodes, fun width s hs => ⟨fun h => ?usage, fun hw ho => ⟨fun hshort => ?short,
    fun hr v hv => ?field, fun hle hun => ?unwritten⟩⟩⟩
  case decodes =>
    exact decode_of_row (row := ⟨0x1A, true, fun w => .readBits (widthField w)⟩) (by simp [opcodeMap]) hop hrsv
      ((widthOk_iff _).2 hw)
  case usage =>
    refine raises_of_body rfl hs <| require_usageError fun hw => require_false fun ho => ?_
    rw [widthOk_iff] at hw
    rcases h with h | h
    · omega
    · simp [ho] at h
  case short =>
    exact raises_of_exec hs (by rw [execReadBits_checked hs hw ho, getBits_short hshort, andThen_raised, finish_raised])
  case field =>
    obtain ⟨t, hexec, honly, hpos⟩ := execReadBits_field hs hw ho hr hv
    obtain ⟨hwriter, hcounts, hranking, hcodec, hhost⟩ := honly.same
    have hresponses : t.responses = s.responses := by rw [honly]
    have hdraws : t.freeDraws = s.freeDraws := by rw [honly]
    have hopen : t.ropen = true := by rw [honly]; exact ho
    exact ⟨respond (success v 0 0) t,
      ⟨hexec, ⟨rfl, rfl, rfl, rfl, by rw [respond_responses, hresponses]; rfl⟩, honly.sameInstance.2.trans hs, hhost, hdraws⟩,
      hpos, honly.srcLen, hopen, honly.srcByte?, hwriter, hcounts, hranking, hcodec⟩
  case unwritten =>
    obtain ⟨offset, hget, hbyte⟩ := getBits_unwritten hle hun
    exact ⟨offset, by rw [execReadBits_checked hs hw ho, hget, andThen_fault, finish_fault], hbyte⟩

/-! ### The ranking -/

/-- Counts descend along PAL, not only from one rank to the next (R54 item 4). -/
theorem RankingConsistent.descending {s : State} (h : RankingConsistent s) {i j : Nat} (hij : i ≤ j) (hj : j < s.palLen.toNat) :
    (cntEntry s (palEntry s j)).toNat ≤ (cntEntry s (palEntry s i)).toNat := by
  obtain ⟨-, -, hnext, -⟩ := h
  induction j, hij using Nat.le_induction with
  | base => exact le_rfl
  | succ j _ ih => exact (hnext j hj).trans (ih (by omega))

/-- The key at a rank below NDIST is a counted one. -/
theorem RankingConsistent.counted {s : State} (h : RankingConsistent s) (hc : CountsConsistent s) {i : Nat}
    (hi : i < s.palLen.toNat) : cntEntry s (palEntry s i) ≠ 0 := by
  obtain ⟨-, hperm, -, -⟩ := h
  obtain ⟨-, hmem, -⟩ := hc
  exact (hmem _).1 (hperm.mem_iff.1 (List.mem_map.2 ⟨i, List.mem_range.2 hi, rfl⟩))

/-- RANK_SORT that answers code 0 leaves the sorted ranking (R130). -/
theorem exec_rankSort {s : State} (hs : s.err = .noError) (hp : s.cphase = .idle) :
    exec .rankSort s = .next (respond (success (s.ndist.setWidth 32) 0 0) (afterRankSort s)) := by
  simp only [exec, execRankSort]
  rw [command_noError _ hs, require_true hp, finish_ok, afterRankSort]

/-- Settles O47: R54's items 3 and 4, which RANK_SORT establishes, say that PAL and RANKOF are inverse and counts descend. -/
theorem rankingIsADescendingBijection : Obligations.RankingIsADescendingBijection := by
  intro s t hinv hs hp h
  rw [exec_rankSort hs hp] at h
  cases h
  obtain ⟨-, hhealthy⟩ := (invariant_iff_healthy hs).1 hinv
  obtain ⟨-, hcounts, hrank, -⟩ := afterRankSort_rankerOk hhealthy.ranker
  have hrank : RankingConsistent (afterRankSort s) := hrank rfl
  obtain ⟨hlen, -, -, hranks⟩ := id hrank
  have hbijective (k : Key) (hk : cntEntry (afterRankSort s) k ≠ 0) := hcounts.rank hrank hk
  refine ⟨hbijective, fun i hi => ?inverse, fun i j hij hj => ?descending, fun k hk => ?maximal⟩
  case inverse => exact ⟨hrank.counted hcounts (hlen ▸ hi), hranks i (hlen ▸ hi)⟩
  case descending => exact hrank.descending hij (hlen ▸ hj)
  case maximal =>
    obtain ⟨hlt, hpal⟩ := hbijective k hk
    have hle := hrank.descending (Nat.zero_le _) (hlen ▸ hlt)
    rwa [hpal] at hle

end Sys2Proof.Machine
end

section
/-! Noninterference of the bits of WBUF at and above WPOS (R29, R108): two runs side by side, whose states differ in no more than
those bits. One rule for each way bodies are put together, one lemma for each shared operation and each command. -/

namespace Sys2Proof.Machine

/-- s with WBUF's contents replaced. -/
def withWbuf (m : Memory) (s : State) : State := { s with wbuf := m }

@[simp] theorem withWbuf_wpos (m : Memory) (s : State) : (withWbuf m s).wpos = s.wpos := rfl

/-- m, as WBUF of s, has the bits of s's own below WPOS, and WPOS is inside the buffer (R54 item 1). -/
def StaleBuffer (m : Memory) (s : State) : Prop :=
  s.wpos.toNat < 32768 ∧ ∀ k, k < s.wpos.toNat → wbufBit (withWbuf m s) k = wbufBit s k

/-- Two bodies end alike: in states that differ only in stale bits, WPOS inside the buffer where they answer. -/
inductive Alike {α : Type} : Result α → Result α → Prop where
  | answered {t t' : State} (a : α) (h : SameButStaleBits t t') (hw : t.wpos.toNat < 32768) : Alike (.ok a t) (.ok a t')
  | failed {t t' : State} (e : ErrCode) (h : SameButStaleBits t t') : Alike (.raised e t) (.raised e t')
  | stopped (f : Fault) : Alike (.fault f) (.fault f)

/-- Two commands end alike. -/
def AnswersAlike (o o' : Host.Outcome State Fault Refusal) : Prop :=
  (∀ t, o = .next t → ∃ t', o' = .next t' ∧ SameButStaleBits t t') ∧ ∀ f, o = .fault f → o' = .fault f

theorem StaleBuffer.same {m : Memory} {s : State} (h : StaleBuffer m s) : SameButStaleBits s (withWbuf m s) := ⟨rfl, h.2⟩

theorem SameButStaleBits.rfl' (s : State) : SameButStaleBits s s := ⟨rfl, fun _ _ => rfl⟩

/-! ### Rules for bodies -/

section
variable {α β : Type} {m : Memory} {s : State}

theorem Alike.ok {t : State} (a : α) (h : StaleBuffer m t) : Alike (.ok a t) (.ok a (withWbuf m t)) :=
  .answered a h.same h.1

theorem Alike.raised {t : State} (e : ErrCode) (h : StaleBuffer m t) :
    Alike (.raised e t : Result α) (.raised e (withWbuf m t)) := .failed e h.same

theorem Alike.require {c : Prop} [Decidable c] {r r' : Result α} (h : StaleBuffer m s) (hr : Alike r r') :
    Alike (require c s r) (require c (withWbuf m s) r') := by
  by_cases hc : c
  · rwa [require_true hc, require_true hc]
  · rw [require_false hc, require_false hc]
    exact Alike.raised _ h

theorem Alike.andThen {r r' : Result α} {k k' : α → State → Result β} (h : Alike r r')
    (hk : ∀ a t m, StaleBuffer m t → Alike (k a t) (k' a (withWbuf m t))) : Alike (r.andThen k) (r'.andThen k') := by
  cases h with
  | @answered t t' a ht hw =>
    obtain ⟨ht', hbits⟩ := ht
    rw [andThen_ok, andThen_ok, ht']
    exact hk a t t'.wbuf ⟨hw, hbits⟩
  | failed e ht => exact .failed e ht
  | stopped f => exact .stopped f

theorem Alike.ite {c : Prop} [Decidable c] {x x' y y' : Result α} (hx : Alike x x') (hy : Alike y y') :
    Alike (if c then x else y) (if c then x' else y') := by
  by_cases hc : c
  · rwa [if_pos hc, if_pos hc]
  · rwa [if_neg hc, if_neg hc]

end

theorem AnswersAlike.next {t t' : State} (h : SameButStaleBits t t') : AnswersAlike (.next t) (.next t') := by
  constructor
  · rintro _ ⟨⟩
    exact ⟨t', rfl, h⟩
  · rintro f ⟨⟩

theorem respond_alike (r : Response) {t t' : State} (h : SameButStaleBits t t') :
    SameButStaleBits (respond r t) (respond r t') := by
  obtain ⟨ht', hbits⟩ := h
  refine ⟨?_, hbits⟩
  rw [ht']
  rfl

/-- The first error leaves nothing of WBUF (R165). -/
theorem raiseError_alike (e : ErrCode) {t t' : State} (h : SameButStaleBits t t') :
    SameButStaleBits (raiseError e t) (raiseError e t') := by
  have herr : t'.err = t.err := by rw [h.1]
  by_cases ht : t.err = .noError
  · have hfree : unspecified t' = unspecified t := by rw [h.1]; rfl
    rw [raiseError_noError ht, raiseError_noError (herr.trans ht), hfree]
    exact SameButStaleBits.rfl' _
  · rw [raiseError_sticky ht, raiseError_sticky (herr.trans_ne ht)]
    exact respond_alike _ h

theorem AnswersAlike.fault (f : Fault) : AnswersAlike (.fault f) (.fault f) := by
  constructor
  · rintro t ⟨⟩
  · exact fun _ h => h

theorem command_alike {m : Memory} {s : State} (h : StaleBuffer m s) {body body' : Result Response} (hb : Alike body body') :
    AnswersAlike (command s body) (command (withWbuf m s) body') := by
  by_cases hs : s.err = .noError
  · rw [command_noError body hs, command_noError body' (s := withWbuf m s) hs]
    cases hb with
    | answered r ht _ => exact .next (respond_alike r ht)
    | failed e ht => exact .next (raiseError_alike e ht)
    | stopped f => exact .fault f
  · rw [command_sticky body hs, command_sticky body' (s := withWbuf m s) hs]
    exact .next (respond_alike _ h.same)

/-! ### The writer's operations -/

/-- Bytes are emitted alike from any two buffers, and the buffer is empty after them. -/
theorem emitAll_empty_alike (bytes : List Byte) {s s' : State} (h : SameButStaleBits s s') :
    Alike ((emitAll bytes s).andThen fun _ t => .ok () { t with wpos := 0 })
      ((emitAll bytes s').andThen fun _ t => .ok () { t with wpos := 0 }) := by
  obtain ⟨hs', hbits⟩ := h
  rcases emitAll_cases bytes s with ⟨ha, he⟩ | ⟨j, hj, hr, he⟩
  · have ha' : SinkAccepts s' bytes.length := by rw [hs']; exact ha
    rw [he, emitAll_accepted ha', andThen_ok, andThen_ok]
    refine .answered () ⟨?_, fun k hk => absurd hk (Nat.not_lt_zero k)⟩ (Nat.zero_lt_succ _)
    rw [hs']
    rfl
  · have hr' : FirstRefusalAt s' j := by rw [hs']; exact hr
    rw [he, emitAll_refused hj hr', andThen_raised, andThen_raised]
    refine .failed .ioError ⟨?_, hbits⟩
    rw [hs']
    rfl

/-- A byte of WBUF is its eight stream bits. -/
theorem wbufByte_eq_of_bits {s t : State} {j : Nat} (h : ∀ i, i < 8 → wbufBit t (8 * j + i) = wbufBit s (8 * j + i)) :
    wbufByte t j = wbufByte s j := by
  apply BitVec.eq_of_getLsbD_eq
  intro i hi
  have hbit := h i hi
  unfold wbufBit at hbit
  rwa [show (8 * j + i) / 8 = j by omega, show (8 * j + i) % 8 = i by omega] at hbit

/-- A full buffer holds no stale bit, so it is emitted alike (R107). -/
theorem emitFull_alike {s s' : State} (hw : s.wpos.toNat = Config.wbufBits) (h : SameButStaleBits s s') :
    Alike (emitFull s) (emitFull s') := by
  have hbytes : (List.range Config.wbufBytes).map (wbufByte s') = (List.range Config.wbufBytes).map (wbufByte s) := by
    refine List.map_congr_left fun j hj => wbufByte_eq_of_bits fun i hi => h.2 _ ?_
    have hj : j < Config.wbufBytes := List.mem_range.1 hj
    unfold Config.wbufBits at hw
    unfold Config.wbufBytes at hj
    omega
  rw [emitFull, emitFull, hbytes]
  exact emitAll_empty_alike _ h

/-- FlushBuf masks the bits it did not write (R108). -/
theorem flushBuf_alike {m : Memory} {s : State} (h : StaleBuffer m s) : Alike (flushBuf s) (flushBuf (withWbuf m s)) := by
  have hbytes : flushBytes (withWbuf m s) = flushBytes s := by
    refine List.map_congr_left fun j hj => BitVec.eq_of_getLsbD_eq fun i hi => ?_
    have hj : j < flushLength s := List.mem_range.1 hj
    rw [flushByte_getLsbD (s := withWbuf m s) hj hi, flushByte_getLsbD hj hi, withWbuf_wpos]
    by_cases hk : 8 * j + i < s.wpos.toNat
    · rw [h.2 _ hk]
    · rw [decide_eq_false hk, Bool.false_and, Bool.false_and]
  rw [flushBuf, flushBuf, hbytes]
  exact emitAll_empty_alike _ h.same

theorem storeBit_same (b : Bool) {m : Memory} {s : State} (h : StaleBuffer m s) :
    SameButStaleBits (storeBit b s) (storeBit b (withWbuf m s)) := by
  refine ⟨rfl, fun k hk => ?_⟩
  rw [storeBit_wpos_toNat h.1] at hk
  rw [wbufBit_storeBit, wbufBit_storeBit, withWbuf_wpos]
  by_cases hk' : k = s.wpos.toNat
  · rw [if_pos hk', if_pos hk']
  · rw [if_neg hk', if_neg hk']
    exact h.2 k (by omega)

theorem putBit_alike (b : Bool) {m : Memory} {s : State} (h : StaleBuffer m s) :
    Alike (putBit b s) (putBit b (withWbuf m s)) := by
  have hsame := storeBit_same b h
  have hw : (storeBit b s).wpos.toNat = s.wpos.toNat + 1 := storeBit_wpos_toNat h.1
  have hlt := h.1
  by_cases hfull : (storeBit b s).wpos.toNat = Config.wbufBits
  · rw [putBit, if_pos hfull, putBit, if_pos (show (storeBit b (withWbuf m s)).wpos.toNat = Config.wbufBits from hfull)]
    exact emitFull_alike hfull hsame
  · rw [putBit, if_neg hfull, putBit, if_neg (show ¬(storeBit b (withWbuf m s)).wpos.toNat = Config.wbufBits from hfull)]
    unfold Config.wbufBits at hfull
    exact .answered () hsame (by omega)

theorem putAll_alike (bits : List Bool) {m : Memory} {s : State} (h : StaleBuffer m s) :
    Alike (putAll bits s) (putAll bits (withWbuf m s)) := by
  induction bits generalizing m s with
  | nil => exact .ok () h
  | cons b rest ih => exact (putBit_alike b h).andThen fun _ _ _ ht => ih ht

theorem putBits_alike (v : Word) (w : Nat) {m : Memory} {s : State} (h : StaleBuffer m s) :
    Alike (putBits v w s) (putBits v w (withWbuf m s)) := putAll_alike _ h

theorem putHeader_alike (rows cols numColors : Word) {m : Memory} {s : State} (h : StaleBuffer m s) :
    Alike (putHeader rows cols numColors s) (putHeader rows cols numColors (withWbuf m s)) := by
  rw [putHeader_eq, putHeader_eq]
  exact putAll_alike _ h

theorem putPalette_alike (n i : Nat) {m : Memory} {s : State} (h : StaleBuffer m s) :
    Alike (putPalette n i s) (putPalette n i (withWbuf m s)) := by
  rw [putPalette_eq, putPalette_eq]
  exact putAll_alike _ h

/-! ### The reader's operations -/

theorem srcBits_withWbuf (m : Memory) (s : State) (pos w : Nat) : srcBits (withWbuf m s) pos w = srcBits s pos w := by
  induction w generalizing pos with
  | zero => rfl
  | succ w ih =>
    have hbit : srcBit? (withWbuf m s) pos = srcBit? s pos := rfl
    rw [srcBits, srcBits, ih, hbit]

theorem getBits_alike (w : Nat) {m : Memory} {s : State} (h : StaleBuffer m s) :
    Alike (getBits w s) (getBits w (withWbuf m s)) := by
  have hbits : srcBits (withWbuf m s) (withWbuf m s).rpos.toNat w = srcBits s s.rpos.toNat w := srcBits_withWbuf m s _ w
  unfold getBits
  refine .ite (.raised _ h) ?_
  rw [hbits]
  split
  · exact .stopped _
  · exact .ok _ h

theorem getHeader_alike {m : Memory} {s : State} (h : StaleBuffer m s) :
    Alike (getHeader s) (getHeader (withWbuf m s)) :=
  (getBits_alike 32 h).andThen fun _ _ _ h => .ite
    ((getBits_alike 32 h).andThen fun _ _ _ h => (getBits_alike 32 h).andThen fun _ _ _ h =>
      (getBits_alike 32 h).andThen fun _ _ _ h => .ok _ h)
    (.raised _ h)

theorem getPalette_alike (n i : Nat) {m : Memory} {s : State} (h : StaleBuffer m s) :
    Alike (getPalette n i s) (getPalette n i (withWbuf m s)) := by
  induction n generalizing i m s with
  | zero => exact .ok () h
  | succ n ih =>
    refine (getBits_alike _ h).andThen fun v t m ht => ?_
    exact ih (i + 1) (s := { t with pal := writeCell tableUnlisted t.pal i (v.setWidth 18) }) ht

/-! ### The ranker's operations -/

theorem storeRanking_withWbuf (m : Memory) (keys : List Key) (i : Nat) (s : State) :
    storeRanking keys i (withWbuf m s) = withWbuf m (storeRanking keys i s) := by
  induction keys generalizing i s with
  | nil => rfl
  | cons k rest ih =>
    exact ih (i + 1)
      { s with
        pal := writeCell tableUnlisted s.pal i k
        rankof := writeCell tableUnlisted s.rankof k.toNat (BitVec.ofNat 18 i) }

theorem rankedKeys_withWbuf (m : Memory) (s : State) : rankedKeys (withWbuf m s) = rankedKeys s := rfl

theorem OnlyRanking.stale {m : Memory} {s t : State} (h : OnlyRanking s t) (hs : StaleBuffer m s) : StaleBuffer m t := by
  rw [h]
  exact hs

/-! ### Every command -/

section
variable {m : Memory} {s : State}

theorem execReset_alike : AnswersAlike (execReset s) (execReset (withWbuf m s)) := .next (SameButStaleBits.rfl' _)

theorem execRegRead_alike (number : Word) (h : StaleBuffer m s) :
    AnswersAlike (execRegRead number s) (execRegRead number (withWbuf m s)) := by
  have hvalue : regValue (withWbuf m s) number = regValue s number := rfl
  have hvalue' : regValueInError (withWbuf m s) number = regValueInError s number := rfl
  have herror := AnswersAlike.next (raiseError_alike .usageError h.same)
  by_cases hs : s.err = .noError
  · rw [execRegRead, if_pos hs, execRegRead, if_pos (show (withWbuf m s).err = .noError from hs), hvalue]
    cases regValue s number with
    | some v => exact .next (respond_alike _ h.same)
    | none => exact herror
  · rw [execRegRead, if_neg hs, execRegRead, if_neg (show (withWbuf m s).err ≠ .noError from hs), hvalue']
    cases regValueInError s number with
    | some v => exact .next (respond_alike _ ⟨rfl, h.2⟩)
    | none => exact herror

theorem execWriteBits_alike (width : BitVec 6) (value : Word) (h : StaleBuffer m s) :
    AnswersAlike (execWriteBits width value s) (execWriteBits width value (withWbuf m s)) :=
  command_alike h <| .require h <| .require h <| (putBits_alike _ _ h).andThen fun _ _ _ ht => .ok _ ht

theorem execWriteHeader_alike (rows cols numColors : Word) (h : StaleBuffer m s) :
    AnswersAlike (execWriteHeader rows cols numColors s) (execWriteHeader rows cols numColors (withWbuf m s)) :=
  command_alike h <| .require h <| (putHeader_alike _ _ _ h).andThen fun _ _ _ ht => .ok _ ht

theorem execFlush_alike (h : StaleBuffer m s) : AnswersAlike (execFlush s) (execFlush (withWbuf m s)) :=
  command_alike h <| .require h <| (flushBuf_alike h).andThen fun _ _ _ ht => .ok _ ht

theorem execClose_alike (h : StaleBuffer m s) : AnswersAlike (execClose s) (execClose (withWbuf m s)) :=
  command_alike h <| .require h <| (flushBuf_alike h).andThen fun _ t _ ht => .ok (t := { t with wclosed := true }) _ ht

theorem execSrcWrite_alike (offset : Word) (byte : Byte) (h : StaleBuffer m s) :
    AnswersAlike (execSrcWrite offset byte s) (execSrcWrite offset byte (withWbuf m s)) :=
  command_alike h <| .require h <| .require h <|
    .ok (t := { s with src := writeCell srcUnlisted s.src offset.toNat byte }) _ h

theorem execReaderOpen_alike (length : Word) (h : StaleBuffer m s) :
    AnswersAlike (execReaderOpen length s) (execReaderOpen length (withWbuf m s)) :=
  command_alike h <| .require h <| .require h <| .ok (t := { s with srcLen := length, rpos := 0, ropen := true }) _ h

theorem execReadBits_alike (width : BitVec 6) (h : StaleBuffer m s) :
    AnswersAlike (execReadBits width s) (execReadBits width (withWbuf m s)) :=
  command_alike h <| .require h <| .require h <| (getBits_alike _ h).andThen fun _ _ _ ht => .ok _ ht

theorem execReadHeader_alike (h : StaleBuffer m s) : AnswersAlike (execReadHeader s) (execReadHeader (withWbuf m s)) :=
  command_alike h <| .require h <| (getHeader_alike h).andThen fun _ _ _ ht => .ok _ ht

theorem execRankClear_alike (h : StaleBuffer m s) : AnswersAlike (execRankClear s) (execRankClear (withWbuf m s)) :=
  command_alike h <| .require h <|
    .ok (t := { s with cnt := [], ndist := 0, total := 0, rsorted := false, palLen := 0 }) _ h

theorem execRankCount_alike (pixel : Pixel) (h : StaleBuffer m s) :
    AnswersAlike (execRankCount pixel s) (execRankCount pixel (withWbuf m s)) :=
  command_alike h <| .require h <| .require h <| .ok (t := countKey (quant pixel) s) _ h

theorem execRankSort_alike (h : StaleBuffer m s) : AnswersAlike (execRankSort s) (execRankSort (withWbuf m s)) := by
  refine command_alike h <| .require h ?_
  rw [rankedKeys_withWbuf, storeRanking_withWbuf]
  have ht := (storeRanking_only (rankedKeys s) 0 s).stale h
  exact .ok (t := { storeRanking (rankedKeys s) 0 s with palLen := s.ndist, rsorted := true }) _ ht

theorem execRankLookup_alike (key : Key) (h : StaleBuffer m s) :
    AnswersAlike (execRankLookup key s) (execRankLookup key (withWbuf m s)) :=
  command_alike h <| .require h <| .require h <| .ok _ h

theorem execPalRead_alike (rank : Word) (h : StaleBuffer m s) :
    AnswersAlike (execPalRead rank s) (execPalRead rank (withWbuf m s)) :=
  command_alike h <| .require h <| .ok _ h

theorem execEncHeader_alike (rows cols : Word) (h : StaleBuffer m s) :
    AnswersAlike (execEncHeader rows cols s) (execEncHeader rows cols (withWbuf m s)) :=
  command_alike h <| .require h <| .require h <| .require h <| .require h <| .ite (.raised _ h) <|
    (putHeader_alike _ _ _ h).andThen fun _ t _ ht =>
      .ok (t := { loadHeader rows cols (t.ndist.setWidth 32) t with cphase := .encPal }) _ ht

theorem execEncPalette_alike (h : StaleBuffer m s) : AnswersAlike (execEncPalette s) (execEncPalette (withWbuf m s)) :=
  command_alike h <| .require h <| .require h <| (putPalette_alike _ _ h).andThen fun _ t _ ht =>
    .ok (t := { t with cphase := .encPix }) _ ht

theorem execEncPixel_alike (pixel : Pixel) (h : StaleBuffer m s) :
    AnswersAlike (execEncPixel pixel s) (execEncPixel pixel (withWbuf m s)) :=
  command_alike h <| .require h <| .require h <| .require h <| .require h <| (putBits_alike _ _ h).andThen fun _ t _ ht =>
    .ok (t := { t with pixrem := t.pixrem - 1 }) _ ht

theorem execEncFinish_alike (h : StaleBuffer m s) : AnswersAlike (execEncFinish s) (execEncFinish (withWbuf m s)) :=
  command_alike h <| .require h <| .require h <| .require h <| (flushBuf_alike h).andThen fun _ t _ ht =>
    .ok (t := { t with wclosed := true, cphase := .encDone }) _ ht

theorem execDecHeader_alike (h : StaleBuffer m s) : AnswersAlike (execDecHeader s) (execDecHeader (withWbuf m s)) :=
  command_alike h <| .require h <| .require h <| .require h <| (getHeader_alike h).andThen fun header t _ ht =>
    .ite (.raised _ ht) <|
      .ok (t := { loadHeader header.1 header.2.1 header.2.2 t with rsorted := false, cphase := .decPal }) _ ht

theorem execDecPalette_alike (h : StaleBuffer m s) : AnswersAlike (execDecPalette s) (execDecPalette (withWbuf m s)) :=
  command_alike h <| .require h <| (getPalette_alike _ _ h).andThen fun _ t _ ht =>
    .ok (t := { t with palLen := t.ncolors.setWidth 19, cphase := .decPix }) _ ht

theorem execDecPixel_alike (h : StaleBuffer m s) : AnswersAlike (execDecPixel s) (execDecPixel (withWbuf m s)) :=
  command_alike h <| .require h <| .require h <| (getBits_alike _ h).andThen fun _ t _ ht =>
    .ite (.ok (t := { t with pixrem := t.pixrem - 1 }) _ ht) (.raised _ ht)

/-- Every command ends alike from two states that differ only in stale bits of WBUF. -/
theorem exec_alike (i : Instr) (h : StaleBuffer m s) : AnswersAlike (exec i s) (exec i (withWbuf m s)) := by
  cases i with
  | nop => exact .next (respond_alike _ h.same)
  | reset => exact execReset_alike
  | regRead number => exact execRegRead_alike number h
  | writeBits width value => exact execWriteBits_alike width value h
  | writeHeader rows cols numColors => exact execWriteHeader_alike rows cols numColors h
  | flush => exact execFlush_alike h
  | close => exact execClose_alike h
  | srcWrite offset byte => exact execSrcWrite_alike offset byte h
  | readerOpen length => exact execReaderOpen_alike length h
  | readBits width => exact execReadBits_alike width h
  | readHeader => exact execReadHeader_alike h
  | quantize pixel => exact command_alike h (.ok _ h)
  | dequantize key => exact command_alike h (.ok _ h)
  | rankClear => exact execRankClear_alike h
  | rankCount pixel => exact execRankCount_alike pixel h
  | rankSort => exact execRankSort_alike h
  | rankLookup key => exact execRankLookup_alike key h
  | palRead rank => exact execPalRead_alike rank h
  | encHeader rows cols => exact execEncHeader_alike rows cols h
  | encPalette => exact execEncPalette_alike h
  | encPixel pixel => exact execEncPixel_alike pixel h
  | encFinish => exact execEncFinish_alike h
  | rankWidth n => exact command_alike h (.ok _ h)
  | decHeader => exact execDecHeader_alike h
  | decPalette => exact execDecPalette_alike h
  | decPixel => exact execDecPixel_alike h

end

/-- Settles O22: the second state is the first with another WBUF, and every command ends alike in the two. -/
theorem staleBufferBitsAreUnobservable : Obligations.StaleBufferBitsAreUnobservable := by
  rintro i s s' hw ⟨hs', hbits⟩
  rw [hs']
  exact exec_alike i ⟨hw, hbits⟩

end Sys2Proof.Machine
end

section
/-! The sink stream, step by step (R61, R62): no step takes a byte back, and only a command that R56 lists under the sink stream
appends one, however the command ends. -/

namespace Sys2Proof.Machine

/-! ### Every step -/

/-- A cut command leaves the bytes it was let offer, and nothing is taken back (R187; log 14). -/
theorem cutOutcome_sinkKept {n : Nat} {w : Command} {s t : State} (h : cutOutcome n s (runCommand w s) = .next t) :
    SinkKept s t := by
  cases hrun : runCommand w s with
  | next after =>
    rw [hrun] at h
    cases h
    obtain ⟨bytes, hsink⟩ := runCommand_sinkKept hrun
    exact ⟨bytes.take n, cutByReset_sink hsink n⟩
  | fault f =>
    rw [hrun] at h
    cases h
    exact sinkKept_of_eq (resetState_sink s)
  | refused r => exact absurd hrun (runCommand_not_refused w s r)

/-- By the next input: no step takes a byte out of the sink stream. -/
theorem step_sinkKept {s t : State} (h : step s = .next t) : SinkKept s t := by
  cases hin : s.inputs with
  | nil =>
    rw [step, hin] at h
    cases h
    exact sinkKept_of_eq rfl
  | cons input rest =>
    cases input with
    | command w =>
      rw [step_command hin] at h
      have hkept := runCommand_sinkKept h
      exact hkept
    | reset =>
      rw [step_reset hin] at h
      cases h
      exact sinkKept_of_eq rfl
    | commandCutByReset w n =>
      rw [step_cut hin] at h
      have hkept := cutOutcome_sinkKept h
      exact hkept

/-! ### Commands that offer the sink nothing -/

/-- Wherever a command's body, or a part of it, answers or raises an error, the sink stream is `stream`. -/
def SinkIs {α : Type} (stream : List Byte) (r : Result α) : Prop :=
  match r with
  | .ok _ t => t.sink = stream
  | .raised _ t => t.sink = stream
  | .fault _ => True

/-- The outcome's next state has the sink stream of s. -/
def LeavesSink (s : State) (o : Host.Outcome State Fault Refusal) : Prop := ∀ t, o = .next t → t.sink = s.sink

section
variable {α β : Type} {stream : List Byte} {s t : State}

theorem SinkIs.require {c : Prop} [Decidable c] {r : Result α} (hs : s.sink = stream) (h : SinkIs stream r) :
    SinkIs stream (require c s r) := by
  by_cases hc : c
  · rwa [require_true hc]
  · rwa [require_false hc]

theorem SinkIs.andThen {r : Result α} {k : α → State → Result β} (h : SinkIs stream r)
    (hk : ∀ a t, t.sink = stream → SinkIs stream (k a t)) : SinkIs stream (r.andThen k) := by
  cases r with
  | ok a t => exact hk a t h
  | raised e t => exact h
  | fault f => exact h

theorem LeavesSink.next (h : t.sink = s.sink) : LeavesSink s (.next t) := by
  rintro u ⟨⟩
  exact h

theorem raiseError_sink (e : ErrCode) (s : State) : (raiseError e s).sink = s.sink := by
  obtain ⟨-, hsink, -, -⟩ := raiseError_keeps e s
  exact hsink

/-- Neither the response, nor the error entry, nor the sticky refusal touches the sink stream (R80, R165, R166). -/
theorem command_leavesSink {body : Result Response} (h : SinkIs s.sink body) : LeavesSink s (command s body) := by
  intro t ht
  rcases command_next ht with ⟨-, rfl⟩ | ⟨-, r, u, rfl, rfl⟩ | ⟨-, e, u, rfl, rfl⟩
  · rfl
  · exact h
  · exact (raiseError_sink e u).trans h

theorem ReaderOutcome.sinkIs {r : Result α} (h : ReaderOutcome s r) : SinkIs s.sink r := by
  rcases h with ⟨v, t, rfl, ho, -, -⟩ | ⟨t, rfl, ho⟩ | ⟨f, rfl, -⟩
  · rw [ho]; rfl
  · rw [ho]; rfl
  · trivial

end

theorem getPalette_sinkIs (n i : Nat) (s : State) : SinkIs s.sink (getPalette n i s) := by
  rcases getPalette_outcome n i s with ⟨t, h, ho, -, -⟩ | ⟨t, h, ho⟩ | ⟨f, h, -⟩
  · rw [h, ho]; rfl
  · rw [h, ho]; rfl
  · rw [h]; trivial

theorem execRegRead_leavesSink (number : Word) (s : State) : LeavesSink s (execRegRead number s) := by
  unfold execRegRead
  split
  · split
    · exact .next rfl
    · exact .next (raiseError_sink _ s)
  · split
    · exact .next rfl
    · exact .next (raiseError_sink _ s)

theorem execRankSort_leavesSink (s : State) : LeavesSink s (execRankSort s) := by
  refine command_leavesSink <| .require rfl ?_
  show (storeRanking (rankedKeys s) 0 s).sink = s.sink
  rw [storeRanking_only]

theorem execDecHeader_leavesSink (s : State) : LeavesSink s (execDecHeader s) := by
  refine command_leavesSink <| .require rfl <| .require rfl <| .require rfl <|
    (getHeader_outcome s).sinkIs.andThen fun header t ht => ?_
  split
  · exact ht
  · exact ht

theorem execDecPixel_leavesSink (s : State) : LeavesSink s (execDecPixel s) := by
  refine command_leavesSink <| .require rfl <| .require rfl <|
    (getBits_outcome _ s).sinkIs.andThen fun rank t ht => ?_
  split
  · exact ht
  · exact ht

/-- A command that R56 does not list under the sink stream leaves it as it was, also where it ends with an error. -/
theorem exec_leavesSink {i : Instr} (hi : Part.emitted ∉ writtenParts i) (s : State) : LeavesSink s (exec i s) := by
  cases i with
  | nop => exact .next rfl
  | reset => exact .next rfl
  | regRead number => exact execRegRead_leavesSink number s
  | srcWrite offset byte => exact command_leavesSink <| .require rfl <| .require rfl rfl
  | readerOpen length => exact command_leavesSink <| .require rfl <| .require rfl rfl
  | readBits width =>
    exact command_leavesSink <| .require rfl <| .require rfl <| (getBits_outcome _ s).sinkIs.andThen fun _ _ ht => ht
  | readHeader => exact command_leavesSink <| .require rfl <| (getHeader_outcome s).sinkIs.andThen fun _ _ ht => ht
  | quantize pixel => exact command_leavesSink rfl
  | dequantize key => exact command_leavesSink rfl
  | rankClear => exact command_leavesSink <| .require rfl rfl
  | rankCount pixel => exact command_leavesSink <| .require rfl <| .require rfl rfl
  | rankSort => exact execRankSort_leavesSink s
  | rankLookup key => exact command_leavesSink <| .require rfl <| .require rfl rfl
  | palRead rank => exact command_leavesSink <| .require rfl rfl
  | rankWidth n => exact command_leavesSink rfl
  | decHeader => exact execDecHeader_leavesSink s
  | decPalette => exact command_leavesSink <| .require rfl <| (getPalette_sinkIs _ _ s).andThen fun _ _ ht => ht
  | decPixel => exact execDecPixel_leavesSink s
  | writeBits | writeHeader | flush | close | encHeader | encPalette | encPixel | encFinish =>
    exact absurd (by simp [writtenParts]) hi

/-- Settles O11: no step takes a byte back, and the eight commands named are those that R56 lists under the sink stream. -/
theorem sinkStreamIsAppendOnly : Obligations.SinkStreamIsAppendOnly := by
  refine ⟨fun s t => step_sinkKept, ?_⟩
  intro i s t hbits hheader hflush hclose hencHeader hencPalette hencPixel hencFinish h
  have hsilent : Part.emitted ∉ writtenParts i := by
    cases i with
    | writeBits width value => exact absurd rfl (hbits width value)
    | writeHeader rows cols numColors => exact absurd rfl (hheader rows cols numColors)
    | flush => exact absurd rfl hflush
    | close => exact absurd rfl hclose
    | encHeader rows cols => exact absurd rfl (hencHeader rows cols)
    | encPalette => exact absurd rfl hencPalette
    | encPixel pixel => exact absurd rfl (hencPixel pixel)
    | encFinish => exact absurd rfl hencFinish
    | _ => simp [writtenParts]
  exact exec_leavesSink hsilent s t h

end Sys2Proof.Machine
end

section
/-! The bytes of a header (R64, R110): a run of bits that starts and ends on a byte boundary is its bytes in order, and the
LSB-first order of R14 makes a 32-bit field little-endian. -/

namespace Sys2Proof.Machine

/-! ### Bits and bytes -/

theorem byteBits_inj {a b : Byte} (h : byteBits a = byteBits b) : a = b := by
  refine BitVec.eq_of_getLsbD_eq fun i hi => ?_
  exact List.map_inj_left.1 h i (List.mem_range.2 hi)

/-- A byte stream is determined by its bits (R60). -/
theorem bytesBits_inj {xs ys : List Byte} (h : bytesBits xs = bytesBits ys) : xs = ys := by
  induction xs generalizing ys with
  | nil =>
    have hlen := congrArg List.length h
    rw [bytesBits_length, bytesBits_length] at hlen
    exact (List.length_eq_zero_iff.1 (by simpa using hlen.symm)).symm
  | cons x xs ih =>
    cases ys with
    | nil => simp [bytesBits, byteBits] at h
    | cons y ys =>
      have hsplit : byteBits x ++ bytesBits xs = byteBits y ++ bytesBits ys := h
      obtain ⟨hhead, htail⟩ := List.append_inj hsplit (by rw [byteBits_length, byteBits_length])
      rw [byteBits_inj hhead, ih htail]

/-- The bytes of a word, its low byte first (R64). -/
def littleEndian (v : Word) : List Byte := (List.range 4).map fun j => v.extractLsb' (8 * j) 8

theorem byteBits_extractLsb' (v : Word) (k : Nat) :
    byteBits (v.extractLsb' k 8) = (List.range 8).map fun i => v.getLsbD (k + i) := by
  refine List.map_congr_left fun i hi => ?_
  simp [List.mem_range.1 hi]

/-- The low n bytes of a word, the lowest first, hold its low 8·n bits, bit 0 first. -/
theorem bytesBits_lowBytes (v : Word) (n : Nat) :
    bytesBits ((List.range n).map fun j => v.extractLsb' (8 * j) 8) = lowBits v (8 * n) := by
  induction n with
  | zero => rfl
  | succ n ih =>
    have hlast : bytesBits [v.extractLsb' (8 * n) 8] = (List.range 8).map fun i => v.getLsbD (8 * n + i) := by
      rw [← byteBits_extractLsb', bytesBits, List.flatMap_singleton]
    rw [List.range_succ, List.map_append, bytesBits_append, ih, List.map_singleton, hlast, Nat.mul_succ, lowBits, lowBits,
      List.range_add, List.map_append, List.map_map]
    rfl

theorem bytesBits_littleEndian (v : Word) : bytesBits (littleEndian v) = fieldBits v.toNat 32 := bytesBits_lowBytes v 4

/-- The four fields of a header as bytes (R64). -/
def headerBytes (rows cols numColors : Word) : List Byte := [Config.magic, rows, cols, numColors].flatMap littleEndian

theorem bytesBits_headerBytes (rows cols numColors : Word) :
    bytesBits (headerBytes rows cols numColors) = headerBits rows cols numColors := by
  simp only [headerBytes, List.flatMap_cons, List.flatMap_nil, List.append_nil, bytesBits_append, bytesBits_littleEndian]
  simp only [headerBits, List.append_assoc]
  rfl

/-- The magic's bytes are FF AD BE FF (R64). -/
theorem headerBytes_eq (rows cols numColors : Word) :
    headerBytes rows cols numColors = [0xFF, 0xAD, 0xBE, 0xFF] ++ [rows, cols, numColors].flatMap littleEndian := by
  rw [headerBytes, List.flatMap_cons, show littleEndian Config.magic = [0xFF, 0xAD, 0xBE, 0xFF] by decide]

/-! ### WRITE_HEADER and FLUSH on an open writer -/

/-- WRITE_HEADER on an open writer, with a sink that accepts what it is offered (R110). -/
theorem exec_writeHeader {s : State} (rows cols numColors : Word) (hs : s.err = .noError) (hc : s.wclosed = false)
    (hw : s.wpos.toNat < 32768) (ha : SinkAccepts s (bytesOffered s 128)) :
    ∃ t, exec (.writeHeader rows cols numColors) s = .next (respond (success 0 0 0) t) ∧
      AppendsBits s t (headerBits rows cols numColors) ∧ OnlyWriter s t := by
  obtain ⟨t, ht, happ, honly⟩ := putAll_spec (headerBits rows cols numColors) hw (by rwa [headerBits_length])
  refine ⟨t, ?_, happ, honly⟩
  rw [show exec (.writeHeader rows cols numColors) s = execWriteHeader rows cols numColors s from rfl, execWriteHeader,
    command_noError _ hs, require_true hc, putHeader_eq, ht, andThen_ok, finish_ok]

/-- FLUSH on an open writer, with a sink that accepts what it is offered (R111). -/
theorem exec_flush {s : State} (hs : s.err = .noError) (hc : s.wclosed = false)
    (ha : SinkAccepts s ((s.wpos.toNat + 7) / 8)) :
    ∃ t, exec .flush s = .next (respond (success 0 0 0) t) ∧ FlushesBits s t ∧ OnlyWriter s t := by
  obtain ⟨t, ht, hflush, honly, -⟩ := flushBuf_spec ha
  refine ⟨t, ?_, hflush, honly⟩
  rw [show exec .flush s = execFlush s from rfl, execFlush, command_noError _ hs, require_true hc, ht, andThen_ok, finish_ok]

/-- Bits that an empty writer takes without filling its buffer stay pending, and the sink sees nothing of them. -/
theorem AppendsBits.pending {s t : State} {bits : List Bool} (h : AppendsBits s t bits) (hw : s.wpos = 0)
    (hlen : bits.length < 32768) :
    t.wpos.toNat = bits.length ∧ pendingBits t = bits ∧ t.sink = s.sink ∧ ∀ i, answerAt t i = answerAt s i := by
  obtain ⟨hwpos, ⟨bytes, hsink, hcount, hbits, -, hanswers, hoffers⟩, -, -⟩ := h
  have hw0 : s.wpos.toNat = 0 := by rw [hw]; rfl
  have hempty : pendingBits s = [] := List.length_eq_zero_iff.1 (by rw [pendingBits_length, hw0])
  obtain rfl : bytes = [] := List.length_eq_zero_iff.1 (by omega)
  refine ⟨by omega, ?_, by simpa using hsink, fun i => ?_⟩
  · simpa [hempty, bytesBits] using hbits
  · simp [answerAt, hanswers, hoffers]

/-- A flush of whole bytes emits exactly those bytes (R108). -/
theorem FlushesBits.sink_eq {s t : State} {bytes : List Byte} (h : FlushesBits s t) (hp : pendingBits s = bytesBits bytes) :
    t.sink = s.sink ++ bytes := by
  obtain ⟨-, -, emitted, hsink, -, hbits, -, -, -⟩ := h
  have hw : s.wpos.toNat = 8 * bytes.length := by rw [← pendingBits_length, hp, bytesBits_length]
  have hpad : 8 * ((s.wpos.toNat + 7) / 8) - s.wpos.toNat = 0 := by omega
  rw [hpad, List.replicate_zero, List.append_nil, hp] at hbits
  rw [hsink, bytesBits_inj hbits]

/-- Settles O33: the header's 128 bits stay in the buffer until the flush emits them as 16 whole bytes. -/
theorem headerBytesAreLittleEndian : Obligations.HeaderBytesAreLittleEndian := by
  intro rows cols numColors s hs hc hw ha
  have hw0 : s.wpos.toNat = 0 := by rw [hw]; rfl
  obtain ⟨t, ht, happ, honly⟩ := exec_writeHeader rows cols numColors hs hc (by omega)
    (ha.mono (by rw [bytesOffered, hw0]; omega))
  obtain ⟨hwpos, hpending, hsink, hanswer⟩ := happ.pending hw (by rw [headerBits_length]; omega)
  rw [headerBits_length] at hwpos
  have hts : t.err = .noError := by rw [honly]; exact hs
  have htc : t.wclosed = false := by rw [honly]; exact hc
  have hta : SinkAccepts t 16 := fun i hi => (hanswer i).trans (ha i hi)
  obtain ⟨u, hu, hflush, honly'⟩ := exec_flush (s := respond (success 0 0 0) t) hts htc
    (by rw [respond_wpos, hwpos]; exact hta)
  have hemit : u.sink = t.sink ++ headerBytes rows cols numColors :=
    hflush.sink_eq (hpending.trans (bytesBits_headerBytes rows cols numColors).symm)
  refine ⟨respond (success 0 0 0) u, ?_, ?_, ?_⟩
  · rw [execAll_cons ht, execAll_cons hu, execAll]
  · rw [respond_err, honly']; exact hts
  · rw [respond_sink, hemit, hsink, headerBytes_eq, ← List.append_assoc]
    rfl

end Sys2Proof.Machine
end

section
/-! The encoder against the decoder (R79, R81, R83): the word of a well-formed command is its row's, with the operands in place. -/

namespace Sys2Proof

/-- A word made of fields, with the opcode of a row and a width that passes check 4 of R84, is the command the row builds of it. -/
theorem decode_commandWord {row : OpcodeRow} {op : BitVec 8} {width : BitVec 6} {a b c : Word} {i : Instr}
    (hrow : opcodeMap.find? (fun r => decide (r.op = op)) = some row) (hwidth : widthCheck row.takesWidth width = true)
    (hbuild : row.build (commandWord op width a b c) = i) : decode (commandWord op width a b c) = .ok i := by
  have hop : row.op = op := by simpa using List.find?_some hrow
  subst hbuild
  exact decode_of_row (List.mem_of_find?_eq_some hrow) (by rw [opField_commandWord, hop]) (rsvField_commandWord ..)
    (by rw [widthField_commandWord, hwidth])

/-- Settles O2: by the command, whose operands its row reads back from the fields they were written to. -/
theorem decodeInvertsEncode : Obligations.DecodeInvertsEncode := by
  intro i hwf
  cases i with
  | nop => exact decode_commandWord rfl rfl rfl
  | reset => exact decode_commandWord rfl rfl rfl
  | regRead number => exact decode_commandWord rfl rfl (by simp only [fieldA_commandWord])
  | writeBits width value =>
    exact decode_commandWord rfl hwf (by simp only [widthField_commandWord, fieldA_commandWord])
  | writeHeader rows cols numColors =>
    exact decode_commandWord rfl rfl (by simp only [fieldA_commandWord, fieldB_commandWord, fieldC_commandWord])
  | flush => exact decode_commandWord rfl rfl rfl
  | close => exact decode_commandWord rfl rfl rfl
  | srcWrite offset byte =>
    exact decode_commandWord rfl rfl (by simp only [fieldA_commandWord, fieldB_commandWord, byteOperand_setWidth])
  | readerOpen length => exact decode_commandWord rfl rfl (by simp only [fieldA_commandWord])
  | readBits width => exact decode_commandWord rfl hwf (by simp only [widthField_commandWord])
  | readHeader => exact decode_commandWord rfl rfl rfl
  | quantize pixel => exact decode_commandWord rfl rfl (by simp only [fieldA_commandWord, unpackPixel_packPixel])
  | dequantize key => exact decode_commandWord rfl rfl (by simp only [fieldA_commandWord, keyOperand_setWidth])
  | rankClear => exact decode_commandWord rfl rfl rfl
  | rankCount pixel => exact decode_commandWord rfl rfl (by simp only [fieldA_commandWord, unpackPixel_packPixel])
  | rankSort => exact decode_commandWord rfl rfl rfl
  | rankLookup key => exact decode_commandWord rfl rfl (by simp only [fieldA_commandWord, keyOperand_setWidth])
  | palRead rank => exact decode_commandWord rfl rfl (by simp only [fieldA_commandWord])
  | encHeader rows cols => exact decode_commandWord rfl rfl (by simp only [fieldA_commandWord, fieldB_commandWord])
  | encPalette => exact decode_commandWord rfl rfl rfl
  | encPixel pixel => exact decode_commandWord rfl rfl (by simp only [fieldA_commandWord, unpackPixel_packPixel])
  | encFinish => exact decode_commandWord rfl rfl rfl
  | rankWidth n => exact decode_commandWord rfl rfl (by simp only [fieldA_commandWord])
  | decHeader => exact decode_commandWord rfl rfl rfl
  | decPalette => exact decode_commandWord rfl rfl rfl
  | decPixel => exact decode_commandWord rfl rfl rfl

/-- Bits 31:0 of a word are its RSV, W and OP (R79). -/
theorem selector_eq (w : Command) : w.extractLsb' 0 32 = rsvField w ++ widthField w ++ opField w := by
  refine BitVec.eq_of_getLsbD_eq fun i hi => ?_
  simp only [rsvField, widthField, opField, BitVec.getLsbD_append, BitVec.getLsbD_extractLsb']
  split
  · simp [hi, ‹i < 8›]
  · split
    · simp [hi, ‹i - 8 < 6›, show 8 + (i - 8) = i by omega]
    · simp [hi, show i - 8 - 6 < 18 by omega, show 14 + (i - 8 - 6) = i by omega]

/-- The word of the command a row builds has the row's opcode, and the width where the row takes one. -/
theorem encode_build {row : OpcodeRow} (hrow : row ∈ opcodeMap) (w : Command) :
    ∃ a b c, encode (row.build w) = commandWord row.op (if row.takesWidth then widthField w else 0) a b c := by
  fin_cases hrow <;> exact ⟨_, _, _, rfl⟩

/-- The command a row builds is well-formed where its width, if it has one, is at most 32. -/
theorem wf_build {row : OpcodeRow} (hrow : row ∈ opcodeMap) (w : Command) :
    (row.build w).wf = (!row.takesWidth || widthOk (widthField w)) := by
  fin_cases hrow <;> rfl

/-- Settles O3: check 4 leaves no width but the one the encoder writes, and check 3 no RSV but 0. -/
theorem decodedCommandReencodesItsSelector : Obligations.DecodedCommandReencodesItsSelector := by
  intro w i h
  obtain ⟨row, hrow, hop, hrsv, hcheck, rfl⟩ := row_of_decode h
  obtain ⟨a, b, c, hencode⟩ := encode_build hrow w
  have hwidth : (if row.takesWidth then widthField w else 0) = widthField w := by
    cases ht : row.takesWidth
    · simpa [ht, widthCheck, eq_comm] using hcheck
    · rfl
  constructor
  · rw [wf_build hrow]
    cases ht : row.takesWidth
    · rfl
    · simpa [ht, widthCheck] using hcheck
  · rw [hencode, hwidth, hop, selector_eq, selector_eq w, rsvField_commandWord, widthField_commandWord, opField_commandWord,
      hrsv]

/-! ### Words written out from the spec -/

/-- Settles O1: the eight words, evaluated. -/
theorem specCommandWordsDecode : Obligations.SpecCommandWordsDecode :=
  ⟨by decide, by decide, by decide, by decide, by decide, by decide, by decide, by decide⟩

end Sys2Proof
end

section
/-! The decode checks in their order (R84, R85, R86): what each word decodes to, from its OP, RSV and W alone. -/

namespace Sys2Proof.Machine

theorem mem_assignedOpcodes_iff (op : BitVec 8) : op ∈ assignedOpcodes ↔ ∃ row ∈ opcodeMap, row.op = op :=
  List.mem_map (f := OpcodeRow.op) (l := opcodeMap)

/-- No two rows of R83 have one opcode. -/
theorem row_eq_of_op_eq {row other : OpcodeRow} (hrow : row ∈ opcodeMap) (hother : other ∈ opcodeMap)
    (h : other.op = row.op) : other = row :=
  List.inj_on_of_nodup_map (f := OpcodeRow.op) (by decide) hother hrow h

/-- W is a width in the rows of WRITE_BITS and READ_BITS and in no other (R84). -/
theorem takesWidth_iff {row : OpcodeRow} (hrow : row ∈ opcodeMap) :
    row.takesWidth = true ↔ row.op = 0x10 ∨ row.op = 0x1A := by
  fin_cases hrow <;> decide

/-- A word with a row's opcode passes the checks if RSV is 0 and W passes that row's check. -/
theorem passesChecks_iff {row : OpcodeRow} (hrow : row ∈ opcodeMap) {w : Command} (hop : row.op = opField w) :
    PassesChecks w ↔ rsvField w = 0 ∧ widthCheck row.takesWidth (widthField w) = true := by
  have hmem : opField w ∈ assignedOpcodes := (mem_assignedOpcodes_iff _).2 ⟨row, hrow, hop⟩
  have hwidth : widthCheck row.takesWidth (widthField w) = true ↔
      if opField w = 0x10 ∨ opField w = 0x1A then (widthField w).toNat ≤ 32 else widthField w = 0 := by
    simp only [← hop, ← takesWidth_iff hrow]
    cases row.takesWidth
    · exact decide_eq_true_iff
    · exact widthOk_iff _
  rw [PassesChecks, ← hwidth]
  exact and_iff_right hmem

/-- Everything the decoder can answer, by the first check that fails (R84). -/
theorem decode_cases (w : Command) :
    (opField w ∉ assignedOpcodes ∧ decode w = .error .unassignedOpcode) ∨
    (opField w ∈ assignedOpcodes ∧ rsvField w ≠ 0 ∧ decode w = .error .reservedBitsSet) ∨
    (opField w ∈ assignedOpcodes ∧ rsvField w = 0 ∧ ¬PassesChecks w ∧ decode w = .error .widthOutOfRange) ∨
    (PassesChecks w ∧ ∃ row ∈ opcodeMap, row.op = opField w ∧ decode w = .ok (row.build w)) := by
  unfold decode
  split
  · next hfind =>
    refine .inl ⟨fun hmem => ?_, rfl⟩
    obtain ⟨row, hrow, hop⟩ := (mem_assignedOpcodes_iff _).1 hmem
    exact absurd hop (by simpa using List.find?_eq_none.1 hfind row hrow)
  · next row hfind =>
    have hrow : row ∈ opcodeMap := List.mem_of_find?_eq_some hfind
    have hop : row.op = opField w := by simpa using List.find?_some hfind
    have hmem : opField w ∈ assignedOpcodes := (mem_assignedOpcodes_iff _).2 ⟨row, hrow, hop⟩
    have hpasses := passesChecks_iff hrow hop
    split
    · next hrsv => exact .inr (.inl ⟨hmem, hrsv, rfl⟩)
    · next hrsv =>
      have hrsv0 : rsvField w = 0 := not_not.1 hrsv
      split
      · next hwidth => exact .inr (.inr (.inr ⟨hpasses.2 ⟨hrsv0, hwidth⟩, row, hrow, hop, rfl⟩))
      · next hwidth => exact .inr (.inr (.inl ⟨hmem, hrsv0, fun h => hwidth (hpasses.1 h).2, rfl⟩))

/-- Settles O5: the four answers exclude one another, and so do their conditions. -/
theorem firstFailingDecodeCheckDecides : Obligations.FirstFailingDecodeCheckDecides := by
  intro w
  rcases decode_cases w with ⟨hop, h⟩ | ⟨hop, hrsv, h⟩ | ⟨hop, hrsv, hfails, h⟩ | ⟨hpasses, row, -, -, h⟩
  · rw [h]
    exact ⟨iff_of_true rfl hop, iff_of_false nofun fun ⟨hmem, _⟩ => hop hmem, iff_of_false nofun fun ⟨hmem, _⟩ => hop hmem⟩
  · rw [h]
    exact ⟨iff_of_false nofun (not_not.2 hop), iff_of_true rfl ⟨hop, hrsv⟩,
      iff_of_false nofun fun ⟨_, hzero, _⟩ => hrsv hzero⟩
  · rw [h]
    exact ⟨iff_of_false nofun (not_not.2 hop), iff_of_false nofun fun ⟨_, hset⟩ => hset hrsv,
      iff_of_true rfl ⟨hop, hrsv, hfails⟩⟩
  · obtain ⟨hop, hrsv, -⟩ := id hpasses
    rw [h]
    exact ⟨iff_of_false nofun (not_not.2 hop), iff_of_false nofun fun ⟨_, hset⟩ => hset hrsv,
      iff_of_false nofun fun ⟨_, _, hfails⟩ => hfails hpasses⟩

/-- A word that fails a check is no command. -/
theorem decode_error_of_not_passesChecks {w : Command} (h : ¬PassesChecks w) : ∃ e, decode w = .error e := by
  rcases decode_cases w with ⟨-, hdec⟩ | ⟨-, -, hdec⟩ | ⟨-, -, -, hdec⟩ | ⟨hpasses, -⟩
  · exact ⟨_, hdec⟩
  · exact ⟨_, hdec⟩
  · exact ⟨_, hdec⟩
  · exact absurd hpasses h

/-- A word that is no command raises UsageError where no error is pending (R84). -/
theorem runCommand_of_decode_error {w : Command} {e : DecodeError} {s : State} (h : decode w = .error e)
    (hs : s.err = .noError) : runCommand w s = .next (raiseError .usageError s) := by
  rw [runCommand, h]
  exact if_neg fun hsticky => hsticky.1 hs

/-- Settles O4: a word that passes the checks is its one row's command, any other takes the error entry. -/
theorem everyWordSelectsOneRowOrRaisesUsageError : Obligations.EveryWordSelectsOneRowOrRaisesUsageError := by
  intro w
  refine ⟨fun hpasses => ?selects, fun hfails s rest hs hin => ?raises⟩
  case selects =>
    obtain ⟨hmem, hrsv, -⟩ := id hpasses
    obtain ⟨row, hrow, hop⟩ := (mem_assignedOpcodes_iff _).1 hmem
    obtain ⟨-, hwidth⟩ := (passesChecks_iff hrow hop).1 hpasses
    exact ⟨row, hrow, hop, fun other hother h => row_eq_of_op_eq hrow hother (h.trans hop.symm),
      decode_of_row hrow hop.symm hrsv hwidth⟩
  case raises =>
    obtain ⟨e, hdec⟩ := decode_error_of_not_passesChecks hfails
    have hs' : ({ s with inputs := rest } : State).err = .noError := hs
    obtain ⟨hresp, hsink, ⟨hparams, hinputs⟩, herr⟩ := raiseError_keeps .usageError { s with inputs := rest }
    exact ⟨_, (step_command hin).trans (runCommand_of_decode_error hdec hs'), by rw [herr, if_pos hs'], hresp, hsink, hparams,
      hinputs⟩

end Sys2Proof.Machine
end

section
/-! One response for each command word (R80, R167): a command's body delivers none, and what ends the command delivers one. -/

namespace Sys2Proof.Machine

/-- A response with an error code has zero results (R167). -/
def ZeroIfError (r : Response) : Prop := r.status ≠ .noError → r.r0 = 0 ∧ r.r1 = 0 ∧ r.r2 = 0

theorem success_zeroIfError (r0 r1 r2 : Word) : ZeroIfError (success r0 r1 r2) := fun h => absurd rfl h

theorem failure_zeroIfError (e : ErrCode) : ZeroIfError (failure e) := fun _ => ⟨rfl, rfl, rfl⟩

/-- Wherever a command's body, or a part of it, answers or raises an error, the responses delivered are `delivered`, and Q holds
of the answer. -/
def Silent {α : Type} (delivered : List Response) (Q : α → Prop) (r : Result α) : Prop :=
  match r with
  | .ok a t => t.responses = delivered ∧ Q a
  | .raised _ t => t.responses = delivered
  | .fault _ => True

/-- The outcome's next state, if it has one, was reached from s with one response. -/
def OneResponse (s : State) (o : Host.Outcome State Fault Refusal) : Prop :=
  ∀ t, o = .next t → ∃ r, Responded s t r ∧ ZeroIfError r

section
variable {α β : Type} {delivered : List Response} {s t : State} {Q : β → Prop} {R : α → Prop}

theorem Silent.require {c : Prop} [Decidable c] {r : Result α} (hs : s.responses = delivered) (h : Silent delivered R r) :
    Silent delivered R (require c s r) := by
  by_cases hc : c
  · rwa [require_true hc]
  · rwa [require_false hc]

theorem Silent.andThen {r : Result α} {k : α → State → Result β} (h : Silent delivered R r)
    (hk : ∀ a t, t.responses = delivered → Silent delivered Q (k a t)) : Silent delivered Q (r.andThen k) := by
  cases r with
  | ok a t =>
    obtain ⟨ht, -⟩ := h
    exact hk a t ht
  | raised e t => exact h
  | fault f => exact h

/-- The last line of a body: the command's answer. -/
theorem Silent.success {r0 r1 r2 : Word} (h : t.responses = delivered) :
    Silent delivered ZeroIfError (.ok (success r0 r1 r2) t) := ⟨h, success_zeroIfError r0 r1 r2⟩

theorem OneResponse.respond {r : Response} (hr : ZeroIfError r) (h : t.responses = s.responses) :
    OneResponse s (.next (respond r t)) := by
  rintro _ ⟨⟩
  exact ⟨r, ⟨rfl, rfl, rfl, rfl, by rw [respond_responses, h]⟩, hr⟩

/-- The error entry responds once, whether or not ERR is 0 (R165). -/
theorem OneResponse.raiseError (e : ErrCode) (h : t.responses = s.responses) : OneResponse s (.next (raiseError e t)) := by
  obtain ⟨⟨hstatus, hr0, hr1, hr2, hdelivered⟩, -⟩ := raiseError_keeps e t
  rintro _ ⟨⟩
  exact ⟨failure e, ⟨hstatus, hr0, hr1, hr2, by rw [hdelivered, h]; rfl⟩, failure_zeroIfError e⟩

/-- A command responds once at its end: with its answer, with its error, or with the sticky refusal (R80, R166). -/
theorem command_oneResponse {body : Result Response} (h : Silent s.responses ZeroIfError body) :
    OneResponse s (command s body) := by
  by_cases hs : s.err = .noError
  · rw [command_noError body hs]
    cases body with
    | ok r t =>
      obtain ⟨ht, hr⟩ := h
      exact .respond hr ht
    | raised e t => exact .raiseError e h
    | fault f => rintro _ ⟨⟩
  · rw [command_sticky body hs]
    exact .respond (failure_zeroIfError _) rfl

/-! ### The operations of the writer and the reader -/

theorem WriterOutcome.silent {r : Result Unit} (h : WriterOutcome s r) : Silent s.responses (fun _ => True) r := by
  rcases h with ⟨t, rfl, ho, -⟩ | ⟨t, rfl, ho, -⟩
  · rw [ho]; exact ⟨rfl, trivial⟩
  · rw [ho]; rfl

theorem ReaderOutcome.silent {r : Result α} (h : ReaderOutcome s r) : Silent s.responses (fun _ => True) r := by
  rcases h with ⟨v, t, rfl, ho, -, -⟩ | ⟨t, rfl, ho⟩ | ⟨f, rfl, -⟩
  · rw [ho]; exact ⟨rfl, trivial⟩
  · rw [ho]; rfl
  · trivial

end

theorem putBits_silent (v : Word) (w : Nat) (s : State) : Silent s.responses (fun _ => True) (putBits v w s) :=
  (putAll_outcome _ s).silent

theorem putHeader_silent (rows cols numColors : Word) (s : State) :
    Silent s.responses (fun _ => True) (putHeader rows cols numColors s) := by
  rw [putHeader_eq]; exact (putAll_outcome _ s).silent

theorem putPalette_silent (n i : Nat) (s : State) : Silent s.responses (fun _ => True) (putPalette n i s) := by
  rw [putPalette_eq]; exact (putAll_outcome _ s).silent

theorem getPalette_silent (n i : Nat) (s : State) : Silent s.responses (fun _ => True) (getPalette n i s) := by
  rcases getPalette_outcome n i s with ⟨t, h, ho, -, -⟩ | ⟨t, h, ho⟩ | ⟨f, h, -⟩
  · rw [h, ho]; exact ⟨rfl, trivial⟩
  · rw [h, ho]; rfl
  · rw [h]; trivial

/-! ### Commands with more than one line of answer -/

theorem execRegRead_oneResponse (number : Word) (s : State) : OneResponse s (execRegRead number s) := by
  unfold execRegRead
  split
  · split
    · exact .respond (success_zeroIfError _ _ _) rfl
    · exact .raiseError _ rfl
  · split
    · exact .respond (success_zeroIfError _ _ _) rfl
    · exact .raiseError _ rfl

theorem execRankSort_oneResponse (s : State) : OneResponse s (execRankSort s) := by
  refine command_oneResponse <| .require rfl <| .success ?_
  show (storeRanking (rankedKeys s) 0 s).responses = s.responses
  rw [storeRanking_only]

theorem execEncHeader_oneResponse (rows cols : Word) (s : State) : OneResponse s (execEncHeader rows cols s) := by
  refine command_oneResponse <| .require rfl <| .require rfl <| .require rfl <| .require rfl ?_
  split
  · rfl
  · exact (putHeader_silent _ _ _ s).andThen fun _ _ ht => .success ht

theorem execDecHeader_oneResponse (s : State) : OneResponse s (execDecHeader s) := by
  refine command_oneResponse <| .require rfl <| .require rfl <| .require rfl <|
    (getHeader_outcome s).silent.andThen fun header t ht => ?_
  split
  · exact ht
  · exact .success ht

theorem execDecPixel_oneResponse (s : State) : OneResponse s (execDecPixel s) := by
  refine command_oneResponse <| .require rfl <| .require rfl <| (getBits_outcome _ s).silent.andThen fun rank t ht => ?_
  split
  · exact .success ht
  · exact ht

/-! ### Every command word -/

/-- Every command responds once, in every state. -/
theorem exec_oneResponse (i : Instr) (s : State) : OneResponse s (exec i s) := by
  cases i with
  | nop => exact .respond (success_zeroIfError _ _ _) rfl
  | reset => exact .respond (success_zeroIfError _ _ _) (resetState_responses s)
  | regRead number => exact execRegRead_oneResponse number s
  | writeBits width value =>
    exact command_oneResponse <| .require rfl <| .require rfl <| (putBits_silent _ _ s).andThen fun _ _ ht => .success ht
  | writeHeader rows cols numColors =>
    exact command_oneResponse <| .require rfl <| (putHeader_silent _ _ _ s).andThen fun _ _ ht => .success ht
  | flush => exact command_oneResponse <| .require rfl <| (flushBuf_outcome s).silent.andThen fun _ _ ht => .success ht
  | close => exact command_oneResponse <| .require rfl <| (flushBuf_outcome s).silent.andThen fun _ _ ht => .success ht
  | srcWrite offset byte => exact command_oneResponse <| .require rfl <| .require rfl <| .success rfl
  | readerOpen length => exact command_oneResponse <| .require rfl <| .require rfl <| .success rfl
  | readBits width =>
    exact command_oneResponse <| .require rfl <| .require rfl <| (getBits_outcome _ s).silent.andThen fun _ _ ht => .success ht
  | readHeader =>
    exact command_oneResponse <| .require rfl <| (getHeader_outcome s).silent.andThen fun _ _ ht => .success ht
  | quantize pixel => exact command_oneResponse <| .success rfl
  | dequantize key => exact command_oneResponse <| .success rfl
  | rankClear => exact command_oneResponse <| .require rfl <| .success rfl
  | rankCount pixel => exact command_oneResponse <| .require rfl <| .require rfl <| .success (countKey_responses _ s)
  | rankSort => exact execRankSort_oneResponse s
  | rankLookup key => exact command_oneResponse <| .require rfl <| .require rfl <| .success rfl
  | palRead rank => exact command_oneResponse <| .require rfl <| .success rfl
  | encHeader rows cols => exact execEncHeader_oneResponse rows cols s
  | encPalette =>
    exact command_oneResponse <| .require rfl <| .require rfl <| (putPalette_silent _ _ s).andThen fun _ _ ht => .success ht
  | encPixel pixel =>
    exact command_oneResponse <| .require rfl <| .require rfl <| .require rfl <| .require rfl <|
      (putBits_silent _ _ s).andThen fun _ _ ht => .success ht
  | encFinish =>
    exact command_oneResponse <| .require rfl <| .require rfl <| .require rfl <|
      (flushBuf_outcome s).silent.andThen fun _ _ ht => .success ht
  | rankWidth n => exact command_oneResponse <| .success rfl
  | decHeader => exact execDecHeader_oneResponse s
  | decPalette =>
    exact command_oneResponse <| .require rfl <| (getPalette_silent _ _ s).andThen fun _ _ ht => .success ht
  | decPixel => exact execDecPixel_oneResponse s

/-- So does every command word, a legal command's or not. -/
theorem runCommand_oneResponse (w : Command) (s : State) : OneResponse s (runCommand w s) := by
  unfold runCommand
  split
  · exact exec_oneResponse _ s
  · obtain ⟨e, he⟩ := illegalWord_eq w s
    rw [he]
    exact .raiseError e rfl

/-- Settles O9: the step on a command word is the word run with the input taken, which is no response. -/
theorem eachCommandDeliversOneResponse : Obligations.EachCommandDeliversOneResponse := by
  intro s t w rest hin h
  rw [step_command hin] at h
  exact runCommand_oneResponse w { s with inputs := rest } t h

/-! ### NOP -/

/-- Settles O24: NOP's row takes no width, and its meaning is the response alone. -/
theorem nopOnlyResponds : Obligations.NopOnlyResponds :=
  ⟨decodesAt_of_row (row := ⟨0x00, false, fun _ => .nop⟩) (by simp [opcodeMap]) rfl,
    fun s => ⟨respond (success 0 0 0) s, rfl, respond_responded _ s, sameAll_respond _ s⟩⟩

end Sys2Proof.Machine
end

section
/-! The writer's own commands (R109 to R112): PutBits or FlushBuf behind the check of WCLOSED, on a sink that accepts what it is
offered and on one that refuses a byte. -/

namespace Sys2Proof.Machine

/-! ### How a command of the writer ends -/

/-- The rows of R56 that the writer's commands may write. -/
def writerParts : List Part := [.buffer, .closed, .emitted]

theorem OnlyWriter.onlyParts {s t : State} (h : OnlyWriter s t) : OnlyParts writerParts s t := by
  rw [h]; rfl

theorem OnlyWriter.onlyParts_wclosed {s t : State} (h : OnlyWriter s t) (c : Bool) :
    OnlyParts writerParts s { t with wclosed := c } := by
  rw [h]; rfl

/-- What a command that writes only the writer's rows leaves as it was. -/
theorem OnlyParts.sameButWriter {s t : State} (h : OnlyParts writerParts s t) :
    SameReader s t ∧ SameCounts s t ∧ SameRanking s t ∧ SameCodec s t := by
  rw [h]
  exact ⟨⟨fun _ => rfl, rfl, rfl, rfl⟩, ⟨fun _ => rfl, fun _ => rfl, rfl, rfl⟩, ⟨fun _ => rfl, fun _ => rfl, rfl, rfl⟩,
    ⟨rfl, rfl, rfl, rfl, rfl, rfl⟩⟩

/-- A command that answers where only the writer's rows differ has completed. -/
theorem OnlyParts.completes {i : Instr} {s t : State} {r : Response} (h : OnlyParts writerParts s t) (hs : s.err = .noError)
    (hexec : exec i s = .next (respond r t)) : Completes i s (respond r t) r := by
  refine ⟨hexec, ?_⟩
  rw [h]
  exact ⟨⟨rfl, rfl, rfl, rfl, rfl⟩, hs, ⟨rfl, rfl⟩, rfl⟩

/-- A command that raises e where the writer has emitted `bytes` and nothing outside the writer differs (R165). -/
theorem OnlyWriter.raisesAfter {i : Instr} {s t : State} {e : ErrCode} {bytes : List Byte} (h : OnlyWriter s t)
    (hs : s.err = .noError) (hsink : t.sink = s.sink ++ bytes) (hexec : exec i s = .next (raiseError e t)) :
    RaisesAfter i s e bytes := by
  have ⟨hparams, herr⟩ := h.sameInstance
  have hinputs : t.inputs = s.inputs := by rw [h]
  have hresponses : t.responses = s.responses := by rw [h]
  obtain ⟨⟨hstatus, h0, h1, h2, hlist⟩, hkept, ⟨hparams', hinputs'⟩, herr'⟩ := raiseError_keeps e t
  refine ⟨raiseError e t, hexec, ?_, ⟨hstatus, h0, h1, h2, ?_⟩, hkept.trans hsink, hparams'.trans hparams,
    hinputs'.trans hinputs⟩
  · rw [herr', if_pos (herr.trans hs)]
  · rw [hlist, hresponses]

/-- A command that begins with PutBits, where the sink refuses byte j of what it is offered (R61, R107). -/
theorem raisesAfter_of_putAll {i : Instr} {s : State} {bits : List Bool} {k : Unit → State → Result Response} {j : Nat}
    (hexec : exec i s = finish ((putAll bits s).andThen k)) (hs : s.err = .noError) (hw : s.wpos.toNat < 32768)
    (hj : j < bytesOffered s bits.length) (hr : FirstRefusalAt s j) :
    ∃ bytes, RaisesAfter i s .ioError bytes ∧ bytesBits bytes = (pendingBits s ++ bits).take (8 * j) := by
  obtain ⟨t, bytes, hput, honly, hsink, -, hbits⟩ := putAll_refused hw hj hr
  exact ⟨bytes, honly.raisesAfter hs hsink (by rw [hexec, hput, andThen_raised, finish_raised]), hbits⟩

/-- The bytes before a refused one of FlushBuf are whole bytes of pending bits: padding stands only in the last (R108). -/
theorem bytesBits_flushBytes_take {s : State} {j : Nat} (hj : j < (s.wpos.toNat + 7) / 8) :
    bytesBits ((flushBytes s).take j) = (pendingBits s).take (8 * j) := by
  rw [bytesBits_take, bytesBits_flushBytes, List.take_append_of_le_length]
  rw [pendingBits_length]
  omega

/-- A command that begins with FlushBuf, where the sink refuses byte j of what it is offered (R61, R108). -/
theorem raisesAfter_of_flushBuf {i : Instr} {s : State} {k : Unit → State → Result Response} {j : Nat}
    (hexec : exec i s = finish ((flushBuf s).andThen k)) (hs : s.err = .noError) (hj : j < (s.wpos.toNat + 7) / 8)
    (hr : FirstRefusalAt s j) :
    ∃ bytes, RaisesAfter i s .ioError bytes ∧ bytes.length = j ∧ bytesBits bytes = (pendingBits s).take (8 * j) := by
  have honly : OnlyWriter s (takeAnswer (accepted ((flushBytes s).take j) s)) := rfl
  refine ⟨(flushBytes s).take j, honly.raisesAfter hs rfl ?_, ?_, bytesBits_flushBytes_take hj⟩
  · rw [hexec, flushBuf_refused hj hr, andThen_raised, finish_raised]
  · rw [List.length_take, flushBytes_length]
    omega

/-! ### The commands behind their checks -/

section
variable {s : State}

theorem exec_writeBits_open {width : BitVec 6} (value : Word) (hs : s.err = .noError) (hw : width.toNat ≤ 32)
    (hc : s.wclosed = false) :
    exec (.writeBits width value) s =
      finish ((putAll (fieldBits value.toNat width.toNat) s).andThen fun _ t => .ok (success 0 0 0) t) := by
  rw [show exec (.writeBits width value) s = execWriteBits width value s from rfl, execWriteBits, command_noError _ hs,
    require_true ((widthOk_iff width).2 hw), require_true hc, putBits, lowBits_eq_fieldBits]

theorem exec_writeHeader_open (rows cols numColors : Word) (hs : s.err = .noError) (hc : s.wclosed = false) :
    exec (.writeHeader rows cols numColors) s =
      finish ((putAll (headerBits rows cols numColors) s).andThen fun _ t => .ok (success 0 0 0) t) := by
  rw [show exec (.writeHeader rows cols numColors) s = execWriteHeader rows cols numColors s from rfl, execWriteHeader,
    command_noError _ hs, require_true hc, putHeader_eq]

theorem exec_flush_open (hs : s.err = .noError) (hc : s.wclosed = false) :
    exec .flush s = finish ((flushBuf s).andThen fun _ t => .ok (success 0 0 0) t) := by
  rw [show exec .flush s = execFlush s from rfl, execFlush, command_noError _ hs, require_true hc]

theorem exec_close_open (hs : s.err = .noError) (hc : s.wclosed = false) :
    exec .close s = finish ((flushBuf s).andThen fun _ t => .ok (success 0 0 0) { t with wclosed := true }) := by
  rw [show exec .close s = execClose s from rfl, execClose, command_noError _ hs, require_true hc]

end

/-! ### WRITE_BITS -/

/-- WRITE_BITS with a width of R84 on an open writer, with a sink that accepts what it is offered (R109). -/
theorem exec_writeBits {s : State} {width : BitVec 6} (value : Word) (hs : s.err = .noError) (hwidth : width.toNat ≤ 32)
    (hc : s.wclosed = false) (hw : s.wpos.toNat < 32768) (ha : SinkAccepts s (bytesOffered s width.toNat)) :
    ∃ t, exec (.writeBits width value) s = .next (respond (success 0 0 0) t) ∧
      AppendsBits s t (fieldBits value.toNat width.toNat) ∧ OnlyWriter s t := by
  obtain ⟨t, ht, happ, honly⟩ := putBits_spec value width.toNat hw ha
  refine ⟨t, ?_, happ, honly⟩
  rw [exec_writeBits_open value hs hwidth hc, ← lowBits_eq_fieldBits, ← putBits, ht, andThen_ok, finish_ok]

/-- Settles O28: PutBits of the value's low bits behind the checks of the width and of the writer. -/
theorem writeBitsAppendsTheLowBits : Obligations.WriteBitsAppendsTheLowBits := by
  refine ⟨fun w hop hrsv hw => ?decodes, fun width value s hs => ⟨fun h => ?usage, fun hwidth hc hw => ⟨fun ha => ?accepted,
    fun j hj hr => ?refused⟩⟩⟩
  case decodes =>
    exact decode_of_row (row := ⟨0x10, true, fun w => .writeBits (widthField w) (fieldA w)⟩) (by simp [opcodeMap]) hop hrsv
      ((widthOk_iff _).2 hw)
  case usage =>
    refine raises_of_body rfl hs <| require_usageError fun hwidth => require_open_closed ?_ _
    rw [widthOk_iff] at hwidth
    exact h.resolve_left (by omega)
  case accepted =>
    obtain ⟨t, hexec, happ, honly⟩ := exec_writeBits value hs hwidth hc hw ha
    exact ⟨_, honly.onlyParts.completes hs hexec, happ, honly.onlyParts.sameButWriter⟩
  case refused =>
    have hlen : (fieldBits value.toNat width.toNat).length = width.toNat := lowBits_length value _
    exact raisesAfter_of_putAll (exec_writeBits_open value hs hwidth hc) hs hw (by rwa [hlen]) hr

/-! ### WRITE_HEADER -/

/-- Settles O29: the four fields are one run of PutBits, at whatever cursor. -/
theorem writeHeaderAppendsFourFields : Obligations.WriteHeaderAppendsFourFields := by
  refine ⟨decodesAt_of_row (row := ⟨0x11, false, fun w => .writeHeader (fieldA w) (fieldB w) (fieldC w)⟩)
    (by simp [opcodeMap]) rfl, fun rows cols numColors s hs => ⟨fun hc => ?usage, fun hc hw => ⟨fun ha => ?accepted,
    fun j hj hr => ?refused⟩⟩⟩
  case usage => exact raises_of_body rfl hs <| require_open_closed hc _
  case accepted =>
    obtain ⟨t, hexec, happ, honly⟩ := exec_writeHeader rows cols numColors hs hc hw ha
    exact ⟨_, honly.onlyParts.completes hs hexec, happ, honly.onlyParts.sameButWriter⟩
  case refused =>
    exact raisesAfter_of_putAll (exec_writeHeader_open rows cols numColors hs hc) hs hw (by rwa [headerBits_length]) hr

/-! ### FLUSH and CLOSE -/

/-- Settles O30: FlushBuf behind the check of the writer; at a refusal only whole bytes of pending bits have gone out. -/
theorem flushEmitsThePendingBits : Obligations.FlushEmitsThePendingBits := by
  refine ⟨decodesAt_of_row (row := ⟨0x12, false, fun _ => .flush⟩) (by simp [opcodeMap]) rfl,
    fun s hs => ⟨fun hc => ?usage, fun hc ha => ?accepted, fun hc j hj hr => ?refused⟩⟩
  case usage => exact raises_of_body rfl hs <| require_open_closed hc _
  case accepted =>
    obtain ⟨t, hexec, hflush, honly⟩ := exec_flush hs hc ha
    have hopen : t.wclosed = false := by rw [honly]; exact hc
    exact ⟨_, honly.onlyParts.completes hs hexec, hflush, hopen, honly.onlyParts.sameButWriter⟩
  case refused => exact raisesAfter_of_flushBuf (exec_flush_open hs hc) hs hj hr

/-- CLOSE on an open writer, with a sink that accepts what it is offered (R112). -/
theorem exec_close {s : State} (hs : s.err = .noError) (hc : s.wclosed = false)
    (ha : SinkAccepts s ((s.wpos.toNat + 7) / 8)) :
    ∃ t, exec .close s = .next (respond (success 0 0 0) { t with wclosed := true }) ∧ FlushesBits s t ∧ OnlyWriter s t := by
  obtain ⟨t, ht, hflush, honly, -⟩ := flushBuf_spec ha
  exact ⟨t, by rw [exec_close_open hs hc, ht, andThen_ok, finish_ok], hflush, honly⟩

/-- Settles O31: FLUSH's emission, with WCLOSED set where it ended well, which is what refuses a second CLOSE. -/
theorem closeFlushesAndClosesOnce : Obligations.CloseFlushesAndClosesOnce := by
  refine ⟨decodesAt_of_row (row := ⟨0x13, false, fun _ => .close⟩) (by simp [opcodeMap]) rfl,
    fun s hs => ⟨fun hc => ?usage, fun hc ha => ?accepted, fun hc j hj hr => ?refused⟩⟩
  case usage => exact raises_of_body rfl hs <| require_open_closed hc _
  case accepted =>
    obtain ⟨t, hexec, hflush, honly⟩ := exec_close hs hc ha
    have hparts := honly.onlyParts_wclosed true
    exact ⟨_, hparts.completes hs hexec, hflush, rfl, hparts.sameButWriter⟩
  case refused => exact raisesAfter_of_flushBuf (exec_close_open hs hc) hs hj hr

end Sys2Proof.Machine
end

section
/-! The reader's own commands (R115, R116, R119), and the round trips of a field and of a header through the writer and the reader
(R120, R121). -/

namespace Sys2Proof.Machine

/-! ### How a command of the reader ends -/

/-- The rows of R56 that the reader's commands may write. -/
def readerParts : List Part := [.source, .opened, .cursor]

theorem OnlyRpos.onlyParts {s t : State} (h : OnlyRpos s t) : OnlyParts readerParts s t := by
  rw [h]; rfl

/-- What a command that writes only the reader's rows leaves as it was. -/
theorem OnlyParts.sameButReader {s t : State} (h : OnlyParts readerParts s t) :
    SameWriter s t ∧ SameCounts s t ∧ SameRanking s t ∧ SameCodec s t := by
  rw [h]
  exact ⟨⟨fun _ => rfl, rfl, rfl, rfl, rfl, rfl, rfl⟩, ⟨fun _ => rfl, fun _ => rfl, rfl, rfl⟩,
    ⟨fun _ => rfl, fun _ => rfl, rfl, rfl⟩, ⟨rfl, rfl, rfl, rfl, rfl, rfl⟩⟩

/-- A command that answers where only the reader's rows differ has completed. -/
theorem OnlyParts.completesReading {i : Instr} {s t : State} {r : Response} (h : OnlyParts readerParts s t)
    (hs : s.err = .noError) (hexec : exec i s = .next (respond r t)) : Completes i s (respond r t) r := by
  refine ⟨hexec, ?_⟩
  rw [h]
  exact ⟨⟨rfl, rfl, rfl, rfl, rfl⟩, hs, ⟨rfl, rfl⟩, rfl⟩

/-- The error entry leaves nothing of the cursor (R165): what was read before the error makes no difference. -/
theorem OnlyRpos.raiseError_eq {s t : State} (h : OnlyRpos s t) (hs : s.err = .noError) (e : ErrCode) :
    raiseError e t = raiseError e s := by
  rw [raiseError_noError (h.sameInstance.2.trans hs), raiseError_noError hs, h]
  rfl

theorem OnlyRpos.raises {i : Instr} {s t : State} {e : ErrCode} (h : OnlyRpos s t) (hs : s.err = .noError)
    (hexec : exec i s = .next (raiseError e t)) : Raises i s e :=
  raises_of_exec hs (by rw [hexec, h.raiseError_eq hs])

/-- The checks of SRC_WRITE and READER_OPEN: a closed reader, then a bound. -/
theorem require_closedReader {α : Type} {c : Prop} [Decidable c] {s : State} (h : s.ropen = true ∨ ¬c) (rest : Result α) :
    require (s.ropen = false) s (require c s rest) = .raised .usageError s :=
  require_usageError fun hclosed => require_false (h.resolve_left (by simp [hclosed]))

/-! ### SRC_WRITE -/

/-- SRC_WRITE behind its checks (R115). -/
theorem exec_srcWrite {s : State} {offset : Word} (byte : Byte) (hs : s.err = .noError) (ho : s.ropen = false)
    (hlt : offset.toNat < s.params.srcMax.toNat) :
    exec (.srcWrite offset byte) s =
      .next (respond (success 0 0 0) { s with src := writeCell srcUnlisted s.src offset.toNat byte }) := by
  rw [show exec (.srcWrite offset byte) s = execSrcWrite offset byte s from rfl, execSrcWrite, command_noError _ hs,
    require_true ho, require_true hlt, finish_ok]

/-- Settles O34: one cell of SRC written behind the two checks. -/
theorem srcWriteStoresOneByte : Obligations.SrcWriteStoresOneByte := by
  refine ⟨decodesAt_of_row (row := ⟨0x18, false, fun w => .srcWrite (fieldA w) (byteOperand (fieldB w))⟩)
    (by simp [opcodeMap]) rfl, fun offset byte s hs => ⟨fun h => ?usage, fun ho hlt => ?stored⟩⟩
  case usage => exact raises_of_body rfl hs <| require_closedReader (h.imp_right not_lt.2) _
  case stored =>
    have hparts : OnlyParts readerParts s { s with src := writeCell srcUnlisted s.src offset.toNat byte } := rfl
    exact ⟨_, hparts.completesReading hs (exec_srcWrite byte hs ho hlt), readCell_writeCell_self _ _ _ _,
      fun j hj => readCell_writeCell_ne _ _ _ hj, rfl, rfl, rfl, hparts.sameButReader⟩

/-! ### READER_OPEN -/

/-- READER_OPEN behind its checks (R116). -/
theorem exec_readerOpen {s : State} {length : Word} (hs : s.err = .noError) (ho : s.ropen = false)
    (hle : length.toNat ≤ s.params.srcMax.toNat) :
    exec (.readerOpen length) s =
      .next (respond (success 0 0 0) { s with srcLen := length, rpos := 0, ropen := true }) := by
  rw [show exec (.readerOpen length) s = execReaderOpen length s from rfl, execReaderOpen, command_noError _ hs,
    require_true ho, require_true hle, finish_ok]

/-- Settles O35: the source's length, the cursor and ROPEN set behind the two checks. -/
theorem readerOpenFixesTheLength : Obligations.ReaderOpenFixesTheLength := by
  refine ⟨decodesAt_of_row (row := ⟨0x19, false, fun w => .readerOpen (fieldA w)⟩) (by simp [opcodeMap]) rfl,
    fun length s hs => ⟨fun h => ?usage, fun ho hle => ?opened⟩⟩
  case usage => exact raises_of_body rfl hs <| require_closedReader (h.imp_right not_le.2) _
  case opened =>
    have hparts : OnlyParts readerParts s { s with srcLen := length, rpos := 0, ropen := true } := rfl
    exact ⟨_, hparts.completesReading hs (exec_readerOpen hs ho hle), rfl, rfl, rfl, fun _ => rfl, hparts.sameButReader⟩

/-! ### READ_HEADER -/

/-- A field that GetBits took lies inside the source (R117). -/
theorem getBits_fits {w : Nat} {s t : State} {v : Word} (h : getBits w s = .ok v t) :
    t.srcLen = s.srcLen ∧ t.rpos.toNat = s.rpos.toNat + w ∧ s.rpos.toNat + w ≤ 8 * s.srcLen.toNat := by
  rcases getBits_cases w s with ⟨-, h'⟩ | ⟨_, -, -, -, -, h'⟩ | ⟨v', t', h', honly, hle, hpos⟩
  · cases h.symm.trans h'
  · cases h.symm.trans h'
  · cases h.symm.trans h'
    exact ⟨honly.srcLen, hpos, hle⟩

theorem getHeader_fits {s t : State} {header : Word × Word × Word} (h : getHeader s = .ok header t) :
    s.rpos.toNat + 128 ≤ 8 * s.srcLen.toNat := by
  obtain ⟨m, t1, hm, h⟩ := andThen_eq_ok h
  split at h
  · obtain ⟨r, t2, hr, h⟩ := andThen_eq_ok h
    obtain ⟨c, t3, hc, h⟩ := andThen_eq_ok h
    obtain ⟨n, t4, hn, -⟩ := andThen_eq_ok h
    obtain ⟨len1, pos1, -⟩ := getBits_fits hm
    obtain ⟨len2, pos2, -⟩ := getBits_fits hr
    obtain ⟨len3, pos3, -⟩ := getBits_fits hc
    obtain ⟨-, -, hle⟩ := getBits_fits hn
    rw [len3, len2, len1] at hle
    omega
  · cases h

/-- A header where fewer than 128 bits remain and all of them were written: some field is cut short, or the magic is wrong. -/
theorem getHeader_short {s : State} (hshort : 8 * s.srcLen.toNat < s.rpos.toNat + 128)
    (hw : SrcWritten s s.rpos.toNat (8 * s.srcLen.toNat)) :
    ∃ t, getHeader s = .raised .formatError t ∧ OnlyRpos s t := by
  rcases getHeader_outcome s with ⟨header, t, h, -, -, -⟩ | hraised | ⟨f, -, k, -, hlo, hhi, hk⟩
  · have := getHeader_fits h
    omega
  · exact hraised
  · exact absurd hk (hw k hlo hhi)

/-- A wrong magic ends the header where only its own 32 bits need be readable. -/
theorem getHeader_wrongMagic {s : State} {m : Word} (hr : Readable s 32) (hm : FieldAt s s.rpos.toNat 32 m)
    (hne : m ≠ Config.magic) : ∃ t, getHeader s = .raised .formatError t ∧ OnlyRpos s t := by
  obtain ⟨t, ht, honly, -⟩ := getBits_field le_rfl hr hm
  exact ⟨t, by rw [getHeader, ht, andThen_ok, if_neg hne], honly⟩

section
variable {s : State}

/-- READ_HEADER behind its check (R119). -/
theorem exec_readHeader_open (hs : s.err = .noError) (ho : s.ropen = true) :
    exec .readHeader s = finish ((getHeader s).andThen fun h t => .ok (success h.1 h.2.1 h.2.2) t) := by
  rw [show exec .readHeader s = execReadHeader s from rfl, execReadHeader, command_noError _ hs, require_true ho]

theorem readHeader_raises {e : ErrCode} (hs : s.err = .noError) (ho : s.ropen = true)
    (h : ∃ t, getHeader s = .raised e t ∧ OnlyRpos s t) : Raises .readHeader s e := by
  obtain ⟨t, ht, honly⟩ := h
  exact honly.raises hs (by rw [exec_readHeader_open hs ho, ht, andThen_raised, finish_raised])

theorem exec_readHeader {r c n : Word} (hs : s.err = .noError) (ho : s.ropen = true) (h : Readable s 128)
    (hm : FieldAt s s.rpos.toNat 32 Config.magic) (hr : FieldAt s (s.rpos.toNat + 32) 32 r)
    (hc : FieldAt s (s.rpos.toNat + 64) 32 c) (hn : FieldAt s (s.rpos.toNat + 96) 32 n) :
    ∃ t, exec .readHeader s = .next (respond (success r c n) t) ∧ OnlyRpos s t ∧ t.rpos.toNat = s.rpos.toNat + 128 := by
  obtain ⟨t, ht, honly, hpos⟩ := getHeader_spec h hm hr hc hn
  exact ⟨t, by rw [exec_readHeader_open hs ho, ht, andThen_ok, finish_ok], honly, hpos⟩

end

/-- Settles O37: by how the four GetBits of the header end, all of which move nothing but the cursor. -/
theorem readHeaderReturnsTheThreeFields : Obligations.ReadHeaderReturnsTheThreeFields := by
  refine ⟨decodesAt_of_row (row := ⟨0x1B, false, fun _ => .readHeader⟩) (by simp [opcodeMap]) rfl,
    fun s hs => ⟨fun ho => ?usage, fun ho => ⟨fun m hr hm hne => ?wrongMagic, fun hshort hw => ?short,
    fun r c n h hm hr hc hn => ?fields⟩⟩⟩
  case usage => exact raises_of_body rfl hs <| require_false (by simp [ho])
  case wrongMagic => exact readHeader_raises hs ho (getHeader_wrongMagic hr hm hne)
  case short => exact readHeader_raises hs ho (getHeader_short hshort hw)
  case fields =>
    obtain ⟨t, hexec, honly, hpos⟩ := exec_readHeader hs ho h hm hr hc hn
    have hopen : t.ropen = true := by rw [honly]; exact ho
    exact ⟨_, honly.onlyParts.completesReading hs hexec, hpos, honly.srcLen, hopen, honly.srcByte?,
      honly.onlyParts.sameButReader⟩

/-! ### What an empty writer emits for a short run of bits -/

/-- A command that appends bits to an empty writer without filling its buffer, then FLUSH: the bits are emitted, with zeros to the
byte boundary. -/
theorem execAll_appendThenFlush {i : Instr} {s t : State} {r : Response} {bits : List Bool}
    (hexec : exec i s = .next (respond r t)) (happ : AppendsBits s t bits) (honly : OnlyWriter s t) (hs : s.err = .noError)
    (hc : s.wclosed = false) (hw : s.wpos = 0) (hlen : bits.length < 32768) (ha : SinkAccepts s ((bits.length + 7) / 8)) :
    ∃ u bytes, execAll [i, .flush] s = .next u ∧ u.sink = s.sink ++ bytes ∧ bytes.length = (bits.length + 7) / 8 ∧
      bytesBits bytes = bits ++ List.replicate (8 * ((bits.length + 7) / 8) - bits.length) false := by
  obtain ⟨hwpos, hpending, hsink, hanswer⟩ := happ.pending hw hlen
  have hts : t.err = .noError := honly.sameInstance.2.trans hs
  have htc : t.wclosed = false := by rw [honly]; exact hc
  have hta : SinkAccepts t ((t.wpos.toNat + 7) / 8) := fun k hk => (hanswer k).trans (ha k (by rwa [hwpos] at hk))
  obtain ⟨u, hu, ⟨-, -, bytes, hemitted, hcount, hbits, -⟩, -⟩ := exec_flush (s := respond r t) hts htc hta
  rw [respond_wpos, hwpos] at hcount hbits
  refine ⟨respond (success 0 0 0) u, bytes, by rw [execAll_cons hexec, execAll_cons hu, execAll],
    hemitted.trans (by rw [respond_sink, hsink]), hcount, ?_⟩
  rw [hbits, ← hpending]
  rfl

/-! ### Loading a source -/

/-- The reader stands open at stream bit 0 of a source of `length` bytes whose first bits are `bits`. -/
structure OpenOn (length : Word) (bits : List Bool) (s : State) : Prop where
  err : s.err = .noError
  ropen : s.ropen = true
  srcLen : s.srcLen = length
  rpos : s.rpos.toNat = 0
  holds : SrcHolds s bits

/-- SRC_WRITE of each byte from offset 0 on, then READER_OPEN of a length that need not be theirs. -/
theorem execAll_load {bytes : List Byte} {length : Word} {u : State} (hu : u.err = .noError) (ho : u.ropen = false)
    (hbytes : bytes.length ≤ u.params.srcMax.toNat) (hlen : length.toNat ≤ u.params.srcMax.toNat) :
    ∃ s, OpenOn length (bytesBits bytes) s ∧
      ∀ rest, execAll (srcWrites 0 bytes ++ .readerOpen length :: rest) u = execAll rest s := by
  obtain ⟨t, ht, honly, hbyte⟩ := execAll_srcWrites (bytes := bytes) (offset := 0) hu ho (by omega)
  have herr : t.err = .noError := by rw [honly]; exact hu
  have hclosed : t.ropen = false := by rw [honly]; exact ho
  have hmax : t.params = u.params := by rw [honly]
  have hopen := exec_readerOpen (length := length) herr hclosed (by rwa [hmax])
  have hholds : SrcHolds t (bytesBits bytes) := srcHolds_of_bytes fun j hj => by
    rw [hbyte, if_pos (by omega), Nat.sub_zero]
  refine ⟨respond (success 0 0 0) { t with srcLen := length, rpos := 0, ropen := true }, ⟨herr, rfl, rfl, rfl, hholds⟩,
    fun rest => ?_⟩
  rw [execAll_append _ _ _ ht, execAll_cons hopen]

theorem OpenOn.readable {length : Word} {bits : List Bool} {s : State} {n : Nat} (h : OpenOn length bits s)
    (hbits : n ≤ bits.length) (hlen : n ≤ 8 * length.toNat) : Readable s n := by
  refine ⟨?_, h.holds.written ?_⟩ <;> simpa [h.rpos, h.srcLen]

theorem OpenOn.fieldAt {length : Word} {bits front back : List Bool} {s : State} {w : Nat} {v : Word}
    (h : OpenOn length bits s) (hb : bits = front ++ fieldBits v.toNat w ++ back) (hv : v.toNat < 2 ^ w) {pos : Nat}
    (hpos : front.length = pos) : FieldAt s (s.rpos.toNat + pos) w v := by
  rw [h.rpos, Nat.zero_add, ← hpos]
  exact h.holds.fieldAt hb hv

/-- A source's first w bits are those of the value read from them. -/
theorem SrcHolds.eq_fieldBits {s : State} {bits : List Bool} {v : Word} (h : SrcHolds s bits)
    (hv : FieldAt s 0 bits.length v) : bits = fieldBits v.toNat bits.length := by
  refine List.ext_getElem (by simp [fieldBits]) fun k hk _ => ?_
  have hbit : v.getLsbD k = bits[k] := by
    rw [hv k, Nat.zero_add, h k hk, List.getElem?_eq_getElem hk]
    simp [hk]
  simpa [fieldBits, BitVec.getLsbD] using hbit.symm

/-! ### Round trips -/

/-- Settles O38: the emitted bytes begin with the value's bits, so the loaded source holds its field at stream bit 0. -/
theorem writtenBitsReadBack : Obligations.WrittenBitsReadBack := by
  intro w v s u hwidth hv hs hc hw ha hu ho hmax
  have hlen : (fieldBits v.toNat w.toNat).length = w.toNat := lowBits_length v _
  have hw0 : s.wpos.toNat = 0 := by rw [hw]; rfl
  obtain ⟨t, hexec, happ, honly⟩ := exec_writeBits v hs hwidth hc (by omega) (ha.mono (by rw [bytesOffered]; omega))
  obtain ⟨t', bytes, hrun, hsink, hcount, hbits⟩ :=
    execAll_appendThenFlush hexec happ honly hs hc hw (by omega) (by rwa [hlen])
  rw [hlen] at hcount
  have hlength : (BitVec.ofNat 32 bytes.length).toNat = bytes.length := by
    rw [BitVec.toNat_ofNat]
    omega
  obtain ⟨x, hx, hload⟩ := execAll_load (bytes := bytes) (length := BitVec.ofNat 32 bytes.length) hu ho (by omega) (by omega)
  have hreadable : Readable x w.toNat := hx.readable (by rw [bytesBits_length]; omega) (by omega)
  have hfield : FieldAt x (x.rpos.toNat + 0) w.toNat v := hx.fieldAt (front := []) hbits hv rfl
  obtain ⟨y, hread, -, -⟩ := execReadBits_field hx.err hwidth hx.ropen hreadable hfield
  exact ⟨t', bytes, hrun, hsink, hcount, _, by rw [hload, execAll_cons hread, execAll], rfl, rfl⟩

/-- READ_HEADER on a source that begins with the bits of a header (R110, R119). -/
theorem OpenOn.exec_readHeader {length rows cols numColors : Word} {s : State}
    (h : OpenOn length (headerBits rows cols numColors) s) (hlen : 16 ≤ length.toNat) :
    ∃ t, exec .readHeader s = .next (respond (success rows cols numColors) t) := by
  have hfit (v : Word) : v.toNat < 2 ^ 32 := v.isLt
  have hl (v : Nat) : (fieldBits v 32).length = 32 := by simp [fieldBits]
  have hbits : headerBits rows cols numColors =
      fieldBits Config.magic.toNat 32 ++ fieldBits rows.toNat 32 ++ fieldBits cols.toNat 32 ++ fieldBits numColors.toNat 32 := rfl
  have hm : FieldAt s (s.rpos.toNat + 0) 32 Config.magic :=
    h.fieldAt (front := []) (back := fieldBits rows.toNat 32 ++ fieldBits cols.toNat 32 ++ fieldBits numColors.toNat 32)
      (by simp only [hbits, List.append_assoc, List.nil_append]) (hfit _) rfl
  have hr : FieldAt s (s.rpos.toNat + 32) 32 rows :=
    h.fieldAt (front := fieldBits Config.magic.toNat 32) (back := fieldBits cols.toNat 32 ++ fieldBits numColors.toNat 32)
      (by simp only [hbits, List.append_assoc]) (hfit _) (hl _)
  have hc : FieldAt s (s.rpos.toNat + 64) 32 cols := h.fieldAt hbits (hfit _) (by simp [hl])
  have hn : FieldAt s (s.rpos.toNat + 96) 32 numColors :=
    h.fieldAt (back := []) (by rw [hbits, List.append_nil]) (hfit _) (by simp [hl])
  obtain ⟨t, ht, -, -⟩ := Machine.exec_readHeader h.err h.ropen
    (h.readable (by rw [headerBits_length]) (by omega)) hm hr hc hn
  exact ⟨t, ht⟩

/-- READ_HEADER on a source whose first four bytes are not the magic's (R119): the bytes behind them may be unwritten. -/
theorem OpenOn.readHeader_raises {first : List Byte} {length : Word} {s : State} (h : OpenOn length (bytesBits first) s)
    (hfirst : first.length = 4) (hlen : 4 ≤ length.toNat) (hne : first ≠ littleEndian Config.magic) :
    Raises .readHeader s .formatError := by
  have hbits : (bytesBits first).length = 32 := by rw [bytesBits_length, hfirst]
  have hreadable : Readable s 32 := h.readable hbits.ge (by omega)
  obtain ⟨m, -, -, hm, -⟩ := getBits_spec hreadable
  have hfield : FieldAt s s.rpos.toNat 32 m := hm le_rfl
  refine Machine.readHeader_raises h.err h.ropen (getHeader_wrongMagic hreadable hfield fun hmagic => hne ?_)
  rw [h.rpos, ← hbits] at hfield
  rw [← hmagic]
  refine bytesBits_inj ?_
  rw [bytesBits_littleEndian, h.holds.eq_fieldBits hfield, hbits]

/-- Settles O39: the emitted bytes are a header's, and four bytes that read as the magic are the magic's. -/
theorem writtenHeaderReadsBack : Obligations.WrittenHeaderReadsBack := by
  refine ⟨fun r c n s u hs hc hw ha hu ho hmax => ?roundTrip, fun first length u hu ho hfirst hmin hmax hne => ?rejected⟩
  case roundTrip =>
    have hw0 : s.wpos.toNat = 0 := by rw [hw]; rfl
    obtain ⟨t, hexec, happ, honly⟩ := exec_writeHeader r c n hs hc (by omega) (ha.mono (by rw [bytesOffered]; omega))
    obtain ⟨t', bytes, hrun, hsink, hcount, hbits⟩ := execAll_appendThenFlush hexec happ honly hs hc hw
      (by rw [headerBits_length]; omega) (by rwa [headerBits_length])
    rw [headerBits_length] at hcount hbits
    obtain ⟨x, hx, hload⟩ := execAll_load (bytes := bytes) (length := 16) hu ho (by omega) hmax
    rw [hbits, List.replicate_zero, List.append_nil] at hx
    obtain ⟨y, hread⟩ := hx.exec_readHeader le_rfl
    exact ⟨t', bytes, hrun, hsink, hcount, _, by rw [hload, execAll_cons hread, execAll], rfl, rfl, rfl, rfl⟩
  case rejected =>
    obtain ⟨x, hx, hload⟩ := execAll_load (bytes := first) hu ho (by omega) hmax
    obtain ⟨y, hread, herr, ⟨hstatus, -⟩, -⟩ := hx.readHeader_raises hfirst hmin hne
    exact ⟨y, by rw [hload, execAll_cons hread, execAll], hstatus, herr⟩

end Sys2Proof.Machine
end

section
/-! The quantizer's two commands (R123, R124) and their two round trips (R125, R127). -/

namespace Sys2Proof.Machine

/-! ### Quant and Dequant channel by channel -/

/-- A channel's level never carries: 2 + 4 · 63 = 254 (R124). -/
theorem level_toNat (c : BitVec 6) : (level c).toNat = 2 + 4 * c.toNat := by
  have hc := c.isLt
  rw [level, BitVec.toNat_add, BitVec.toNat_mul, BitVec.toNat_setWidth,
    show BitVec.toNat (2 : Byte) = 2 from rfl, show BitVec.toNat (4 : Byte) = 4 from rfl]
  omega

theorem dequant_r_toNat (k : Key) : (dequant k).r.toNat = 2 + 4 * (k.toNat / 4096) := by
  have hk := k.isLt
  rw [dequant, level_toNat, BitVec.extractLsb'_toNat, Nat.shiftRight_eq_div_pow]
  omega

theorem dequant_g_toNat (k : Key) : (dequant k).g.toNat = 2 + 4 * (k.toNat / 64 % 64) := by
  rw [dequant, level_toNat, BitVec.extractLsb'_toNat, Nat.shiftRight_eq_div_pow]

theorem dequant_b_toNat (k : Key) : (dequant k).b.toNat = 2 + 4 * (k.toNat % 64) := by
  rw [dequant, level_toNat, BitVec.extractLsb'_toNat, Nat.shiftRight_zero]

/-- The packing of R18 as a number: the three channels stand in separate bytes. -/
theorem packPixel_toNat (p : Pixel) : (packPixel p).toNat = p.r.toNat + p.g.toNat * 2 ^ 8 + p.b.toNat * 2 ^ 16 := by
  have hr := p.r.isLt
  have hg := p.g.isLt
  have hb := p.b.isLt
  have hlow : p.r.toNat ||| p.g.toNat * 2 ^ 8 = p.g.toNat * 2 ^ 8 + p.r.toNat := by
    rw [Nat.or_comm, Nat.mul_comm, Nat.two_pow_add_eq_or_of_lt hr]
  have hall : (p.g.toNat * 2 ^ 8 + p.r.toNat) ||| p.b.toNat * 2 ^ 16 =
      p.b.toNat * 2 ^ 16 + (p.g.toNat * 2 ^ 8 + p.r.toNat) := by
    rw [Nat.or_comm, Nat.mul_comm p.b.toNat, Nat.two_pow_add_eq_or_of_lt (by omega)]
  simp only [packPixel, BitVec.toNat_or, BitVec.toNat_shiftLeft, BitVec.toNat_setWidth, Nat.shiftLeft_eq]
  rw [Nat.mod_eq_of_lt (show p.r.toNat < 2 ^ 32 by omega), Nat.mod_eq_of_lt (show p.g.toNat < 2 ^ 32 by omega),
    Nat.mod_eq_of_lt (show p.b.toNat < 2 ^ 32 by omega), Nat.mod_eq_of_lt (show p.g.toNat * 2 ^ 8 < 2 ^ 32 by omega),
    Nat.mod_eq_of_lt (show p.b.toNat * 2 ^ 16 < 2 ^ 32 by omega), hlow, hall]
  omega

/-- R127: (2 + 4c) / 4 = c in each channel. -/
theorem quant_dequant (k : Key) : quant (dequant k) = k := by
  apply BitVec.eq_of_toNat_eq
  rw [quant_toNat, dequant_r_toNat, dequant_g_toNat, dequant_b_toNat]
  omega

/-- R125: each channel becomes the midpoint of its bucket of four levels. -/
theorem dequant_quant_toNat (p : Pixel) :
    (dequant (quant p)).r.toNat = 4 * (p.r.toNat / 4) + 2 ∧ (dequant (quant p)).g.toNat = 4 * (p.g.toNat / 4) + 2 ∧
      (dequant (quant p)).b.toNat = 4 * (p.b.toNat / 4) + 2 := by
  have hg := p.g.isLt
  have hb := p.b.isLt
  rw [dequant_r_toNat, dequant_g_toNat, dequant_b_toNat, quant_toNat]
  omega

/-- The midpoint of a value's bucket is at most 2 away, and is the value just where that is 2 modulo 4 (R125). -/
theorem bucketMidpoint_near {v out : Byte} (h : out.toNat = 4 * (v.toNat / 4) + 2) :
    out.toNat ≤ v.toNat + 2 ∧ v.toNat ≤ out.toNat + 2 ∧ (out = v ↔ v.toNat % 4 = 2) := by
  rw [← BitVec.toNat_inj]
  omega

/-! ### The two commands -/

/-- A command that answers in the state it started in has completed and changed nothing else. -/
theorem completes_sameAll {i : Instr} {s : State} {r : Response} (hs : s.err = .noError)
    (hexec : exec i s = .next (respond r s)) : Completes i s (respond r s) r ∧ SameAll s (respond r s) :=
  ⟨⟨hexec, respond_responded r s, hs, ⟨rfl, rfl⟩, rfl⟩, sameAll_respond r s⟩

theorem exec_quantize {s : State} (p : Pixel) (hs : s.err = .noError) :
    exec (.quantize p) s = .next (respond (success ((quant p).setWidth 32) 0 0) s) := by
  rw [show exec (.quantize p) s = execQuantize p s from rfl, execQuantize, command_noError _ hs, finish_ok]

theorem exec_dequantize {s : State} (k : Key) (hs : s.err = .noError) :
    exec (.dequantize k) s = .next (respond (success (packPixel (dequant k)) 0 0) s) := by
  rw [show exec (.dequantize k) s = execDequantize k s from rfl, execDequantize, command_noError _ hs, finish_ok]

/-- Settles O40: the response is the key's number. -/
theorem quantizeReturnsTheKey : Obligations.QuantizeReturnsTheKey := by
  refine ⟨decodesAt_of_row (row := ⟨0x20, false, fun w => .quantize (unpackPixel (fieldA w))⟩) (by simp [opcodeMap]) rfl,
    fun p s hs => ?_⟩
  have hkey : BitVec.ofNat 32 (p.r.toNat / 4 * 2 ^ 12 + p.g.toNat / 4 * 2 ^ 6 + p.b.toNat / 4) = (quant p).setWidth 32 := by
    rw [← BitVec.ofNat_toNat, quant_toNat]
    rfl
  rw [hkey]
  exact ⟨_, completes_sameAll hs (exec_quantize p hs)⟩

/-- Settles O41: the response is the packed representative pixel, each channel its level. -/
theorem dequantizeReturnsTheLevels : Obligations.DequantizeReturnsTheLevels := by
  refine ⟨decodesAt_of_row (row := ⟨0x21, false, fun w => .dequantize (keyOperand (fieldA w))⟩) (by simp [opcodeMap]) rfl,
    fun k s hs => ?_⟩
  rw [← dequant_r_toNat, ← dequant_g_toNat, ← dequant_b_toNat, ← packPixel_toNat, BitVec.ofNat_toNat, BitVec.setWidth_eq]
  exact ⟨_, completes_sameAll hs (exec_dequantize k hs)⟩

/-! ### The round trips through the two commands -/

/-- Settles O42: the pixel that DEQUANTIZE returned unpacks to Dequant(k), and Quant undoes Dequant. -/
theorem quantizeUndoesDequantize : Obligations.QuantizeUndoesDequantize := by
  intro k s hs
  refine ⟨_, _, exec_dequantize k hs, exec_quantize _ hs, ?_⟩
  simp only [respond_res0, success, unpackPixel_packPixel, quant_dequant]

/-- Settles O43: the key that QUANTIZE returned is the operand of DEQUANTIZE, so each channel is its bucket's midpoint. -/
theorem lossyRoundTripIsWithinTwo : Obligations.LossyRoundTripIsWithinTwo := by
  intro p s hs
  obtain ⟨hr, hg, hb⟩ := dequant_quant_toNat p
  refine ⟨_, _, exec_quantize p hs, exec_dequantize _ hs, ?_⟩
  simp only [respond_res0, success, keyOperand_setWidth, unpackPixel_packPixel]
  refine ⟨hr, hg, hb, fun v out hmem => bucketMidpoint_near ?_⟩
  simp only [List.mem_cons, List.not_mem_nil, or_false, Prod.mk.injEq] at hmem
  obtain ⟨rfl, rfl⟩ | ⟨rfl, rfl⟩ | ⟨rfl, rfl⟩ := hmem
  · exact hr
  · exact hg
  · exact hb

end Sys2Proof.Machine
end

section
/-! The ranker's five commands (R128 to R132): the counter, the order of RANK_SORT and what it stores, and the two lookups. -/

namespace Sys2Proof.Machine

/-! ### How a command of the ranker ends -/

/-- Only the counter's and the ranking's fields differ. -/
def OnlyRanker (s t : State) : Prop :=
  t = { s with cnt := t.cnt, seen := t.seen, ndist := t.ndist, total := t.total, rsorted := t.rsorted,
               pal := t.pal, palLen := t.palLen, rankof := t.rankof }

theorem OnlyRanker.cphase {s t : State} (h : OnlyRanker s t) : t.cphase = s.cphase := by rw [h]

theorem OnlyRanker.freeDraws {s t : State} (h : OnlyRanker s t) : t.freeDraws = s.freeDraws := by rw [h]

theorem OnlyRanker.err {s t : State} (h : OnlyRanker s t) : t.err = s.err := by rw [h]

/-- What a command that writes only the ranker's fields leaves as it was. -/
theorem OnlyRanker.same {s t : State} (h : OnlyRanker s t) : SameWriter s t ∧ SameReader s t ∧ SameCodec s t := by
  rw [h]
  exact ⟨⟨fun _ => rfl, rfl, rfl, rfl, rfl, rfl, rfl⟩, ⟨fun _ => rfl, rfl, rfl, rfl⟩, ⟨rfl, rfl, rfl, rfl, rfl, rfl⟩⟩

/-- A command that answers where only the ranker's fields differ has completed. -/
theorem OnlyRanker.completes {i : Instr} {s t : State} {r : Response} (h : OnlyRanker s t) (hs : s.err = .noError)
    (hexec : exec i s = .next (respond r t)) : Completes i s (respond r t) r := by
  refine ⟨hexec, ?_⟩
  rw [h]
  exact ⟨⟨rfl, rfl, rfl, rfl, rfl⟩, hs, ⟨rfl, rfl⟩, rfl⟩

/-! ### RANK_CLEAR -/

/-- RANK_CLEAR behind its check (R128). -/
theorem exec_rankClear {s : State} (hs : s.err = .noError) (hp : s.cphase = .idle) :
    exec .rankClear s =
      .next (respond (success 0 0 0) { s with cnt := [], ndist := 0, total := 0, rsorted := false, palLen := 0 }) := by
  rw [show exec .rankClear s = execRankClear s from rfl, execRankClear, command_noError _ hs, require_true hp, finish_ok]

/-- Settles O44: the counts are an empty list of nonzero ones, and no entry of a table is touched. -/
theorem rankClearEmptiesTheCounter : Obligations.RankClearEmptiesTheCounter := by
  refine ⟨decodesAt_of_row (row := ⟨0x30, false, fun _ => .rankClear⟩) (by simp [opcodeMap]) rfl,
    fun s hs => ⟨fun hp => ?usage, fun hp => ?cleared⟩⟩
  case usage => exact raises_of_body rfl hs (require_false hp)
  case cleared =>
    have honly : OnlyRanker s { s with cnt := [], ndist := 0, total := 0, rsorted := false, palLen := 0 } := rfl
    exact ⟨_, honly.completes hs (exec_rankClear hs hp), cntEntry_of_nil rfl, rfl, rfl, rfl, rfl, fun _ => rfl,
      fun _ => rfl, fun _ => rfl, honly.same⟩

/-! ### RANK_COUNT -/

/-- RANK_COUNT behind its checks (R129). -/
theorem exec_rankCount {s : State} (p : Pixel) (hs : s.err = .noError) (hp : s.cphase = .idle)
    (ht : s.total.toNat ≠ 2 ^ 64 - 1) :
    exec (.rankCount p) s = .next (respond (success ((quant p).setWidth 32) 0 0) (countKey (quant p) s)) := by
  rw [show exec (.rankCount p) s = execRankCount p s from rfl, execRankCount, command_noError _ hs, require_true hp,
    require_true ht, finish_ok]

/-- A key met for the first time enters SEEN at NDIST (R129). -/
theorem countKey_new {s : State} {k : Key} (hk : cntEntry s k = 0) :
    (countKey k s).ndist = s.ndist + 1 ∧ seenEntry (countKey k s) s.ndist.toNat = k ∧
      ∀ i, i ≠ s.ndist.toNat → seenEntry (countKey k s) i = seenEntry s i := by
  refine ⟨by rw [countKey_ndist, if_pos hk], ?entered, fun i hi => ?others⟩
  case entered => rw [seenEntry_countKey, if_pos ⟨hk, rfl⟩]
  case others => rw [seenEntry_countKey, if_neg fun h => hi h.2]

/-- A key met before leaves SEEN and NDIST (R129). -/
theorem countKey_again {s : State} {k : Key} (hk : cntEntry s k ≠ 0) :
    (countKey k s).ndist = s.ndist ∧ ∀ i, seenEntry (countKey k s) i = seenEntry s i :=
  ⟨by rw [countKey_ndist, if_neg hk], fun i => by rw [seenEntry_countKey, if_neg fun h => hk h.1]⟩

/-- Settles O45: the key of R19 is Quant's, and the case split is on whether its count was 0. -/
theorem rankCountCountsThePixelsKey : Obligations.RankCountCountsThePixelsKey := by
  refine ⟨decodesAt_of_row (row := ⟨0x31, false, fun w => .rankCount (unpackPixel (fieldA w))⟩) (by simp [opcodeMap]) rfl,
    fun p s hs => ⟨fun h => ?usage, fun hp ht k hk => ?counted⟩⟩
  case usage =>
    refine raises_of_body rfl hs <| require_usageError fun hp => require_false fun ht => ?_
    exact h.elim (absurd hp) ht
  case counted =>
    obtain rfl := isKeyOf_iff.1 hk
    have honly : OnlyRanker s (countKey (quant p) s) := rfl
    have hself : cntEntry (countKey (quant p) s) (quant p) = cntEntry s (quant p) + 1 := by rw [cntEntry_countKey, if_pos rfl]
    exact ⟨_, honly.completes hs (exec_rankCount p hs hp ht), hself, fun k' hne => cntEntry_countKey_ne s hne, rfl,
      countKey_new, countKey_again, rfl, fun _ => rfl, fun _ => rfl, rfl, honly.same⟩

/-! ### The order of RANK_SORT -/

/-- The model's test is the order of R130. -/
theorem before_iff_comesBefore (s : State) (a b : Key) : before s a b = true ↔ ComesBefore s a b := by
  rw [before_iff, ComesBefore, tieRank, tieRank]
  cases s.params.tieBreak <;> rfl

/-- Under either TIE_BREAK two keys of SEEN do not tie (R135): an index of SEEN, and a key's number, each belong to one key. -/
theorem tieRank_inj {s : State} {a b : Key} (ha : a ∈ seenKeys s) : tieRank s a = tieRank s b ↔ a = b := by
  unfold tieRank
  cases s.params.tieBreak with
  | firstSeen => exact List.idxOf_inj ha
  | keyAsc => exact key_toNat_inj

/-- Of two keys of SEEN that are not in the wrong order, the first comes before the second: the order is strict and total. -/
theorem comesBefore_of_not_before {s : State} {a b : Key} (ha : a ∈ seenKeys s) (hne : a ≠ b) (h : before s b a = false) :
    ComesBefore s a b := by
  have htie : tieRank s a ≠ tieRank s b := (tieRank_inj ha).not.2 hne
  rw [← before_iff_comesBefore, before_iff, ← BitVec.toNat_inj]
  rw [not_before_iff] at h
  omega

/-- Keys without repetition are sorted strictly (R130). -/
theorem rankedKeys_strictlySorted {s : State} (hn : (seenKeys s).Nodup) : (rankedKeys s).Pairwise (ComesBefore s) := by
  have hnodup : (rankedKeys s).Nodup := (rankedKeys_perm s).nodup_iff.2 hn
  refine (hnodup.and (rankedKeys_sorted s)).imp_of_mem ?_
  rintro a b ha - ⟨hne, hsorted⟩
  exact comesBefore_of_not_before ((mem_rankedKeys s a).1 ha) hne hsorted

/-! ### The tables after RANK_SORT, entry by entry -/

theorem afterRankSort_onlyRanker (s : State) : OnlyRanker s (afterRankSort s) := by
  rw [afterRankSort_eq]; rfl

theorem afterRankSort_sameCounts (s : State) : SameCounts s (afterRankSort s) := by
  rw [afterRankSort_eq]
  exact ⟨fun _ => rfl, fun _ => rfl, rfl, rfl⟩

/-- PAL after RANK_SORT, with or without repetition in SEEN: the ranked keys, and every other entry as it was. -/
theorem palEntry_afterRankSort_eq (s : State) (i : Nat) :
    palEntry (afterRankSort s) i = ((rankedKeys s)[i]?).getD (palEntry s i) := by
  have hpal : readCell tableUnlisted (afterRankSort s).pal i = ((rankedKeys s)[i]?).or (readCell tableUnlisted s.pal i) := by
    show readCell tableUnlisted (storeRanking (rankedKeys s) 0 s).pal i = _
    rw [storeRanking_pal, if_pos (Nat.zero_le i), Nat.sub_zero]
  have hdraws := (afterRankSort_onlyRanker s).freeDraws
  rw [palEntry, hpal, hdraws]
  cases (rankedKeys s)[i]? with
  | none => rfl
  | some k => rfl

theorem rankEntry_afterRankSort_of_not_mem {s : State} {k : Key} (h : k ∉ seenKeys s) :
    rankEntry (afterRankSort s) k = rankEntry s k := by
  have hrank : readCell tableUnlisted (afterRankSort s).rankof k.toNat = readCell tableUnlisted s.rankof k.toNat :=
    storeRanking_rankof_of_not_mem _ 0 s ((mem_rankedKeys s k).not.2 h)
  have hdraws := (afterRankSort_onlyRanker s).freeDraws
  rw [rankEntry, hrank, hdraws, ← rankEntry]

/-- RANKOF of a ranked key follows from the ranked keys alone. -/
theorem rankEntry_afterRankSort_congr {s t : State} (hkeys : rankedKeys t = rankedKeys s) (hdraws : t.freeDraws = s.freeDraws)
    {k : Key} (h : k ∈ seenKeys s) : rankEntry (afterRankSort t) k = rankEntry (afterRankSort s) k := by
  have hrank : readCell tableUnlisted (afterRankSort t).rankof k.toNat =
      readCell tableUnlisted (afterRankSort s).rankof k.toNat := by
    show readCell tableUnlisted (storeRanking (rankedKeys t) 0 t).rankof k.toNat = _
    rw [hkeys]
    exact storeRanking_rankof_of_mem _ 0 t s ((mem_rankedKeys s k).2 h)
  have hs := (afterRankSort_onlyRanker s).freeDraws
  have ht := (afterRankSort_onlyRanker t).freeDraws
  rw [rankEntry, rankEntry, hrank, ht, hs, hdraws]

/-! ### RANK_SORT -/

/-- Settles O46: insertion sort by "not in the wrong order" is the strict order where SEEN has no repetition, and RANK_SORT
stores exactly the sorted list and its indices. -/
theorem rankSortOrdersTheKeys : Obligations.RankSortOrdersTheKeys := by
  refine ⟨decodesAt_of_row (row := ⟨0x32, false, fun _ => .rankSort⟩) (by simp [opcodeMap]) rfl,
    fun s hs => ⟨fun hp => ?usage, fun hp hn => ?sorted⟩⟩
  case usage => exact raises_of_body rfl hs (require_false hp)
  case sorted =>
    have honly := afterRankSort_onlyRanker s
    obtain ⟨hwriter, hreader, hcodec⟩ := honly.same
    obtain ⟨-, -, -, hranks⟩ := afterRankSort_rankingConsistent hn
    have hperm : (paletteKeys (afterRankSort s)).Perm (seenKeys s) := by
      rw [paletteKeys_afterRankSort]; exact rankedKeys_perm s
    have hstrict : (paletteKeys (afterRankSort s)).Pairwise (ComesBefore s) := by
      rw [paletteKeys_afterRankSort]; exact rankedKeys_strictlySorted hn
    have hbeyond (i : Nat) (hi : s.ndist.toNat ≤ i) : palEntry (afterRankSort s) i = palEntry s i := by
      rw [palEntry_afterRankSort_eq, List.getElem?_eq_none (by rwa [rankedKeys_length]), Option.getD_none]
    exact ⟨_, honly.completes hs (exec_rankSort hs hp), rfl, rfl, hperm, hstrict, hranks, hbeyond,
      fun k hk => rankEntry_afterRankSort_of_not_mem hk, afterRankSort_sameCounts s, hwriter, hreader, hcodec⟩

/-- RANK_SORT changes nothing that its order reads (R130). -/
theorem rankedKeys_afterRankSort (s : State) : rankedKeys (afterRankSort s) = rankedKeys s := by
  rw [afterRankSort_eq]; rfl

/-- RANK_SORT on its own result, after the response between them, stores what stands there already. -/
theorem afterRankSort_again (r : Response) (s : State) :
    SameRanking (respond r (afterRankSort s)) (afterRankSort (respond r (afterRankSort s))) := by
  have hkeys : rankedKeys (respond r (afterRankSort s)) = rankedKeys s := rankedKeys_afterRankSort s
  obtain ⟨-, hseen, hndist, -⟩ := afterRankSort_sameCounts s
  have hdraws := (afterRankSort_onlyRanker s).freeDraws
  refine ⟨fun i => ?palette, fun k => ?ranks, hndist, rfl⟩
  case palette =>
    have hpal : palEntry (respond r (afterRankSort s)) i = ((rankedKeys s)[i]?).getD (palEntry s i) :=
      palEntry_afterRankSort_eq s i
    rw [palEntry_afterRankSort_eq, hkeys, hpal]
    cases (rankedKeys s)[i]? with
    | none => rfl
    | some k => rfl
  case ranks =>
    by_cases hk : k ∈ seenKeys s
    · exact rankEntry_afterRankSort_congr hkeys hdraws hk
    · refine rankEntry_afterRankSort_of_not_mem ?_
      rwa [← mem_rankedKeys, hkeys, mem_rankedKeys]

theorem SameRanking.respond {s t : State} (h : SameRanking s t) (r : Response) : SameRanking s (respond r t) := h

theorem SameCounts.respond {s t : State} (h : SameCounts s t) (r : Response) : SameCounts s (respond r t) := h

/-- Settles O48: the second RANK_SORT sorts the same keys by the same order. -/
theorem rankSortIsIdempotent : Obligations.RankSortIsIdempotent := by
  intro s t hs hp h
  rw [exec_rankSort hs hp] at h
  cases h
  have honly := afterRankSort_onlyRanker s
  exact ⟨_, exec_rankSort (honly.err.trans hs) (honly.cphase.trans hp), (afterRankSort_again _ s).respond _,
    (afterRankSort_sameCounts _).respond _, rfl⟩

/-! ### RANK_LOOKUP and PAL_READ -/

/-- RANK_LOOKUP behind its checks (R131). -/
theorem exec_rankLookup {s : State} {k : Key} (hs : s.err = .noError) (hr : s.rsorted = true) (hk : cntEntry s k ≠ 0) :
    exec (.rankLookup k) s = .next (respond (success ((rankEntry s k).setWidth 32) 0 0) s) := by
  rw [show exec (.rankLookup k) s = execRankLookup k s from rfl, execRankLookup, command_noError _ hs, require_true hr,
    require_true hk, finish_ok]

/-- Settles O49: two checks, then RANKOF. -/
theorem rankLookupReturnsTheRank : Obligations.RankLookupReturnsTheRank := by
  refine ⟨decodesAt_of_row (row := ⟨0x33, false, fun w => .rankLookup (keyOperand (fieldA w))⟩) (by simp [opcodeMap]) rfl,
    fun k s hs => ⟨fun h => ?usage, fun hr hk => ⟨_, completes_sameAll hs (exec_rankLookup hs hr hk)⟩⟩⟩
  case usage =>
    refine raises_of_body rfl hs <| require_usageError fun hr => require_false fun hk => ?_
    exact h.elim (fun hr' => by simp [hr] at hr') hk

/-- PAL_READ behind its check (R132). -/
theorem exec_palRead {s : State} {rank : Word} (hs : s.err = .noError) (hr : rank.toNat < s.palLen.toNat) :
    exec (.palRead rank) s = .next (respond (success ((palEntry s rank.toNat).setWidth 32) 0 0) s) := by
  rw [show exec (.palRead rank) s = execPalRead rank s from rfl, execPalRead, command_noError _ hs, require_true hr, finish_ok]

/-- Settles O50: one check, then PAL. -/
theorem palReadReturnsTheKey : Obligations.PalReadReturnsTheKey := by
  refine ⟨decodesAt_of_row (row := ⟨0x34, false, fun w => .palRead (fieldA w)⟩) (by simp [opcodeMap]) rfl,
    fun rank s hs => ⟨fun hr => ?usage, fun hr => ⟨_, completes_sameAll hs (exec_palRead hs hr)⟩⟩⟩
  case usage => exact raises_of_body rfl hs (require_false (not_lt.2 hr))

end Sys2Proof.Machine
end

section
/-! CapacityError (R134, R141): only ENC_HEADER's test of NDIST raises it, and the invariant keeps NDIST below that test. -/

namespace Sys2Proof.Machine

/-- A command's body, or a part of it, does not end with CapacityError, and Q holds of its answer. -/
def AvoidsCapacity {α : Type} (Q : α → Prop) (r : Result α) : Prop :=
  match r with
  | .ok a _ => Q a
  | .raised e _ => e ≠ .capacityError
  | .fault _ => True

/-- The response is not CapacityError. -/
def NotCapacity (r : Response) : Prop := r.status ≠ .capacityError

/-- The outcome's next state, if it has one, does not show CapacityError. -/
def NoCapacityResponse (o : Host.Outcome State Fault Refusal) : Prop := ∀ t, o = .next t → t.rstatus ≠ .capacityError

section
variable {α β : Type} {s t : State} {Q : β → Prop} {R : α → Prop}

theorem AvoidsCapacity.require {c : Prop} [Decidable c] {r : Result α} (h : AvoidsCapacity R r) :
    AvoidsCapacity R (require c s r) := by
  by_cases hc : c
  · rwa [require_true hc]
  · rw [require_false hc]; exact nofun

theorem AvoidsCapacity.andThen {r : Result α} {k : α → State → Result β} (h : AvoidsCapacity (fun _ => True) r)
    (hk : ∀ a t, AvoidsCapacity Q (k a t)) : AvoidsCapacity Q (r.andThen k) := by
  cases r with
  | ok a t => exact hk a t
  | raised e t => exact h
  | fault f => trivial

theorem AvoidsCapacity.success {r0 r1 r2 : Word} : AvoidsCapacity NotCapacity (.ok (success r0 r1 r2) t) := nofun

theorem NoCapacityResponse.respond {r : Response} (h : NotCapacity r) : NoCapacityResponse (.next (respond r t)) := by
  rintro _ ⟨⟩
  exact h

theorem NoCapacityResponse.raiseError {e : ErrCode} (h : e ≠ .capacityError) : NoCapacityResponse (.next (raiseError e t)) := by
  obtain ⟨⟨hstatus, -⟩, -⟩ := raiseError_keeps e t
  rintro _ ⟨⟩
  rwa [hstatus]

/-- While ERR = 0 a command responds with what its body ends with. -/
theorem command_noCapacity {body : Result Response} (hs : s.err = .noError) (h : AvoidsCapacity NotCapacity body) :
    NoCapacityResponse (command s body) := by
  rw [command_noError body hs]
  cases body with
  | ok r t => exact .respond h
  | raised e t => exact .raiseError h
  | fault f => rintro _ ⟨⟩

/-- The writer raises no error but IOError. -/
theorem WriterOutcome.avoidsCapacity {r : Result Unit} (h : WriterOutcome s r) : AvoidsCapacity (fun _ => True) r := by
  rcases h with ⟨t, rfl, -, -⟩ | ⟨t, rfl, -, -⟩
  · trivial
  · exact nofun

/-- The reader raises no error but FormatError. -/
theorem ReaderOutcome.avoidsCapacity {r : Result α} (h : ReaderOutcome s r) : AvoidsCapacity (fun _ => True) r := by
  rcases h with ⟨v, t, rfl, -, -, -⟩ | ⟨t, rfl, -⟩ | ⟨f, rfl, -⟩
  · trivial
  · exact nofun
  · trivial

end

theorem putBits_avoidsCapacity (v : Word) (w : Nat) (s : State) : AvoidsCapacity (fun _ => True) (putBits v w s) :=
  (putAll_outcome _ s).avoidsCapacity

theorem getPalette_avoidsCapacity (n i : Nat) (s : State) : AvoidsCapacity (fun _ => True) (getPalette n i s) := by
  rcases getPalette_outcome n i s with ⟨t, h, -⟩ | ⟨t, h, -⟩ | ⟨f, h, -⟩
  · rw [h]; trivial
  · rw [h]; exact nofun
  · rw [h]; trivial

theorem execRegRead_noCapacity {s : State} (number : Word) (hs : s.err = .noError) :
    NoCapacityResponse (execRegRead number s) := by
  rw [execRegRead, if_pos hs]
  split
  · exact .respond nofun
  · exact .raiseError nofun

/-- ENC_HEADER does not reach its CapacityError where NDIST is at most 2^18 (R134, R141). -/
theorem execEncHeader_noCapacity {s : State} (rows cols : Word) (hs : s.err = .noError)
    (hn : s.ndist.toNat ≤ Config.maxColors) : NoCapacityResponse (execEncHeader rows cols s) := by
  refine command_noCapacity hs <| .require <| .require <| .require <| .require ?_
  rw [if_neg (not_lt.2 hn)]
  exact (putHeader_outcome _ _ _ s).avoidsCapacity.andThen fun _ _ => .success

theorem execDecHeader_noCapacity {s : State} (hs : s.err = .noError) : NoCapacityResponse (execDecHeader s) := by
  refine command_noCapacity hs <| .require <| .require <| .require <|
    (getHeader_outcome s).avoidsCapacity.andThen fun _ _ => ?_
  split
  · exact nofun
  · exact .success

theorem execDecPixel_noCapacity {s : State} (hs : s.err = .noError) : NoCapacityResponse (execDecPixel s) := by
  refine command_noCapacity hs <| .require <| .require <| (getBits_outcome _ s).avoidsCapacity.andThen fun _ _ => ?_
  split
  · exact .success
  · exact nofun

/-- No command responds with CapacityError where NDIST is at most 2^18. -/
theorem exec_noCapacity {s : State} (i : Instr) (hs : s.err = .noError) (hn : s.ndist.toNat ≤ Config.maxColors) :
    NoCapacityResponse (exec i s) := by
  cases i with
  | nop => exact .respond nofun
  | reset => exact .respond nofun
  | regRead number => exact execRegRead_noCapacity number hs
  | writeBits width value =>
    exact command_noCapacity hs <| .require <| .require <| (putBits_avoidsCapacity _ _ s).andThen fun _ _ => .success
  | writeHeader rows cols numColors =>
    exact command_noCapacity hs <| .require <| (putHeader_outcome _ _ _ s).avoidsCapacity.andThen fun _ _ => .success
  | flush | close =>
    exact command_noCapacity hs <| .require <| (flushBuf_outcome s).avoidsCapacity.andThen fun _ _ => .success
  | srcWrite | readerOpen => exact command_noCapacity hs <| .require <| .require <| .success
  | readBits width =>
    exact command_noCapacity hs <| .require <| .require <| (getBits_outcome _ s).avoidsCapacity.andThen fun _ _ => .success
  | readHeader => exact command_noCapacity hs <| .require <| (getHeader_outcome s).avoidsCapacity.andThen fun _ _ => .success
  | quantize | dequantize | rankWidth => exact command_noCapacity hs <| .success
  | rankClear | rankSort | palRead => exact command_noCapacity hs <| .require <| .success
  | rankCount | rankLookup => exact command_noCapacity hs <| .require <| .require <| .success
  | encHeader rows cols => exact execEncHeader_noCapacity rows cols hs hn
  | encPalette =>
    exact command_noCapacity hs <| .require <| .require <| (putPalette_outcome _ _ s).avoidsCapacity.andThen fun _ _ => .success
  | encPixel pixel =>
    exact command_noCapacity hs <| .require <| .require <| .require <| .require <|
      (putBits_avoidsCapacity _ _ s).andThen fun _ _ => .success
  | encFinish =>
    exact command_noCapacity hs <| .require <| .require <| .require <|
      (flushBuf_outcome s).avoidsCapacity.andThen fun _ _ => .success
  | decHeader => exact execDecHeader_noCapacity hs
  | decPalette => exact command_noCapacity hs <| .require <| (getPalette_avoidsCapacity _ _ s).andThen fun _ _ => .success
  | decPixel => exact execDecPixel_noCapacity hs

/-- Settles O18: SEEN lists no key twice (R54 item 3), there are 2^18 keys, and ENC_HEADER alone tests NDIST. -/
theorem capacityErrorIsNeverRaised : Obligations.CapacityErrorIsNeverRaised := by
  intro s hinv hs
  obtain ⟨-, hhealthy⟩ := (invariant_iff_healthy hs).1 hinv
  obtain ⟨-, hcounts, -⟩ := hhealthy.ranker
  exact ⟨hcounts.ndist_le, fun i => exec_noCapacity i hs hcounts.ndist_le⟩

end Sys2Proof.Machine
end

section
/-! TIE_BREAK (R135, R155): nothing but RANK_SORT's order and the CONFIG register looks at it, so every other operation, run in a
state with another TIE_BREAK, does the same with that TIE_BREAK in its final state. One rule for each way bodies are put together,
one lemma for each shared operation. -/

namespace Sys2Proof.Machine

/-- s with TIE_BREAK replaced. -/
def withTieBreak (tb : TieBreak) (s : State) : State := { s with params := ⟨s.params.srcMax, tb⟩ }

/-- r with TIE_BREAK replaced in the state it ends in. -/
def Result.withTieBreak {α : Type} (tb : TieBreak) (r : Result α) : Result α :=
  match r with
  | .ok a t => .ok a (Machine.withTieBreak tb t)
  | .raised e t => .raised e (Machine.withTieBreak tb t)
  | .fault f => .fault f

/-- o with TIE_BREAK replaced in the next state. -/
def outcomeWithTieBreak (tb : TieBreak) (o : Host.Outcome State Fault Refusal) : Host.Outcome State Fault Refusal :=
  match o with
  | .next t => .next (withTieBreak tb t)
  | .fault f => .fault f
  | .refused r => .refused r

/-- r' is what r is, but for TIE_BREAK. -/
def UpToTieBreak {α : Type} (tb : TieBreak) (r r' : Result α) : Prop := r' = r.withTieBreak tb

/-! ### Rules for bodies -/

section
variable {α β : Type} {tb : TieBreak} {s : State}

theorem UpToTieBreak.ok (a : α) (t : State) : UpToTieBreak tb (.ok a t) (.ok a (withTieBreak tb t)) := rfl

theorem UpToTieBreak.raised (e : ErrCode) (t : State) :
    UpToTieBreak tb (.raised e t : Result α) (.raised e (withTieBreak tb t)) := rfl

theorem UpToTieBreak.ite {c : Prop} [Decidable c] {x x' y y' : Result α} (hx : UpToTieBreak tb x x')
    (hy : UpToTieBreak tb y y') : UpToTieBreak tb (if c then x else y) (if c then x' else y') := by
  by_cases hc : c
  · rwa [if_pos hc, if_pos hc]
  · rwa [if_neg hc, if_neg hc]

theorem UpToTieBreak.require {c : Prop} [Decidable c] {r r' : Result α} (h : UpToTieBreak tb r r') :
    UpToTieBreak tb (require c s r) (require c (withTieBreak tb s) r') := .ite h (.raised _ s)

theorem UpToTieBreak.andThen {r r' : Result α} {k k' : α → State → Result β} (h : UpToTieBreak tb r r')
    (hk : ∀ a t, UpToTieBreak tb (k a t) (k' a (withTieBreak tb t))) : UpToTieBreak tb (r.andThen k) (r'.andThen k') := by
  unfold UpToTieBreak at h
  subst h
  cases r with
  | ok a t => exact hk a t
  | raised e t => rfl
  | fault f => rfl

end

/-- The error entry does not look at the parameters (R165). -/
theorem raiseError_withTieBreak (tb : TieBreak) (e : ErrCode) (s : State) :
    raiseError e (withTieBreak tb s) = withTieBreak tb (raiseError e s) := by
  by_cases hs : s.err = .noError
  · rw [raiseError_noError hs, raiseError_noError (s := withTieBreak tb s) hs]
    rfl
  · rw [raiseError_sticky hs, raiseError_sticky (s := withTieBreak tb s) hs]
    rfl

theorem command_withTieBreak {tb : TieBreak} {s : State} {body body' : Result Response} (h : UpToTieBreak tb body body') :
    command (withTieBreak tb s) body' = outcomeWithTieBreak tb (command s body) := by
  unfold UpToTieBreak at h
  subst h
  by_cases hs : s.err = .noError
  · rw [command_noError body hs, command_noError _ (s := withTieBreak tb s) hs]
    cases body with
    | ok r t => rfl
    | raised e t => exact congrArg _ (raiseError_withTieBreak tb e t)
    | fault f => rfl
  · rw [command_sticky body hs, command_sticky _ (s := withTieBreak tb s) hs]
    rfl

/-! ### The writer's operations -/

section
variable (tb : TieBreak)

theorem emit_upToTieBreak (b : Byte) (s : State) : UpToTieBreak tb (emit b s) (emit b (withTieBreak tb s)) :=
  .ite (c := sinkAnswer s = true) rfl rfl

theorem emitAll_upToTieBreak (bytes : List Byte) (s : State) :
    UpToTieBreak tb (emitAll bytes s) (emitAll bytes (withTieBreak tb s)) := by
  induction bytes generalizing s with
  | nil => rfl
  | cons b rest ih => exact (emit_upToTieBreak tb b s).andThen fun _ t => ih t

theorem emitFull_upToTieBreak (s : State) : UpToTieBreak tb (emitFull s) (emitFull (withTieBreak tb s)) :=
  (emitAll_upToTieBreak tb _ s).andThen fun _ _ => rfl

theorem putBit_upToTieBreak (b : Bool) (s : State) : UpToTieBreak tb (putBit b s) (putBit b (withTieBreak tb s)) :=
  .ite (c := (storeBit b s).wpos.toNat = Config.wbufBits) (emitFull_upToTieBreak tb (storeBit b s)) rfl

theorem putAll_upToTieBreak (bits : List Bool) (s : State) :
    UpToTieBreak tb (putAll bits s) (putAll bits (withTieBreak tb s)) := by
  induction bits generalizing s with
  | nil => rfl
  | cons b rest ih => exact (putBit_upToTieBreak tb b s).andThen fun _ t => ih t

theorem putBits_upToTieBreak (v : Word) (w : Nat) (s : State) :
    UpToTieBreak tb (putBits v w s) (putBits v w (withTieBreak tb s)) := putAll_upToTieBreak tb _ s

theorem putHeader_upToTieBreak (rows cols numColors : Word) (s : State) :
    UpToTieBreak tb (putHeader rows cols numColors s) (putHeader rows cols numColors (withTieBreak tb s)) := by
  rw [putHeader_eq, putHeader_eq]
  exact putAll_upToTieBreak tb _ s

theorem putPalette_upToTieBreak (n i : Nat) (s : State) :
    UpToTieBreak tb (putPalette n i s) (putPalette n i (withTieBreak tb s)) := by
  rw [putPalette_eq, putPalette_eq]
  exact putAll_upToTieBreak tb _ s

theorem flushBuf_upToTieBreak (s : State) : UpToTieBreak tb (flushBuf s) (flushBuf (withTieBreak tb s)) :=
  (emitAll_upToTieBreak tb _ s).andThen fun _ _ => rfl

/-! ### The reader's operations -/

theorem srcBits_withTieBreak (s : State) (pos w : Nat) : srcBits (withTieBreak tb s) pos w = srcBits s pos w := by
  induction w generalizing pos with
  | zero => rfl
  | succ w ih =>
    have hbit : srcBit? (withTieBreak tb s) pos = srcBit? s pos := rfl
    rw [srcBits, srcBits, ih, hbit]

theorem getBits_upToTieBreak (w : Nat) (s : State) : UpToTieBreak tb (getBits w s) (getBits w (withTieBreak tb s)) := by
  have hbits : srcBits (withTieBreak tb s) (withTieBreak tb s).rpos.toNat w = srcBits s s.rpos.toNat w :=
    srcBits_withTieBreak tb s _ w
  unfold getBits
  refine .ite (.raised _ s) ?_
  rw [hbits]
  split
  · rfl
  · rfl

theorem getHeader_upToTieBreak (s : State) : UpToTieBreak tb (getHeader s) (getHeader (withTieBreak tb s)) :=
  (getBits_upToTieBreak tb 32 s).andThen fun _ t => .ite
    ((getBits_upToTieBreak tb 32 t).andThen fun _ t => (getBits_upToTieBreak tb 32 t).andThen fun _ t =>
      (getBits_upToTieBreak tb 32 t).andThen fun _ t => .ok _ t)
    (.raised _ t)

theorem getPalette_upToTieBreak (n i : Nat) (s : State) :
    UpToTieBreak tb (getPalette n i s) (getPalette n i (withTieBreak tb s)) := by
  induction n generalizing i s with
  | zero => rfl
  | succ n ih =>
    exact (getBits_upToTieBreak tb _ s).andThen fun v t =>
      ih (i + 1) { t with pal := writeCell tableUnlisted t.pal i (v.setWidth 18) }

/-! ### Every command but RANK_SORT and REG_READ -/

/-- A command that reads neither the order of keys nor a register does the same under either TIE_BREAK. -/
theorem exec_withTieBreak {i : Instr} (hsort : i ≠ .rankSort) (hread : ∀ n, i ≠ .regRead n) (s : State) :
    exec i (withTieBreak tb s) = outcomeWithTieBreak tb (exec i s) := by
  cases i with
  | nop => rfl
  | reset => rfl
  | regRead number => exact absurd rfl (hread number)
  | writeBits width value =>
    exact command_withTieBreak <| .require <| .require <| (putBits_upToTieBreak tb _ _ s).andThen fun _ _ => rfl
  | writeHeader rows cols numColors =>
    exact command_withTieBreak <| .require <| (putHeader_upToTieBreak tb _ _ _ s).andThen fun _ _ => rfl
  | flush | close => exact command_withTieBreak <| .require <| (flushBuf_upToTieBreak tb s).andThen fun _ _ => rfl
  | srcWrite | readerOpen => exact command_withTieBreak <| .require <| .require rfl
  | readBits width =>
    exact command_withTieBreak <| .require <| .require <| (getBits_upToTieBreak tb _ s).andThen fun _ _ => rfl
  | readHeader => exact command_withTieBreak <| .require <| (getHeader_upToTieBreak tb s).andThen fun _ _ => rfl
  | quantize | dequantize | rankWidth => exact command_withTieBreak rfl
  | rankClear | palRead => exact command_withTieBreak <| .require rfl
  | rankCount | rankLookup => exact command_withTieBreak <| .require <| .require rfl
  | rankSort => exact absurd rfl hsort
  | encHeader rows cols =>
    exact command_withTieBreak <| .require <| .require <| .require <| .require <| .ite rfl <|
      (putHeader_upToTieBreak tb _ _ _ s).andThen fun _ _ => rfl
  | encPalette =>
    exact command_withTieBreak <| .require <| .require <| (putPalette_upToTieBreak tb _ _ s).andThen fun _ _ => rfl
  | encPixel pixel =>
    exact command_withTieBreak <| .require <| .require <| .require <| .require <|
      (putBits_upToTieBreak tb _ _ s).andThen fun _ _ => rfl
  | encFinish =>
    exact command_withTieBreak <| .require <| .require <| .require <| (flushBuf_upToTieBreak tb s).andThen fun _ _ => rfl
  | decHeader =>
    exact command_withTieBreak <| .require <| .require <| .require <| (getHeader_upToTieBreak tb s).andThen fun _ _ =>
      .ite rfl rfl
  | decPalette => exact command_withTieBreak <| .require <| (getPalette_upToTieBreak tb _ _ s).andThen fun _ _ => rfl
  | decPixel =>
    exact command_withTieBreak <| .require <| .require <| (getBits_upToTieBreak tb _ s).andThen fun _ _ => .ite rfl rfl

end

/-- Settles O23: the command's outcome under the other TIE_BREAK is its outcome with that TIE_BREAK put in. -/
theorem tieBreakOnlyAffectsRankSort : Obligations.TieBreakOnlyAffectsRankSort := by
  intro i s tb hsort hread
  have hexec := exec_withTieBreak tb hsort hread s
  constructor
  · intro t ht
    obtain ⟨hparams, -⟩ := exec_keeps i s t ht
    rw [ht, outcomeWithTieBreak, withTieBreak, withTieBreak, hparams] at hexec
    exact hexec
  · intro f hf
    rw [hf] at hexec
    exact hexec

end Sys2Proof.Machine
end

section
/-! RANK_WIDTH and the encoder's four commands (R139 to R144): the checks, then PutBits or FlushBuf and the codec's registers. -/

namespace Sys2Proof.Machine

/-! ### How a command of the codec ends -/

/-- What stands in no row of R56: ERR, the host's side, the responses and the draws. -/
def SameOutsideRows (s t : State) : Prop :=
  t.err = s.err ∧ SameHost s t ∧ t.responses = s.responses ∧ t.freeDraws = s.freeDraws

/-- A command that answers where only rows of R56 differ has completed. -/
theorem SameOutsideRows.completes {i : Instr} {s t : State} {r : Response} (h : SameOutsideRows s t) (hs : s.err = .noError)
    (hexec : exec i s = .next (respond r t)) : Completes i s (respond r t) r := by
  obtain ⟨herr, hhost, hresponses, hdraws⟩ := h
  exact ⟨hexec, ⟨rfl, rfl, rfl, rfl, by rw [respond_responses, hresponses]⟩, herr.trans hs, hhost, hdraws⟩

/-- Only the writer's fields and the codec's registers differ. -/
def OnlyEncoder (s t : State) : Prop :=
  t = { s with wbuf := t.wbuf, wpos := t.wpos, wclosed := t.wclosed, sink := t.sink, sinkcnt := t.sinkcnt,
               sinkAnswers := t.sinkAnswers, sinkOffers := t.sinkOffers, cphase := t.cphase, rows := t.rows, cols := t.cols,
               ncolors := t.ncolors, rcw := t.rcw, pixrem := t.pixrem }

/-- What a command that writes only the encoder's fields leaves as it was. -/
theorem OnlyEncoder.same {s t : State} (h : OnlyEncoder s t) : SameReader s t ∧ SameCounts s t ∧ SameRanking s t := by
  rw [h]
  exact ⟨⟨fun _ => rfl, rfl, rfl, rfl⟩, ⟨fun _ => rfl, fun _ => rfl, rfl, rfl⟩, ⟨fun _ => rfl, fun _ => rfl, rfl, rfl⟩⟩

theorem OnlyEncoder.outside {s t : State} (h : OnlyEncoder s t) : SameOutsideRows s t := by
  rw [h]
  exact ⟨rfl, ⟨rfl, rfl⟩, rfl, rfl⟩

/-- What is emitted before a refused byte of PutBits, counted in bytes (R61). -/
theorem raisesAfter_of_putAll_length {i : Instr} {s : State} {bits : List Bool} {k : Unit → State → Result Response} {j : Nat}
    (hexec : exec i s = finish ((putAll bits s).andThen k)) (hs : s.err = .noError) (hw : s.wpos.toNat < 32768)
    (hj : j < bytesOffered s bits.length) (hr : FirstRefusalAt s j) :
    ∃ bytes, RaisesAfter i s .ioError bytes ∧ bytes.length = j := by
  obtain ⟨bytes, hraises, hbits⟩ := raisesAfter_of_putAll hexec hs hw hj hr
  refine ⟨bytes, hraises, ?_⟩
  have hlen := congrArg List.length hbits
  rw [bytesBits_length, List.length_take, List.length_append, pendingBits_length] at hlen
  unfold bytesOffered at hj
  omega

/-! ### RANK_WIDTH -/

/-- No narrower width holds every rank (R139). -/
theorem rankCodeWidth_least {n : Nat} (h : 2 ≤ n) : 2 ^ (rankCodeWidth n - 1) < n := by
  have hlog : 2 ^ Nat.log2 (n - 1) ≤ n - 1 := Nat.log2_self_le (by omega)
  rw [rankCodeWidth, if_neg (by omega), bitlen, if_neg (by omega), Nat.add_sub_cancel]
  omega

theorem rankCodeWidth_le_of_lt {n w : Nat} (h : n < 2 ^ w) : rankCodeWidth n ≤ w := by
  unfold rankCodeWidth
  split
  · omega
  · next hn =>
    rw [bitlen, if_neg (by omega)]
    exact (Nat.log2_lt (by omega)).2 (by omega)

theorem exec_rankWidth {s : State} (n : Word) (hs : s.err = .noError) :
    exec (.rankWidth n) s = .next (respond (success (BitVec.ofNat 32 (rankCodeWidth n.toNat)) 0 0) s) := by
  rw [show exec (.rankWidth n) s = execRankWidth n s from rfl, execRankWidth, command_noError _ hs, finish_ok]

/-- Settles O51: the response is rcw(n), which bitlen(n − 1) makes the least width. -/
theorem rankWidthIsTheLeastWidth : Obligations.RankWidthIsTheLeastWidth := by
  refine ⟨decodesAt_of_row (row := ⟨0x44, false, fun w => .rankWidth (fieldA w)⟩) (by simp [opcodeMap]) rfl, fun n s hs => ?_⟩
  obtain ⟨hcompletes, hsame⟩ := completes_sameAll hs (exec_rankWidth n hs)
  exact ⟨_, rankCodeWidth n.toNat, hcompletes, hsame, rankCodeWidth_le_of_lt n.isLt, rfl, fun h => if_pos h,
    fun h => ⟨le_two_pow_rankCodeWidth _, rankCodeWidth_least h⟩⟩

/-! ### ENC_HEADER -/

/-- 64 bits hold the product of two 32-bit factors (R48). -/
theorem gridSize_toNat (rows cols : Word) : (gridSize rows cols).toNat = rows.toNat * cols.toNat := by
  have hlt : rows.toNat * cols.toNat < 2 ^ 32 * 2 ^ 32 := Nat.mul_lt_mul'' rows.isLt cols.isLt
  rw [gridSize, BitVec.toNat_mul, BitVec.toNat_setWidth, BitVec.toNat_setWidth,
    Nat.mod_eq_of_lt (rows.isLt.trans (by decide)), Nat.mod_eq_of_lt (cols.isLt.trans (by decide))]
  exact Nat.mod_eq_of_lt hlt

theorem gridSize_eq_iff {rows cols : Word} {total : BitVec 64} :
    gridSize rows cols = total ↔ rows.toNat * cols.toNat = total.toNat := by
  rw [← BitVec.toNat_inj, gridSize_toNat]

theorem ndist_setWidth_toNat (n : BitVec 19) : (n.setWidth 32).toNat = n.toNat := by
  rw [BitVec.toNat_setWidth]
  exact Nat.mod_eq_of_lt (n.isLt.trans (by decide))

/-- The checks of ENC_HEADER have passed: an idle codec, a current ranking, a fresh writer and a grid of TOTAL pixels (R141). -/
structure EncodingMayStart (rows cols : Word) (s : State) : Prop where
  err : s.err = .noError
  idle : s.cphase = .idle
  rsorted : s.rsorted = true
  wclosed : s.wclosed = false
  wpos : s.wpos = 0
  sinkcnt : s.sinkcnt = 0
  grid : rows.toNat * cols.toNat = s.total.toNat

/-- ENC_HEADER behind its UsageErrors (R141). -/
theorem exec_encHeader_checked {rows cols : Word} {s : State} (h : EncodingMayStart rows cols s) :
    exec (.encHeader rows cols) s = finish
      (if s.ndist.toNat > Config.maxColors then .raised .capacityError s
      else (putAll (headerBits rows cols (s.ndist.setWidth 32)) s).andThen fun _ t =>
        .ok (success (s.ndist.setWidth 32) (BitVec.ofNat 32 (rankCodeWidth s.ndist.toNat)) 0)
          { loadHeader rows cols (s.ndist.setWidth 32) t with cphase := .encPal }) := by
  have hputs (t : State) (ht : OnlyWriter s t) : t.ndist = s.ndist := by rw [ht]
  rw [show exec (.encHeader rows cols) s = execEncHeader rows cols s from rfl, execEncHeader, command_noError _ h.err,
    require_true h.idle, require_true h.rsorted, require_true ⟨h.wclosed, h.wpos, h.sinkcnt⟩,
    require_true (gridSize_eq_iff.2 h.grid), putHeader_eq]
  congr 2
  rcases putAll_outcome (headerBits rows cols (s.ndist.setWidth 32)) s with ⟨t, ht, honly, -⟩ | ⟨t, ht, -⟩
  · rw [ht, andThen_ok, andThen_ok, hputs t honly]
  · rw [ht, andThen_raised, andThen_raised]

/-- ENC_HEADER completes without a byte offered to the sink: 128 bits do not fill an empty buffer (R141). -/
theorem encHeader_completes {rows cols : Word} {s : State} (h : EncodingMayStart rows cols s) (hn : s.ndist.toNat ≤ 2 ^ 18) :
    ∃ t, Completes (.encHeader rows cols) s t
        ⟨.noError, s.ndist.setWidth 32, BitVec.ofNat 32 (rankCodeWidth s.ndist.toNat), 0⟩ ∧
      AppendsBits s t (headerBits rows cols (s.ndist.setWidth 32)) ∧
      t.rows = rows ∧ t.cols = cols ∧ t.ncolors = s.ndist.setWidth 32 ∧ t.rcw.toNat = rankCodeWidth s.ndist.toNat ∧
      t.pixrem.toNat = rows.toNat * cols.toNat ∧ t.cphase = .encPal ∧
      SameReader s t ∧ SameCounts s t ∧ SameRanking s t := by
  have hw0 : s.wpos.toNat = 0 := by rw [h.wpos]; rfl
  have hnone : bytesOffered s (headerBits rows cols (s.ndist.setWidth 32)).length = 0 := by
    rw [headerBits_length, bytesOffered]
    omega
  obtain ⟨t, ht, happ, honly⟩ := putAll_spec (headerBits rows cols (s.ndist.setWidth 32)) (s := s) (by omega)
    (by rw [hnone]; exact fun i hi => absurd hi (Nat.not_lt_zero i))
  have hencoder : OnlyEncoder s { loadHeader rows cols (s.ndist.setWidth 32) t with cphase := .encPal } := by
    rw [honly]; rfl
  have hrcw : (loadHeader rows cols (s.ndist.setWidth 32) t).rcw.toNat = rankCodeWidth s.ndist.toNat := by
    rw [loadHeader_rcw_toNat (by rwa [ndist_setWidth_toNat]), ndist_setWidth_toNat]
  refine ⟨_, hencoder.outside.completes h.err ?_, happ, rfl, rfl, rfl, hrcw, gridSize_toNat rows cols, rfl, hencoder.same⟩
  rw [exec_encHeader_checked h, if_neg (show ¬s.ndist.toNat > Config.maxColors from Nat.not_lt.2 hn), ht, andThen_ok, finish_ok]
  rfl

/-- Settles O52: the checks in their order; behind them the header is PutBits on an empty buffer. -/
theorem encHeaderOpensTheStream : Obligations.EncHeaderOpensTheStream := by
  refine ⟨decodesAt_of_row (row := ⟨0x40, false, fun w => .encHeader (fieldA w) (fieldB w)⟩) (by simp [opcodeMap]) rfl,
    fun rows cols s hs => ⟨fun h => ?usage, fun hp hr hc hw hk hgrid => ?checked⟩⟩
  case usage =>
    refine raises_of_body rfl hs <| require_usageError fun hp => require_usageError fun hr =>
      require_usageError fun ⟨hc, hw, hk⟩ => require_false fun hgrid => ?_
    have hgrid := gridSize_eq_iff.1 hgrid
    simp [hp, hr, hc, hw, hk, hgrid] at h
  case checked =>
    have hstart : EncodingMayStart rows cols s := ⟨hs, hp, hr, hc, hw, hk, hgrid⟩
    refine ⟨fun hn => ?capacity, fun hn => encHeader_completes hstart hn⟩
    case capacity =>
      exact raises_of_exec hs (by rw [exec_encHeader_checked hstart, if_pos (show s.ndist.toNat > Config.maxColors from hn),
        finish_raised])

/-! ### ENC_PALETTE -/

@[simp] theorem fieldBits_length (v w : Nat) : (fieldBits v w).length = w := by simp [fieldBits]

/-- The palette's entries as the bits of the stream (R142). -/
def paletteBits (palette : Nat → Key) (n : Nat) : List Bool := (List.range n).flatMap fun i => fieldBits (palette i).toNat 18

theorem paletteBits_length (palette : Nat → Key) (n : Nat) : (paletteBits palette n).length = 18 * n := by
  simp [paletteBits, Nat.mul_comm]

/-- ENC_PALETTE behind its checks (R142). -/
theorem exec_encPalette_open {s : State} (hs : s.err = .noError) (hp : s.cphase = .encPal) (hc : s.wclosed = false) :
    exec .encPalette s = finish ((putAll (paletteBits (palEntry s) s.ncolors.toNat) s).andThen fun _ t =>
      .ok (success 0 0 0) { t with cphase := .encPix }) := by
  rw [show exec .encPalette s = execEncPalette s from rfl, execEncPalette, command_noError _ hs, require_true hp,
    require_true hc, putPalette_eq]
  simp only [Nat.zero_add, paletteBits]

/-- ENC_PALETTE behind its checks, with a sink that accepts what it is offered (R142). -/
theorem encPalette_completes {s : State} (hs : s.err = .noError) (hp : s.cphase = .encPal) (hc : s.wclosed = false)
    (hw : s.wpos.toNat < 32768) (ha : SinkAccepts s (bytesOffered s (18 * s.ncolors.toNat))) :
    ∃ t, Completes .encPalette s t ⟨.noError, 0, 0, 0⟩ ∧ AppendsBits s t (paletteBits (palEntry s) s.ncolors.toNat) ∧
      t.cphase = .encPix ∧ t.rows = s.rows ∧ t.cols = s.cols ∧ t.ncolors = s.ncolors ∧ t.rcw = s.rcw ∧
      t.pixrem = s.pixrem ∧ SameReader s t ∧ SameCounts s t ∧ SameRanking s t := by
  obtain ⟨t, ht, happ, honly⟩ := putAll_spec (paletteBits (palEntry s) s.ncolors.toNat) hw (by rwa [paletteBits_length])
  have hencoder : OnlyEncoder s { t with cphase := .encPix } := by rw [honly]; rfl
  have hexec : exec .encPalette s = .next (respond (success 0 0 0) { t with cphase := .encPix }) := by
    rw [exec_encPalette_open hs hp hc, ht, andThen_ok, finish_ok]
  refine ⟨_, hencoder.outside.completes hs hexec, happ, rfl, ?_, ?_, ?_, ?_, ?_, hencoder.same⟩ <;> (rw [honly]; rfl)

/-- Settles O53: the NCOLORS entries are one run of PutBits behind the two checks. -/
theorem encPaletteWritesTheKeys : Obligations.EncPaletteWritesTheKeys := by
  refine ⟨decodesAt_of_row (row := ⟨0x41, false, fun _ => .encPalette⟩) (by simp [opcodeMap]) rfl,
    fun s hs => ⟨fun h => ?usage, fun hp hc hw => ⟨fun ha => encPalette_completes hs hp hc hw ha, fun j hj hr => ?refused⟩⟩⟩
  case usage =>
    refine raises_of_body rfl hs <| require_usageError fun hp => require_open_closed ?_ _
    exact h.resolve_left (absurd hp)
  case refused =>
    exact raisesAfter_of_putAll_length (exec_encPalette_open hs hp hc) hs hw (by rwa [paletteBits_length]) hr

/-! ### ENC_PIXEL -/

theorem key_setWidth_toNat (k : Key) : (k.setWidth 32).toNat = k.toNat := by
  rw [BitVec.toNat_setWidth]
  exact Nat.mod_eq_of_lt (k.isLt.trans (by decide))

theorem pixrem_ne_zero {n : BitVec 64} {m : Nat} (h : n.toNat = m + 1) : n ≠ 0 := by
  rintro rfl
  simp at h

theorem pixrem_sub_one {n : BitVec 64} (h : n ≠ 0) : (n - 1).toNat + 1 = n.toNat := by
  have hpos : n.toNat ≠ 0 := fun h0 => h (BitVec.eq_of_toNat_eq (by simpa using h0))
  have hlt := n.isLt
  rw [BitVec.toNat_sub_of_le (by rw [BitVec.le_def]; simp; omega)]
  simp
  omega

/-- ENC_PIXEL's checks have passed: the phase, an open writer, a pixel left to code and a counted key (R143). -/
structure PixelMayBeCoded (k : Key) (s : State) : Prop where
  err : s.err = .noError
  phase : s.cphase = .encPix
  wclosed : s.wclosed = false
  left : s.pixrem ≠ 0
  counted : cntEntry s k ≠ 0

/-- ENC_PIXEL behind its checks (R143). -/
theorem exec_encPixel_checked {p : Pixel} {s : State} (h : PixelMayBeCoded (quant p) s) :
    exec (.encPixel p) s = finish ((putAll (fieldBits (rankEntry s (quant p)).toNat s.rcw.toNat) s).andThen fun _ t =>
      .ok (success ((rankEntry s (quant p)).setWidth 32) ((quant p).setWidth 32) 0) { t with pixrem := t.pixrem - 1 }) := by
  rw [show exec (.encPixel p) s = execEncPixel p s from rfl, execEncPixel, command_noError _ h.err, require_true h.phase,
    require_true h.wclosed, require_true h.left, require_true h.counted, putBits, lowBits_eq_fieldBits, key_setWidth_toNat]

/-- ENC_PIXEL behind its checks, with a sink that accepts what it is offered (R143). -/
theorem encPixel_completes {p : Pixel} {s : State} (h : PixelMayBeCoded (quant p) s) (hw : s.wpos.toNat < 32768)
    (ha : SinkAccepts s (bytesOffered s s.rcw.toNat)) :
    ∃ t, Completes (.encPixel p) s t ⟨.noError, (rankEntry s (quant p)).setWidth 32, (quant p).setWidth 32, 0⟩ ∧
      AppendsBits s t (fieldBits (rankEntry s (quant p)).toNat s.rcw.toNat) ∧ t.pixrem.toNat + 1 = s.pixrem.toNat ∧
      t.cphase = .encPix ∧ t.rows = s.rows ∧ t.cols = s.cols ∧ t.ncolors = s.ncolors ∧ t.rcw = s.rcw ∧
      SameReader s t ∧ SameCounts s t ∧ SameRanking s t := by
  obtain ⟨t, ht, happ, honly⟩ := putAll_spec (fieldBits (rankEntry s (quant p)).toNat s.rcw.toNat) hw (by rwa [fieldBits_length])
  have hencoder : OnlyEncoder s { t with pixrem := t.pixrem - 1 } := by rw [honly]; rfl
  have hexec : exec (.encPixel p) s = .next (respond (success ((rankEntry s (quant p)).setWidth 32) ((quant p).setWidth 32) 0)
      { t with pixrem := t.pixrem - 1 }) := by
    rw [exec_encPixel_checked h, ht, andThen_ok, finish_ok]
  have hleft : t.pixrem = s.pixrem := by rw [honly]
  have hphase : t.cphase = .encPix := by rw [honly]; exact h.phase
  have hrem : (t.pixrem - 1).toNat + 1 = s.pixrem.toNat := by rw [hleft]; exact pixrem_sub_one h.left
  refine ⟨_, hencoder.outside.completes h.err hexec, happ, hrem, hphase, ?_, ?_, ?_, ?_, hencoder.same⟩ <;>
    (rw [honly]; rfl)

/-- Settles O54: the key of R19 is Quant's, and its rank is one run of PutBits behind the four checks. -/
theorem encPixelWritesTheRankCode : Obligations.EncPixelWritesTheRankCode := by
  refine ⟨decodesAt_of_row (row := ⟨0x42, false, fun w => .encPixel (unpackPixel (fieldA w))⟩) (by simp [opcodeMap]) rfl,
    fun p s k hs hk => ?_⟩
  obtain rfl := isKeyOf_iff.1 hk
  refine ⟨fun h => ?usage, fun hp hc hleft hcount hw => ?checked⟩
  case usage =>
    refine raises_of_body rfl hs <| require_usageError fun hp => require_usageError fun hc => require_usageError fun hleft =>
      require_false fun hcount => ?_
    simp only [hp, hc, hleft, hcount, ne_eq, not_true, Bool.false_eq_true, or_self] at h
  case checked =>
    have hcoded : PixelMayBeCoded (quant p) s := ⟨hs, hp, hc, hleft, hcount⟩
    refine ⟨fun ha => encPixel_completes hcoded hw ha, fun j hj hr => ?refused⟩
    case refused =>
      exact raisesAfter_of_putAll_length (exec_encPixel_checked hcoded) hs hw (by rwa [fieldBits_length]) hr

/-! ### ENC_FINISH -/

/-- ENC_FINISH behind its checks (R144). -/
theorem exec_encFinish_open {s : State} (hs : s.err = .noError) (hp : s.cphase = .encPix) (hc : s.wclosed = false)
    (hleft : s.pixrem = 0) :
    exec .encFinish s = finish ((flushBuf s).andThen fun _ t =>
      .ok (success (t.sinkcnt.extractLsb' 0 32) (t.sinkcnt.extractLsb' 32 32) 0)
        { t with wclosed := true, cphase := .encDone }) := by
  rw [show exec .encFinish s = execEncFinish s from rfl, execEncFinish, command_noError _ hs, require_true hp, require_true hc,
    require_true hleft]

/-- ENC_FINISH behind its checks, with a sink that accepts the pending bytes (R144). -/
theorem encFinish_completes {s : State} (hs : s.err = .noError) (hp : s.cphase = .encPix) (hc : s.wclosed = false)
    (hleft : s.pixrem = 0) (ha : SinkAccepts s ((s.wpos.toNat + 7) / 8)) :
    ∃ t, Completes .encFinish s t
        ⟨.noError, BitVec.ofNat 32 t.sinkcnt.toNat, BitVec.ofNat 32 (t.sinkcnt.toNat / 2 ^ 32), 0⟩ ∧
      FlushesBits s t ∧ t.wclosed = true ∧ t.cphase = .encDone ∧ t.rows = s.rows ∧ t.cols = s.cols ∧
      t.ncolors = s.ncolors ∧ t.rcw = s.rcw ∧ t.pixrem = s.pixrem ∧
      SameReader s t ∧ SameCounts s t ∧ SameRanking s t := by
  obtain ⟨t, ht, hflush, honly, -⟩ := flushBuf_spec ha
  have hencoder : OnlyEncoder s { t with wclosed := true, cphase := .encDone } := by rw [honly]; rfl
  have hexec : exec .encFinish s = .next (respond
      (success (BitVec.ofNat 32 t.sinkcnt.toNat) (BitVec.ofNat 32 (t.sinkcnt.toNat / 2 ^ 32)) 0)
      { t with wclosed := true, cphase := .encDone }) := by
    rw [exec_encFinish_open hs hp hc hleft, ht, andThen_ok, finish_ok, extractLsb'_high]
    rfl
  refine ⟨_, hencoder.outside.completes hs hexec, hflush, rfl, rfl, ?_, ?_, ?_, ?_, ?_, hencoder.same⟩ <;>
    (rw [honly]; rfl)

/-- Settles O55: FlushBuf behind the three checks, with the writer closed and the phase moved where it ended well. -/
theorem encFinishClosesTheStream : Obligations.EncFinishClosesTheStream := by
  refine ⟨decodesAt_of_row (row := ⟨0x43, false, fun _ => .encFinish⟩) (by simp [opcodeMap]) rfl,
    fun s hs => ⟨fun h => ?usage, fun hp hc hleft => ⟨fun ha => encFinish_completes hs hp hc hleft ha,
    fun j hj hr => ?refused⟩⟩⟩
  case usage =>
    refine raises_of_body rfl hs <| require_usageError fun hp => require_usageError fun hc => require_false fun hleft => ?_
    simp [hp, hc, hleft] at h
  case refused =>
    obtain ⟨bytes, hraises, hlen, -⟩ := raisesAfter_of_flushBuf (exec_encFinish_open hs hp hc hleft) hs hj hr
    exact ⟨bytes, hraises, hlen⟩

end Sys2Proof.Machine
end

section
/-! The decoder's three commands (R145 to R147): the checks, then GetBits and the codec's registers. -/

namespace Sys2Proof.Machine

/-! ### How a command of the decoder ends -/

/-- Only the cursor, PAL, PAL_LEN, RSORTED and the codec's registers differ. -/
def OnlyDecoder (s t : State) : Prop :=
  t = { s with rpos := t.rpos, rsorted := t.rsorted, pal := t.pal, palLen := t.palLen, cphase := t.cphase, rows := t.rows,
               cols := t.cols, ncolors := t.ncolors, rcw := t.rcw, pixrem := t.pixrem }

/-- What a command that writes only the decoder's fields leaves as it was. -/
theorem OnlyDecoder.same {s t : State} (h : OnlyDecoder s t) :
    SameWriter s t ∧ SameCounts s t ∧ (∀ j, srcByte? t j = srcByte? s j) ∧ ∀ k, rankEntry t k = rankEntry s k := by
  rw [h]
  exact ⟨⟨fun _ => rfl, rfl, rfl, rfl, rfl, rfl, rfl⟩, ⟨fun _ => rfl, fun _ => rfl, rfl, rfl⟩, fun _ => rfl, fun _ => rfl⟩

theorem OnlyDecoder.outside {s t : State} (h : OnlyDecoder s t) : SameOutsideRows s t := by
  rw [h]
  exact ⟨rfl, ⟨rfl, rfl⟩, rfl, rfl⟩

theorem OnlyPalette.raises {i : Instr} {s t : State} {e : ErrCode} (h : OnlyPalette s t) (hs : s.err = .noError)
    (hexec : exec i s = .next (raiseError e t)) : Raises i s e := by
  refine raises_of_exec hs ?_
  rw [hexec, raiseError_noError (h.sameInstance.2.trans hs), raiseError_noError hs, h]
  rfl

/-! ### DEC_HEADER -/

/-- DEC_HEADER's checks have passed: an idle codec and an open reader at the source's start (R145). -/
structure DecodingMayStart (s : State) : Prop where
  err : s.err = .noError
  idle : s.cphase = .idle
  ropen : s.ropen = true
  rpos : s.rpos = 0

/-- DEC_HEADER behind its UsageErrors (R145). -/
theorem exec_decHeader_checked {s : State} (h : DecodingMayStart s) :
    exec .decHeader s = finish ((getHeader s).andThen fun v t =>
      if v.2.2.toNat > Config.maxColors then .raised .formatError t
      else .ok (success v.1 v.2.1 v.2.2) { loadHeader v.1 v.2.1 v.2.2 t with rsorted := false, cphase := .decPal }) := by
  rw [show exec .decHeader s = execDecHeader s from rfl, execDecHeader, command_noError _ h.err, require_true h.idle,
    require_true h.ropen, require_true h.rpos]

theorem decHeader_raises {e : ErrCode} {s : State} (h : DecodingMayStart s)
    (hraised : ∃ t, getHeader s = .raised e t ∧ OnlyRpos s t) : Raises .decHeader s e := by
  obtain ⟨t, ht, honly⟩ := hraised
  exact honly.raises h.err (by rw [exec_decHeader_checked h, ht, andThen_raised, finish_raised])

/-- A header of the right magic stands at the start of the source (R145). -/
structure HeaderAtStart (r c n : Word) (s : State) : Prop where
  readable : Readable s 128
  magic : FieldAt s 0 32 0xFFBEADFF
  rows : FieldAt s 32 32 r
  cols : FieldAt s 64 32 c
  numColors : FieldAt s 96 32 n

theorem HeaderAtStart.getHeader {r c n : Word} {s : State} (h : HeaderAtStart r c n s) (hpos : s.rpos = 0) :
    ∃ t, getHeader s = .ok (r, c, n) t ∧ OnlyRpos s t ∧ t.rpos.toNat = 128 := by
  have h0 : s.rpos.toNat = 0 := by rw [hpos]; rfl
  simpa only [h0, Nat.zero_add] using getHeader_spec h.readable (by rw [h0]; exact h.magic) (by rw [h0]; exact h.rows)
    (by rw [h0]; exact h.cols) (by rw [h0]; exact h.numColors)

/-- DEC_HEADER behind its checks, with a legal number of colours (R145). -/
theorem decHeader_completes {r c n : Word} {s : State} (h : DecodingMayStart s) (hheader : HeaderAtStart r c n s)
    (hn : n.toNat ≤ 2 ^ 18) :
    ∃ t, Completes .decHeader s t ⟨.noError, r, c, n⟩ ∧
      t.rows = r ∧ t.cols = c ∧ t.ncolors = n ∧ t.rcw.toNat = rankCodeWidth n.toNat ∧
      t.pixrem.toNat = r.toNat * c.toNat ∧ t.cphase = .decPal ∧ t.rpos.toNat = 128 ∧
      t.srcLen = s.srcLen ∧ t.ropen = true ∧ (∀ j, srcByte? t j = srcByte? s j) ∧
      t.rsorted = false ∧ (∀ i, palEntry t i = palEntry s i) ∧ (∀ k, rankEntry t k = rankEntry s k) ∧
      t.palLen = s.palLen ∧ SameWriter s t ∧ SameCounts s t := by
  obtain ⟨t, ht, honly, hpos⟩ := hheader.getHeader h.rpos
  have hdecoder : OnlyDecoder s { loadHeader r c n t with rsorted := false, cphase := .decPal } := by rw [honly]; rfl
  have hexec : exec .decHeader s =
      .next (respond (success r c n) { loadHeader r c n t with rsorted := false, cphase := .decPal }) := by
    rw [exec_decHeader_checked h, ht, andThen_ok,
      if_neg (show ¬(r, c, n).2.2.toNat > Config.maxColors from Nat.not_lt.2 hn), finish_ok]
  have hrcw : (loadHeader r c n t).rcw.toNat = rankCodeWidth n.toNat := loadHeader_rcw_toNat hn t
  have hopen : t.ropen = true := by rw [honly]; exact h.ropen
  have hpal (i : Nat) : palEntry t i = palEntry s i := by rw [honly]; rfl
  have hpalLen : t.palLen = s.palLen := by rw [honly]
  obtain ⟨hwriter, hcounts, hsrc, hrank⟩ := hdecoder.same
  exact ⟨_, hdecoder.outside.completes h.err hexec, rfl, rfl, rfl, hrcw, gridSize_toNat r c, rfl, hpos,
    honly.srcLen, hopen, hsrc, rfl, hpal, hrank, hpalLen, hwriter, hcounts⟩

/-- Settles O56: by how the header's four GetBits end, and then by the number of colours. -/
theorem decHeaderLoadsTheHeader : Obligations.DecHeaderLoadsTheHeader := by
  refine ⟨decodesAt_of_row (row := ⟨0x48, false, fun _ => .decHeader⟩) (by simp [opcodeMap]) rfl,
    fun s hs => ⟨fun h => ?usage, fun hp ho hpos => ?checked⟩⟩
  case usage =>
    refine raises_of_body rfl hs <| require_usageError fun hp => require_usageError fun ho => require_false fun hpos => ?_
    simp [hp, ho, hpos] at h
  case checked =>
    have hstart : DecodingMayStart s := ⟨hs, hp, ho, hpos⟩
    have h0 : s.rpos.toNat = 0 := by rw [hpos]; rfl
    refine ⟨fun m hr hm hne => ?wrongMagic, fun hshort hw => ?short, fun r c n h hm hr hc hn => ⟨fun hlt => ?colors,
      fun hle => decHeader_completes hstart ⟨h, hm, hr, hc, hn⟩ hle⟩⟩
    case wrongMagic => exact decHeader_raises hstart (getHeader_wrongMagic hr (by rwa [h0]) hne)
    case short => exact decHeader_raises hstart (getHeader_short (by omega) (by rwa [h0]))
    case colors =>
      obtain ⟨t, ht, honly, -⟩ := HeaderAtStart.getHeader ⟨h, hm, hr, hc, hn⟩ hpos
      refine honly.raises hs ?_
      rw [exec_decHeader_checked hstart, ht, andThen_ok,
        if_pos (show (r, c, n).2.2.toNat > Config.maxColors from hlt), finish_raised]

/-! ### DEC_PALETTE -/

/-- DEC_PALETTE behind its check (R146). -/
theorem exec_decPalette_checked {s : State} (hs : s.err = .noError) (hp : s.cphase = .decPal) :
    exec .decPalette s = finish ((getPalette s.ncolors.toNat 0 s).andThen fun _ t =>
      .ok (success t.ncolors 0 0) { t with palLen := t.ncolors.setWidth 19, cphase := .decPix }) := by
  rw [show exec .decPalette s = execDecPalette s from rfl, execDecPalette, command_noError _ hs, require_true hp]

/-- A palette of at least one entry that was read lies inside the source (R117). -/
theorem getPalette_fits {n i : Nat} {s t : State} (hn : n ≠ 0) (h : getPalette n i s = .ok () t) :
    s.rpos.toNat + 18 * n ≤ 8 * s.srcLen.toNat := by
  have hfirst : s.rpos.toNat + 18 ≤ 8 * s.srcLen.toNat := by
    obtain ⟨m, rfl⟩ := Nat.exists_eq_succ_of_ne_zero hn
    obtain ⟨v, u, hu, -⟩ := andThen_eq_ok h
    exact (getBits_fits hu).2.2
  rcases getPalette_outcome n i s with ⟨t', h', -, hpos, hle⟩ | ⟨t', h', -⟩ | ⟨f, h', -⟩
  · have := hle (by omega)
    omega
  · cases h.symm.trans h'
  · cases h.symm.trans h'

/-- A palette that the source cuts short, where all of the source's bits were written. -/
theorem getPalette_short {n i : Nat} {s : State} (hn : n ≠ 0) (hshort : 8 * s.srcLen.toNat < s.rpos.toNat + 18 * n)
    (hw : SrcWritten s s.rpos.toNat (8 * s.srcLen.toNat)) :
    ∃ t, getPalette n i s = .raised .formatError t ∧ OnlyPalette s t := by
  rcases getPalette_outcome n i s with ⟨t, h, -⟩ | hraised | ⟨f, -, k, -, hlo, hhi, hk⟩
  · have := getPalette_fits hn h
    omega
  · exact hraised
  · exact absurd hk (hw k hlo hhi)

/-- DEC_PALETTE behind its check, where all entries can be read (R146). -/
theorem decPalette_completes {s : State} (hs : s.err = .noError) (hp : s.cphase = .decPal) (hn : s.ncolors.toNat ≤ 2 ^ 18)
    (hr : Readable s (18 * s.ncolors.toNat)) :
    ∃ t, Completes .decPalette s t ⟨.noError, s.ncolors, 0, 0⟩ ∧
      (∀ i, i < s.ncolors.toNat → FieldAt s (s.rpos.toNat + 18 * i) 18 ((palEntry t i).setWidth 32)) ∧
      (∀ i, s.ncolors.toNat ≤ i → palEntry t i = palEntry s i) ∧
      t.palLen.toNat = s.ncolors.toNat ∧ t.cphase = .decPix ∧ t.rpos.toNat = s.rpos.toNat + 18 * s.ncolors.toNat ∧
      t.srcLen = s.srcLen ∧ t.ropen = s.ropen ∧ (∀ j, srcByte? t j = srcByte? s j) ∧
      t.rows = s.rows ∧ t.cols = s.cols ∧ t.ncolors = s.ncolors ∧ t.rcw = s.rcw ∧ t.pixrem = s.pixrem ∧
      t.rsorted = s.rsorted ∧ (∀ k, rankEntry t k = rankEntry s k) ∧ SameWriter s t ∧ SameCounts s t := by
  obtain ⟨t, ht, honly, hpos, hentries, hothers⟩ := getPalette_spec (i := 0) hr
  have hncolors : t.ncolors = s.ncolors := by rw [honly]
  have hdraws : t.freeDraws = s.freeDraws := by rw [honly]
  have hdecoder : OnlyDecoder s { t with palLen := s.ncolors.setWidth 19, cphase := .decPix } := by rw [honly]; rfl
  have hexec : exec .decPalette s =
      .next (respond (success s.ncolors 0 0) { t with palLen := s.ncolors.setWidth 19, cphase := .decPix }) := by
    rw [exec_decPalette_checked hs hp, ht, andThen_ok, hncolors, finish_ok]
  have hread (i : Nat) (hi : i < s.ncolors.toNat) :
      FieldAt s (s.rpos.toNat + 18 * i) 18 ((palEntry t i).setWidth 32) := by
    obtain ⟨hfield, -⟩ := hentries i hi
    rwa [Nat.zero_add] at hfield
  have hkept (i : Nat) (hi : s.ncolors.toNat ≤ i) : palEntry t i = palEntry s i :=
    palEntry_congr (hothers i (.inr (by omega))) hdraws
  have hpalLen : (s.ncolors.setWidth 19).toNat = s.ncolors.toNat := by
    rw [BitVec.toNat_setWidth]
    exact Nat.mod_eq_of_lt (by omega)
  obtain ⟨hwriter, hcounts, hsrc, hrank⟩ := hdecoder.same
  refine ⟨_, hdecoder.outside.completes hs hexec, hread, hkept, hpalLen, rfl, hpos, honly.srcLen, ?_, hsrc, ?_, ?_, hncolors, ?_,
    ?_, ?_, hrank, hwriter, hcounts⟩ <;> (rw [honly]; rfl)

/-- Settles O57: a run of GetBits behind one check; where it ends early, the error entry leaves nothing of PAL. -/
theorem decPaletteLoadsTheEntries : Obligations.DecPaletteLoadsTheEntries := by
  refine ⟨decodesAt_of_row (row := ⟨0x49, false, fun _ => .decPalette⟩) (by simp [opcodeMap]) rfl,
    fun s hs => ⟨fun hp => ?usage, fun hp hn => ⟨fun hne hshort hw => ?short, fun hr => decPalette_completes hs hp hn hr⟩⟩⟩
  case usage => exact raises_of_body rfl hs (require_false hp)
  case short =>
    have hne : s.ncolors.toNat ≠ 0 := fun h0 => hne (BitVec.eq_of_toNat_eq (by simpa using h0))
    obtain ⟨t, ht, honly⟩ := getPalette_short (i := 0) hne hshort hw
    exact honly.raises hs (by rw [exec_decPalette_checked hs hp, ht, andThen_raised, finish_raised])

/-! ### DEC_PIXEL -/

/-- DEC_PIXEL's UsageErrors have passed: the phase, and a pixel left to decode (R147). -/
structure PixelMayBeDecoded (s : State) : Prop where
  err : s.err = .noError
  phase : s.cphase = .decPix
  left : s.pixrem ≠ 0

/-- DEC_PIXEL behind its UsageErrors (R147). -/
theorem exec_decPixel_checked {s : State} (h : PixelMayBeDecoded s) :
    exec .decPixel s = finish ((getBits s.rcw.toNat s).andThen fun rank t =>
      if rank.toNat < t.ncolors.toNat then
        .ok (success (packPixel (dequant (palEntry t rank.toNat))) rank ((palEntry t rank.toNat).setWidth 32))
          { t with pixrem := t.pixrem - 1 }
      else .raised .formatError t) := by
  rw [show exec .decPixel s = execDecPixel s from rfl, execDecPixel, command_noError _ h.err, require_true h.phase,
    require_true h.left]

/-- DEC_PIXEL behind its checks, with a rank below NCOLORS at the cursor (R147). -/
theorem decPixel_completes {rank : Word} {s : State} (h : PixelMayBeDecoded s) (hw : s.rcw.toNat ≤ 32)
    (hr : Readable s s.rcw.toNat) (hfield : FieldAt s s.rpos.toNat s.rcw.toNat rank) (hlt : rank.toNat < s.ncolors.toNat) :
    ∃ t, Completes .decPixel s t ⟨.noError, packPixel (dequant (palEntry s rank.toNat)), rank,
        (palEntry s rank.toNat).setWidth 32⟩ ∧
      t.pixrem.toNat + 1 = s.pixrem.toNat ∧ t.rpos.toNat = s.rpos.toNat + s.rcw.toNat ∧
      t.srcLen = s.srcLen ∧ t.ropen = s.ropen ∧ (∀ j, srcByte? t j = srcByte? s j) ∧
      t.cphase = .decPix ∧ t.rows = s.rows ∧ t.cols = s.cols ∧ t.ncolors = s.ncolors ∧ t.rcw = s.rcw ∧
      SameWriter s t ∧ SameCounts s t ∧ SameRanking s t := by
  obtain ⟨t, ht, honly, hpos⟩ := getBits_field hw hr hfield
  have hncolors : t.ncolors = s.ncolors := by rw [honly]
  have hleft : t.pixrem = s.pixrem := by rw [honly]
  have hphase : t.cphase = .decPix := by rw [honly]; exact h.phase
  obtain ⟨hwriter, hcounts, hranking, -, -⟩ := honly.same
  obtain ⟨hpal, -, -, -⟩ := id hranking
  have hdecoder : OnlyDecoder s { t with pixrem := t.pixrem - 1 } := by rw [honly]; rfl
  have hexec : exec .decPixel s = .next (respond (success (packPixel (dequant (palEntry s rank.toNat))) rank
      ((palEntry s rank.toNat).setWidth 32)) { t with pixrem := t.pixrem - 1 }) := by
    rw [exec_decPixel_checked h, ht, andThen_ok, hncolors, if_pos hlt, hpal, finish_ok]
  have hrem : (t.pixrem - 1).toNat + 1 = s.pixrem.toNat := by rw [hleft]; exact pixrem_sub_one h.left
  refine ⟨_, hdecoder.outside.completes h.err hexec, hrem, hpos, honly.srcLen, ?_, honly.srcByte?, hphase, ?_, ?_, hncolors, ?_,
    hwriter, hcounts, hranking⟩ <;> (rw [honly]; rfl)

/-- The packed representative pixel of a key by the formula of R124. -/
theorem packPixel_dequant (k : Key) :
    packPixel (dequant k) = BitVec.ofNat 32 (2 + 4 * (k.toNat / 4096) + (2 + 4 * (k.toNat / 64 % 64)) * 2 ^ 8 +
      (2 + 4 * (k.toNat % 64)) * 2 ^ 16) := by
  rw [← dequant_r_toNat, ← dequant_g_toNat, ← dequant_b_toNat, ← packPixel_toNat, BitVec.ofNat_toNat, BitVec.setWidth_eq]

/-- Settles O58: GetBits, then the range check, then the lookup. -/
theorem decPixelLooksUpTheRankCode : Obligations.DecPixelLooksUpTheRankCode := by
  refine ⟨decodesAt_of_row (row := ⟨0x4A, false, fun _ => .decPixel⟩) (by simp [opcodeMap]) rfl,
    fun s hs => ⟨fun h => ?usage, fun hp hleft hw => ?checked⟩⟩
  case usage =>
    refine raises_of_body rfl hs <| require_usageError fun hp => require_false fun hleft => ?_
    exact h.elim (absurd hp) hleft
  case checked =>
    have hdecoded : PixelMayBeDecoded s := ⟨hs, hp, hleft⟩
    refine ⟨fun hshort => ?short, fun rank hr hfield => ⟨fun hge => ?range, fun hlt k hk => ?lookup⟩⟩
    case short =>
      exact raises_of_exec hs (by rw [exec_decPixel_checked hdecoded, getBits_short hshort, andThen_raised, finish_raised])
    case range =>
      obtain ⟨t, ht, honly, -⟩ := getBits_field hw hr hfield
      have hncolors : t.ncolors = s.ncolors := by rw [honly]
      exact honly.raises hs (by
        rw [exec_decPixel_checked hdecoded, ht, andThen_ok, hncolors, if_neg (Nat.not_lt.2 hge), finish_raised])
    case lookup =>
      subst hk
      rw [← packPixel_dequant, BitVec.ofNat_toNat]
      exact decPixel_completes hdecoded hw hr hfield hlt

end Sys2Proof.Machine
end

section
/-! ENCODE_IMAGE as a run of commands (R88, R150): the pixels' keys are counted and ranked, and what the encoder's commands append
and flush is one run of bits from an empty writer. -/

namespace Sys2Proof.Machine

/-! ### The bits of a stream -/

/-- The rank codes of the pixels as the bits of the stream (R143). -/
def codeBits (codes : List Key) (w : Nat) : List Bool := codes.flatMap fun r => fieldBits r.toNat w

theorem codeBits_length (codes : List Key) (w : Nat) : (codeBits codes w).length = w * codes.length := by
  simp [codeBits, Nat.mul_comm]

/-- The bits of the stream for a palette of n keys and the pixels' rank codes, without the padding (R150). -/
def streamBits (rows cols : Word) (palette : Nat → Key) (n : Nat) (codes : List Key) : List Bool :=
  headerBits rows cols (BitVec.ofNat 32 n) ++ paletteBits palette n ++ codeBits codes (rankCodeWidth n)

theorem streamBits_length (rows cols : Word) (palette : Nat → Key) (n : Nat) (codes : List Key) :
    (streamBits rows cols palette n codes).length = 128 + 18 * n + rankCodeWidth n * codes.length := by
  rw [streamBits, List.length_append, List.length_append, headerBits_length, paletteBits_length, codeBits_length]

/-- The bytes of the stream: at most 18 bits of the palette and 18 of the codes for each pixel. -/
theorem streamBits_bytes_le {n pixels : Nat} (hn : n ≤ 2 ^ 18) (hle : n ≤ pixels) :
    (128 + 18 * n + rankCodeWidth n * pixels + 7) / 8 ≤ 5 * pixels + 17 := by
  have hcodes : rankCodeWidth n * pixels ≤ 18 * pixels := Nat.mul_le_mul_right _ (rankCodeWidth_le hn)
  omega

/-! ### What is kept from command to command -/

theorem SameWriter.trans {s t u : State} (h : SameWriter s t) (k : SameWriter t u) : SameWriter s u := by
  obtain ⟨h1, h2, h3, h4, h5, h6, h7⟩ := h
  obtain ⟨k1, k2, k3, k4, k5, k6, k7⟩ := k
  exact ⟨fun j => (k1 j).trans (h1 j), k2.trans h2, k3.trans h3, k4.trans h4, k5.trans h5, k6.trans h6, k7.trans h7⟩

theorem SameCounts.trans {s t u : State} (h : SameCounts s t) (k : SameCounts t u) : SameCounts s u := by
  obtain ⟨h1, h2, h3, h4⟩ := h
  obtain ⟨k1, k2, k3, k4⟩ := k
  exact ⟨fun j => (k1 j).trans (h1 j), fun i => (k2 i).trans (h2 i), k3.trans h3, k4.trans h4⟩

theorem SameRanking.trans {s t u : State} (h : SameRanking s t) (k : SameRanking t u) : SameRanking s u := by
  obtain ⟨h1, h2, h3, h4⟩ := h
  obtain ⟨k1, k2, k3, k4⟩ := k
  exact ⟨fun i => (k1 i).trans (h1 i), fun j => (k2 j).trans (h2 j), k3.trans h3, k4.trans h4⟩

theorem SameWriter.sinkAccepts {s t : State} {n : Nat} (h : SameWriter s t) (ha : SinkAccepts s n) : SinkAccepts t n := by
  obtain ⟨-, -, -, -, -, hanswers, hoffers⟩ := h
  intro i hi
  rw [answerAt, hanswers, hoffers]
  exact ha i hi

/-- The writer is as reset leaves it (R57). -/
def FreshWriter (s : State) : Prop := s.wclosed = false ∧ s.wpos = 0 ∧ s.sinkcnt = 0

theorem SameWriter.fresh {s t : State} (h : SameWriter s t) (hs : FreshWriter s) : FreshWriter t := by
  obtain ⟨-, hwpos, hclosed, hcount, -⟩ := h
  obtain ⟨h1, h2, h3⟩ := hs
  exact ⟨hclosed.trans h1, hwpos.trans h2, hcount.trans h3⟩

/-! ### Counting the pixels' keys -/

/-- The counter stands at the counts of `keys`, while the codec is idle. -/
structure Counted (keys : List Key) (s : State) : Prop where
  err : s.err = .noError
  idle : s.cphase = .idle
  total : s.total.toNat = keys.length
  consistent : CountsConsistent s
  count : ∀ k, (cntEntry s k).toNat = keys.count k

theorem counted_reset (s : State) : Counted [] (respond (success 0 0 0) (resetState s)) := by
  have hcnt (k : Key) : cntEntry (respond (success 0 0 0) (resetState s)) k = 0 := cntEntry_of_nil rfl k
  exact ⟨rfl, rfl, rfl, countsConsistent_of_empty hcnt rfl rfl, fun k => by rw [hcnt]; rfl⟩

theorem Counted.rankCount {keys : List Key} {s : State} (h : Counted keys s) (hroom : keys.length < 2 ^ 64 - 1) (p : Pixel) :
    ∃ t, exec (.rankCount p) s = .next t ∧ Counted (keys ++ [quant p]) t ∧ SameWriter s t := by
  have htotal : s.total.toNat ≠ 2 ^ 64 - 1 := by rw [h.total]; omega
  have honly : OnlyRanker s (countKey (quant p) s) := rfl
  refine ⟨_, exec_rankCount p h.err h.idle htotal, ⟨h.err, h.idle, ?total, countKey_countsConsistent h.consistent htotal _,
    fun k => ?count⟩, honly.same.1⟩
  case total =>
    rw [List.length_append, List.length_singleton, ← h.total]
    exact total_countKey_toNat htotal (quant p)
  case count =>
    show (cntEntry (countKey (quant p) s) k).toNat = _
    rw [List.count_append, ← h.count]
    rcases eq_or_ne k (quant p) with rfl | hne
    · rw [cntEntry_countKey_self_toNat h.consistent htotal, List.count_singleton_self]
    · rw [cntEntry_countKey_ne s hne, List.count_singleton, if_neg (by simpa using hne.symm), Nat.add_zero]

theorem execAll_rankCounts {pixels : List Pixel} {keys : List Key} {s : State} (h : Counted keys s)
    (hroom : keys.length + pixels.length < 2 ^ 64) :
    ∃ t, execAll (pixels.map .rankCount) s = .next t ∧ Counted (keys ++ pixels.map quant) t ∧ SameWriter s t := by
  induction pixels generalizing keys s with
  | nil => exact ⟨s, rfl, by simpa using h, fun _ => rfl, rfl, rfl, rfl, rfl, rfl, rfl⟩
  | cons p rest ih =>
    rw [List.length_cons] at hroom
    obtain ⟨t, hexec, ht, hwriter⟩ := h.rankCount (by omega) p
    obtain ⟨u, hrun, hu, hwriter'⟩ := ih ht (by rw [List.length_append, List.length_singleton]; omega)
    refine ⟨u, by rw [List.map_cons, execAll_cons hexec, hrun], ?_, hwriter.trans hwriter'⟩
    rwa [List.append_assoc] at hu

/-- A key has a count where it occurs. -/
theorem Counted.cntEntry_ne_zero {keys : List Key} {s : State} (h : Counted keys s) {k : Key} :
    cntEntry s k ≠ 0 ↔ k ∈ keys := by
  rw [← List.count_pos_iff, ← h.count, ne_eq, ← BitVec.toNat_inj]
  exact Nat.pos_iff_ne_zero.symm

/-- NDIST is the number of distinct keys (R39). -/
theorem Counted.ndist {keys : List Key} {s : State} (h : Counted keys s) : s.ndist.toNat = keys.dedup.length := by
  obtain ⟨hnodup, hmem, -⟩ := h.consistent
  have hperm : (seenKeys s).Perm keys.dedup := (List.perm_ext_iff_of_nodup hnodup keys.nodup_dedup).2 fun k => by
    rw [hmem, h.cntEntry_ne_zero, List.mem_dedup]
  rw [← seenKeys_length, hperm.length_eq]

/-- The counter stands at the counts of `keys`, and their ranking is current. -/
structure Ranked (keys : List Key) (s : State) : Prop extends Counted keys s where
  rsorted : s.rsorted = true
  ranking : RankingConsistent s

theorem Counted.rankSort {keys : List Key} {s : State} (h : Counted keys s) :
    ∃ t, exec .rankSort s = .next t ∧ Ranked keys t ∧ SameWriter s t := by
  have hranking : RankingConsistent (afterRankSort s) := afterRankSort_rankingConsistent h.consistent.1
  have hcounted : Counted keys (afterRankSort s) := by
    rw [afterRankSort_eq]
    exact ⟨h.err, h.idle, h.total, h.consistent, h.count⟩
  exact ⟨_, exec_rankSort h.err h.idle, ⟨⟨hcounted.err, hcounted.idle, hcounted.total, hcounted.consistent, hcounted.count⟩, rfl,
    hranking⟩, (afterRankSort_onlyRanker s).same.1⟩

/-- The first pass of ENCODE_IMAGE: the pixels' keys are counted and ranked, and the writer is as RESET left it (R88). -/
theorem execAll_firstPass {pixels : List Pixel} (s : State) (hroom : pixels.length < 2 ^ 64) :
    ∃ t, (∀ rest, execAll (.reset :: (pixels.map .rankCount ++ .rankSort :: rest)) s = execAll rest t) ∧
      Ranked (pixels.map quant) t ∧ FreshWriter t ∧ t.sink = s.sink ∧ ∀ n, SinkAccepts s n → SinkAccepts t n := by
  obtain ⟨t, hcount, hcounted, hwriter⟩ := execAll_rankCounts (pixels := pixels) (counted_reset s) (by simpa using hroom)
  rw [List.nil_append] at hcounted
  obtain ⟨u, hsort, hranked, hwriter'⟩ := hcounted.rankSort
  have hwriter := hwriter.trans hwriter'
  obtain ⟨-, -, -, -, hsink, -⟩ := id hwriter
  refine ⟨u, fun rest => ?_, hranked, hwriter.fresh ⟨rfl, rfl, rfl⟩, hsink, fun n ha => hwriter.sinkAccepts ha⟩
  rw [execAll_cons (exec_reset s), execAll_append _ _ _ hcount, execAll_cons hsort]

/-! ### Coding the pixels -/

/-- The encoder stands in ENC_PIX with an open writer and a number of pixels to go. -/
structure Coding (left : Nat) (s : State) : Prop where
  err : s.err = .noError
  phase : s.cphase = .encPix
  wclosed : s.wclosed = false
  wpos : s.wpos.toNat < 32768
  left : s.pixrem.toNat = left

/-- ENC_PIXEL for each pixel appends their rank codes in order (R143). -/
theorem execAll_encPixels {pixels : List Pixel} {s : State} (h : Coding pixels.length s)
    (hcounted : ∀ p ∈ pixels, cntEntry s (quant p) ≠ 0)
    (hb : BitBudget s (codeBits (pixels.map fun p => rankEntry s (quant p)) s.rcw.toNat).length) :
    ∃ t, execAll (pixels.map .encPixel) s = .next t ∧ Coding 0 t ∧
      AppendsBits s t (codeBits (pixels.map fun p => rankEntry s (quant p)) s.rcw.toNat) ∧
      SameCounts s t ∧ SameRanking s t := by
  induction pixels generalizing s with
  | nil =>
    exact ⟨s, rfl, h, AppendsBits.nil h.wpos, ⟨fun _ => rfl, fun _ => rfl, rfl, rfl⟩, fun _ => rfl, fun _ => rfl, rfl, rfl⟩
  | cons p rest ih =>
    have hleft : s.pixrem.toNat = rest.length + 1 := h.left
    have hcoded : PixelMayBeCoded (quant p) s :=
      ⟨h.err, h.phase, h.wclosed, pixrem_ne_zero hleft, hcounted p List.mem_cons_self⟩
    have hcons : codeBits ((p :: rest).map fun p => rankEntry s (quant p)) s.rcw.toNat =
        fieldBits (rankEntry s (quant p)).toNat s.rcw.toNat ++
          codeBits (rest.map fun p => rankEntry s (quant p)) s.rcw.toNat := rfl
    rw [hcons, List.length_append] at hb
    have hfirst : SinkAccepts s (bytesOffered s s.rcw.toNat) := (hb.mono (by simp)).offered
    obtain ⟨t, ⟨hexec, -, herr, -, -⟩, happ, hrem, hphase, -, -, -, hrcw, -, hcounts, hranking⟩ :=
      encPixel_completes hcoded h.wpos hfirst
    obtain ⟨hcnt, -, -, -⟩ := id hcounts
    obtain ⟨-, hrank, -, -⟩ := id hranking
    have hcodes : codeBits (rest.map fun p => rankEntry t (quant p)) t.rcw.toNat =
        codeBits (rest.map fun p => rankEntry s (quant p)) s.rcw.toNat := by
      simp only [hrank, hrcw]
    obtain ⟨-, -, -, hclosed⟩ := id happ
    have ht : Coding rest.length t := ⟨herr, hphase, hclosed.trans h.wclosed, happ.wpos_lt, by omega⟩
    obtain ⟨u, hrun, hu, happ', hcounts', hranking'⟩ := ih ht
      (fun q hq => by rw [hcnt]; exact hcounted q (List.mem_cons_of_mem _ hq)) (by rw [hcodes]; exact hb.after happ)
    rw [hcodes] at happ'
    exact ⟨u, by rw [List.map_cons, execAll_cons hexec, hrun], hu, hcons ▸ happ.trans happ', hcounts.trans hcounts',
      hranking.trans hranking'⟩

/-! ### Header, palette and codes -/

/-- From a current ranking, ENC_HEADER and ENC_PALETTE append the header and the ranked keys (R141, R142). -/
theorem execAll_openStream {rows cols : Word} {keys : List Key} {s : State} (h : Ranked keys s) (hfresh : FreshWriter s)
    (hgrid : keys.length = rows.toNat * cols.toNat) (hb : BitBudget s (128 + 18 * s.ndist.toNat)) :
    ∃ t, execAll [.encHeader rows cols, .encPalette] s = .next t ∧ Coding keys.length t ∧
      t.rcw.toNat = rankCodeWidth s.ndist.toNat ∧
      AppendsBits s t (headerBits rows cols (BitVec.ofNat 32 s.ndist.toNat) ++ paletteBits (palEntry s) s.ndist.toNat) ∧
      SameCounts s t ∧ SameRanking s t := by
  obtain ⟨hclosed, hwpos, hcount⟩ := hfresh
  obtain ⟨t, ⟨hexec, -, herr, -, -⟩, happ, -, -, hncolors, hrcw, hrem, hphase, -, hcounts, hranking⟩ :=
    encHeader_completes (rows := rows) (cols := cols)
      ⟨h.err, h.idle, h.rsorted, hclosed, hwpos, hcount, by rw [h.total, hgrid]⟩ h.consistent.ndist_le
  have hn : t.ncolors.toNat = s.ndist.toNat := by rw [hncolors, ndist_setWidth_toNat]
  obtain ⟨-, -, -, hclosed'⟩ := id happ
  have hbt : BitBudget t (18 * t.ncolors.toNat) := BitBudget.after happ (by rwa [headerBits_length, hn])
  obtain ⟨u, ⟨hexec', -, herr', -, -⟩, happ', hphase', -, -, -, hrcw', hrem', -, hcounts', hranking'⟩ :=
    encPalette_completes herr hphase (hclosed'.trans hclosed) happ.wpos_lt hbt.offered
  obtain ⟨-, -, -, hclosed''⟩ := id happ'
  obtain ⟨hpal, -, -, -⟩ := id hranking
  rw [hn, funext hpal] at happ'
  have hheader : BitVec.ofNat 32 s.ndist.toNat = s.ndist.setWidth 32 := BitVec.ofNat_toNat 32 s.ndist
  refine ⟨u, by rw [execAll_cons hexec, execAll_cons hexec', execAll],
    ⟨herr', hphase', (hclosed''.trans hclosed').trans hclosed, happ'.wpos_lt, by rw [hrem', hrem, hgrid]⟩, by rw [hrcw', hrcw],
    hheader ▸ happ.trans happ', hcounts.trans hcounts', hranking.trans hranking'⟩

/-- From a current ranking of the pixels' keys, the encoder's commands up to the last pixel append the stream's bits (R150). -/
theorem execAll_encodeRanked {rows cols : Word} {pixels : List Pixel} {s : State} (h : Ranked (pixels.map quant) s)
    (hfresh : FreshWriter s) (hgrid : pixels.length = rows.toNat * cols.toNat)
    (hb : BitBudget s (128 + 18 * s.ndist.toNat + rankCodeWidth s.ndist.toNat * pixels.length)) :
    ∃ t, execAll (.encHeader rows cols :: .encPalette :: pixels.map .encPixel) s = .next t ∧ Coding 0 t ∧
      AppendsBits s t (streamBits rows cols (palEntry s) s.ndist.toNat (pixels.map fun p => rankEntry s (quant p))) ∧
      SameCounts s t ∧ SameRanking s t := by
  obtain ⟨t, hopen, hcoding, hrcw, happ, hcounts, hranking⟩ := execAll_openStream (rows := rows) (cols := cols) h hfresh
    (by rw [List.length_map, hgrid]) (hb.mono (Nat.le_add_right _ _))
  rw [List.length_map] at hcoding
  obtain ⟨hcnt, -, -, -⟩ := id hcounts
  obtain ⟨-, hrank, -, -⟩ := id hranking
  have hcodes : codeBits (pixels.map fun p => rankEntry t (quant p)) t.rcw.toNat =
      codeBits (pixels.map fun p => rankEntry s (quant p)) (rankCodeWidth s.ndist.toNat) := by
    simp only [hrank, hrcw]
  have hbt : BitBudget t (codeBits (pixels.map fun p => rankEntry t (quant p)) t.rcw.toNat).length := by
    rw [hcodes, codeBits_length, List.length_map]
    exact BitBudget.after happ (by rwa [List.length_append, headerBits_length, paletteBits_length])
  obtain ⟨u, hrun, hu, happ', hcounts', hranking'⟩ := execAll_encPixels hcoding
    (fun p hp => by rw [hcnt]; exact h.cntEntry_ne_zero.2 (List.mem_map_of_mem hp)) hbt
  rw [hcodes] at happ'
  exact ⟨u, (execAll_append _ _ _ hopen).trans hrun, hu, happ.trans happ', hcounts.trans hcounts', hranking.trans hranking'⟩

/-- What an empty writer took and then flushed is emitted, with zeros to the byte boundary (R107, R108). -/
theorem AppendsBits.flushed {s t u : State} {bits : List Bool} (h : AppendsBits s t bits) (hw : s.wpos = 0)
    (hf : FlushesBits t u) :
    ∃ bytes, u.sink = s.sink ++ bytes ∧ bytes.length = (bits.length + 7) / 8 ∧
      bytesBits bytes = bits ++ List.replicate (8 * bytes.length - bits.length) false := by
  obtain ⟨hwpos, ⟨full, hsink, hcount, hbits, -⟩, -⟩ := h
  obtain ⟨-, -, last, hsink', hcount', hbits', -⟩ := hf
  have hw0 : s.wpos.toNat = 0 := by rw [hw]; rfl
  have hempty : pendingBits s = [] := List.length_eq_zero_iff.1 (by rw [pendingBits_length, hw0])
  have hlen : (full ++ last).length = (bits.length + 7) / 8 := by rw [List.length_append]; omega
  refine ⟨full ++ last, by rw [hsink', hsink, List.append_assoc], hlen, ?_⟩
  rw [bytesBits_append, hbits', ← List.append_assoc, hbits, hempty, List.nil_append, hlen]
  congr 2
  omega

/-- Settles O59: the stream's bits are those appended from a current ranking; its keys, counts and ranks are the pixels'. -/
theorem encodedImageHasTheFileLayout : Obligations.EncodedImageHasTheFileLayout := by
  intro rows cols pixels s _ hgrid ha
  have hroom : rows.toNat * cols.toNat < 2 ^ 32 * 2 ^ 32 := Nat.mul_lt_mul'' rows.isLt cols.isLt
  obtain ⟨b, hfirst, hb, hfresh, hbsink, hba⟩ := execAll_firstPass (pixels := pixels) s (by rw [hgrid]; exact hroom)
  obtain ⟨-, hwpos, -⟩ := id hfresh
  have hndist : b.ndist.toNat = (pixels.map quant).dedup.length := hb.ndist
  have hnpixels : b.ndist.toNat ≤ pixels.length := by
    rw [hndist, ← List.length_map (f := quant)]
    exact (List.dedup_sublist _).length_le
  have hbudget : BitBudget b (128 + 18 * b.ndist.toNat + rankCodeWidth b.ndist.toNat * pixels.length) :=
    (hba _ ha).mono (by
      rw [hwpos, show (0 : BitVec 16).toNat = 0 from rfl, Nat.zero_add]
      exact streamBits_bytes_le hb.consistent.ndist_le hnpixels)
  obtain ⟨c, hrun, hcoding, happ, hcounts, hranking⟩ := execAll_encodeRanked hb hfresh hgrid hbudget
  have hleft : c.pixrem = 0 := BitVec.eq_of_toNat_eq hcoding.left
  have hrest : BitBudget c 0 := BitBudget.after happ (by rwa [streamBits_length, List.length_map])
  obtain ⟨d, ⟨hfinish, -, herr, -, -⟩, hflush, -, -, -, -, -, -, -, -, -, hranking'⟩ :=
    encFinish_completes hcoding.err hcoding.phase hcoding.wclosed hleft hrest
  obtain ⟨hpal, hrank, -, -⟩ := hranking.trans hranking'
  obtain ⟨bytes, hsink, hlen, hbits⟩ := happ.flushed hwpos hflush
  rw [streamBits_length, List.length_map, hgrid] at hlen hbits
  have hkey (p : Pixel) (hp : p ∈ pixels) := hb.consistent.rank hb.ranking (hb.cntEntry_ne_zero.2 (List.mem_map_of_mem hp))
  obtain ⟨hpalLen, -⟩ := id hb.ranking
  refine ⟨d, bytes, b.ndist.toNat, ?run, herr, by rw [hsink, hbsink], hndist, hlen, ?layout, fun p hp => ?ranks,
    fun i j hij hj => ?descending⟩
  case run =>
    simp only [encodeImage, List.cons_append, List.append_assoc, List.nil_append]
    rw [hfirst, ← List.cons_append, ← List.cons_append, execAll_append _ _ _ hrun, execAll_cons hfinish, execAll]
  case layout =>
    rw [hbits, streamBits, paletteBits, codeBits, List.flatMap_map]
    simp only [hpal, hrank]
  case ranks => simpa only [hpal, hrank] using hkey p hp
  case descending =>
    rw [hpal, hpal, ← hb.count, ← hb.count]
    exact hb.ranking.descending hij (hpalLen ▸ hj)

end Sys2Proof.Machine
end

section
/-! DECODE_IMAGE as a run of commands (R88, R152): a loaded source is read field by field from its first bit on, and what it
holds is what ENCODE_IMAGE emitted. -/

namespace Sys2Proof.Machine

/-! ### A source read from front to back -/

/-- The source holds the bits `front ++ rest`, its length covers them, and the cursor stands between the two. -/
structure SourceAt (front rest : List Bool) (s : State) : Prop where
  holds : SrcHolds s (front ++ rest)
  fits : (front ++ rest).length ≤ 8 * s.srcLen.toNat
  rpos : s.rpos.toNat = front.length

section
variable {front rest xs ys : List Bool} {s t : State}

theorem SourceAt.readable (h : SourceAt front (xs ++ ys) s) : Readable s xs.length := by
  have hfits := h.fits
  rw [← List.append_assoc, List.length_append, List.length_append] at hfits
  refine ⟨by rw [h.rpos]; omega, h.holds.written ?_⟩
  rw [h.rpos, ← List.append_assoc, List.length_append, List.length_append]
  omega

/-- The field behind a known stretch of what is ahead of the cursor. -/
theorem SourceAt.fieldAt {before back : List Bool} {v : Word} {w pos : Nat} (h : SourceAt front rest s)
    (hrest : rest = before ++ fieldBits v.toNat w ++ back) (hv : v.toNat < 2 ^ w) (hpos : before.length = pos) :
    FieldAt s (s.rpos.toNat + pos) w v := by
  rw [h.rpos, ← hpos, ← List.length_append]
  exact h.holds.fieldAt (back := back) (by rw [hrest]; simp only [List.append_assoc]) hv

/-- The source after an operation that read a stretch of it. -/
theorem SourceAt.advance (h : SourceAt front (xs ++ ys) s) (hbyte : ∀ j, srcByte? t j = srcByte? s j)
    (hlen : t.srcLen = s.srcLen) (hpos : t.rpos.toNat = s.rpos.toNat + xs.length) : SourceAt (front ++ xs) ys t := by
  obtain ⟨hholds, hfits, hrpos⟩ := h
  rw [← List.append_assoc] at hholds hfits
  refine ⟨fun k hk => ?_, hlen ▸ hfits, by rw [hpos, hrpos, List.length_append]⟩
  rw [← hholds k hk, srcBit?, srcBit?, hbyte]

end

/-- SRC_WRITE of each byte, then READER_OPEN, on an idle codec, which stays idle. -/
theorem execAll_loadIdle {bytes : List Byte} {u : State} (hu : u.err = .noError) (ho : u.ropen = false) (hp : u.cphase = .idle)
    (hmax : bytes.length ≤ u.params.srcMax.toNat) :
    ∃ s, DecodingMayStart s ∧ SourceAt [] (bytesBits bytes) s ∧
      ∀ rest, execAll (srcWrites 0 bytes ++ .readerOpen (BitVec.ofNat 32 bytes.length) :: rest) u = execAll rest s := by
  have hlength : (BitVec.ofNat 32 bytes.length).toNat = bytes.length := by
    rw [BitVec.toNat_ofNat]
    exact Nat.mod_eq_of_lt (lt_of_le_of_lt hmax u.params.srcMax.isLt)
  obtain ⟨s, hopen, hrun⟩ := execAll_load (length := BitVec.ofNat 32 bytes.length) hu ho hmax (by rwa [hlength])
  have hidle : s.cphase = .idle := by
    obtain ⟨t, ht, honly, -⟩ := execAll_srcWrites (bytes := bytes) (offset := 0) hu ho (by omega)
    have herr : t.err = .noError := by rw [honly]; exact hu
    have hclosed : t.ropen = false := by rw [honly]; exact ho
    have hparams : t.params = u.params := by rw [honly]
    have hphase : t.cphase = .idle := by rw [honly]; exact hp
    have hexec := exec_readerOpen (length := BitVec.ofNat 32 bytes.length) herr hclosed (by rwa [hparams, hlength])
    have hend := hrun []
    rw [execAll_append _ _ _ ht, execAll_cons hexec, execAll, execAll] at hend
    cases hend
    exact hphase
  refine ⟨s, ⟨hopen.err, hidle, hopen.ropen, BitVec.eq_of_toNat_eq hopen.rpos⟩, ⟨hopen.holds, ?_, hopen.rpos⟩, hrun⟩
  rw [List.nil_append, bytesBits_length, hopen.srcLen, hlength]

/-! ### The header -/

/-- A source that begins with the bits of a header (R110, R145). -/
theorem SourceAt.header {rows cols n : Word} {rest : List Bool} {s : State}
    (h : SourceAt [] (headerBits rows cols n ++ rest) s) : HeaderAtStart rows cols n s := by
  have hfit (v : Word) : v.toNat < 2 ^ 32 := v.isLt
  have hbits : headerBits rows cols n ++ rest = fieldBits Config.magic.toNat 32 ++ (fieldBits rows.toNat 32 ++
      (fieldBits cols.toNat 32 ++ (fieldBits n.toNat 32 ++ rest))) := by
    simp only [headerBits, List.append_assoc]
    rfl
  have h0 : s.rpos.toNat = 0 := h.rpos
  have hm := h.fieldAt (before := []) (pos := 0) hbits (hfit _) rfl
  have hr := h.fieldAt (before := fieldBits Config.magic.toNat 32) (pos := 32) (v := rows) (w := 32)
    (by rw [hbits, List.append_assoc]) (hfit _) (fieldBits_length _ _)
  have hc := h.fieldAt (before := fieldBits Config.magic.toNat 32 ++ fieldBits rows.toNat 32) (pos := 64) (v := cols) (w := 32)
    (back := fieldBits n.toNat 32 ++ rest) (by simp only [hbits, List.append_assoc]) (hfit _) (by simp)
  have hn := h.fieldAt (pos := 96) (v := n) (w := 32) (back := rest)
    (before := fieldBits Config.magic.toNat 32 ++ fieldBits rows.toNat 32 ++ fieldBits cols.toNat 32)
    (by simp only [hbits, List.append_assoc]) (hfit _) (by simp)
  rw [h0, Nat.zero_add] at hm hr hc hn
  have hreadable := h.readable
  rw [headerBits_length] at hreadable
  exact ⟨hreadable, hm, hr, hc, hn⟩

/-! ### The palette -/

/-- The entry of one rank, with what stands before and behind it. -/
theorem paletteBits_split (palette : Nat → Key) {i n : Nat} (hi : i < n) :
    ∃ back, paletteBits palette n = paletteBits palette i ++ fieldBits (palette i).toNat 18 ++ back := by
  obtain ⟨m, rfl⟩ := Nat.exists_eq_add_of_lt hi
  rw [paletteBits, Nat.add_assoc, Nat.add_comm m, ← Nat.add_assoc, List.range_add, List.range_succ, List.flatMap_append,
    List.flatMap_append, List.flatMap_singleton]
  exact ⟨_, rfl⟩

theorem key_setWidth_inj {a b : Key} (h : a.setWidth 32 = b.setWidth 32) : a = b := by
  rw [← keyOperand_setWidth a, h, keyOperand_setWidth]

/-- DEC_PALETTE on a source with a palette ahead loads that palette (R146). -/
theorem SourceAt.decPalette {palette : Nat → Key} {front rest : List Bool} {s : State} (hs : s.err = .noError)
    (hp : s.cphase = .decPal) (hn : s.ncolors.toNat ≤ 2 ^ 18)
    (h : SourceAt front (paletteBits palette s.ncolors.toNat ++ rest) s) :
    ∃ t, exec .decPalette s = .next t ∧ t.err = .noError ∧ t.cphase = .decPix ∧
      (∀ i, i < s.ncolors.toNat → palEntry t i = palette i) ∧
      SourceAt (front ++ paletteBits palette s.ncolors.toNat) rest t ∧
      t.rows = s.rows ∧ t.cols = s.cols ∧ t.ncolors = s.ncolors ∧ t.rcw = s.rcw ∧ t.pixrem = s.pixrem := by
  have hreadable := h.readable
  rw [paletteBits_length] at hreadable
  obtain ⟨t, ⟨hexec, -, herr, -, -⟩, hread, -, -, hphase, hpos, hlen, -, hbyte, hrows, hcols, hncolors, hrcw, hrem, -⟩ :=
    decPalette_completes hs hp hn hreadable
  refine ⟨t, hexec, herr, hphase, fun i hi => ?_, h.advance hbyte hlen (by rwa [paletteBits_length]), hrows, hcols, hncolors,
    hrcw, hrem⟩
  obtain ⟨back, hback⟩ := paletteBits_split palette hi
  have hentry : FieldAt s (s.rpos.toNat + 18 * i) 18 ((palette i).setWidth 32) := by
    refine h.fieldAt (before := paletteBits palette i) (back := back ++ rest) ?_ ?_ (paletteBits_length _ _)
    · rw [hback, key_setWidth_toNat, List.append_assoc _ back]
    · rw [key_setWidth_toNat]
      exact (palette i).isLt
  exact key_setWidth_inj ((hread i hi).unique hentry)

/-! ### The pixels -/

/-- The decoder stands in DEC_PIX with a number of pixels to go. -/
structure Decoding (left : Nat) (s : State) : Prop where
  err : s.err = .noError
  phase : s.cphase = .decPix
  left : s.pixrem.toNat = left

/-- DEC_PIXEL for each rank code ahead answers the representative pixels of their palette keys in order (R147). -/
theorem execAll_decPixels {codes : List Key} {front rest : List Bool} {s : State} (h : Decoding codes.length s)
    (hw : s.rcw.toNat ≤ 32) (hsrc : SourceAt front (codeBits codes s.rcw.toNat ++ rest) s)
    (hcodes : ∀ r ∈ codes, r.toNat < s.ncolors.toNat ∧ r.toNat < 2 ^ s.rcw.toNat) :
    ∃ t responses, execAll (List.replicate codes.length .decPixel) s = .next t ∧ t.err = .noError ∧ t.rows = s.rows ∧
      t.cols = s.cols ∧ t.responses = s.responses ++ responses ∧
      responses.map (fun r => r.r0) = codes.map fun r => packPixel (dequant (palEntry s r.toNat)) := by
  induction codes generalizing front s with
  | nil => exact ⟨s, [], rfl, h.err, rfl, rfl, (List.append_nil _).symm, rfl⟩
  | cons r codes ih =>
    have hleft : s.pixrem.toNat = codes.length + 1 := h.left
    have hrank : (r.setWidth 32).toNat = r.toNat := key_setWidth_toNat r
    obtain ⟨hlt, hfit⟩ := hcodes r List.mem_cons_self
    have hcons : codeBits (r :: codes) s.rcw.toNat ++ rest =
        fieldBits r.toNat s.rcw.toNat ++ (codeBits codes s.rcw.toNat ++ rest) := by
      rw [← List.append_assoc]
      rfl
    rw [hcons] at hsrc
    have hreadable := hsrc.readable
    rw [fieldBits_length] at hreadable
    have hfield : FieldAt s (s.rpos.toNat + 0) s.rcw.toNat (r.setWidth 32) :=
      hsrc.fieldAt (before := []) (by rw [hrank]; rfl) (by rwa [hrank]) rfl
    obtain ⟨t, ⟨hexec, ⟨-, -, -, -, hresponses⟩, herr, -, -⟩, hrem, hpos, hlen, -, hbyte, hphase, hrows, hcols, hncolors,
      hrcw, -, -, hpal, -⟩ := decPixel_completes ⟨h.err, h.phase, pixrem_ne_zero hleft⟩ hw hreadable hfield (by rwa [hrank])
    have hsrct := hsrc.advance hbyte hlen (by rwa [fieldBits_length])
    rw [← hrcw] at hsrct
    obtain ⟨u, responses, hrun, herr', hrows', hcols', hresponses', hmap⟩ := ih ⟨herr, hphase, by omega⟩ (by rwa [hrcw]) hsrct
      (fun q hq => by rw [hncolors, hrcw]; exact hcodes q (List.mem_cons_of_mem _ hq))
    refine ⟨u, _ :: responses, by rw [List.length_cons, List.replicate_succ, execAll_cons hexec, hrun], herr', hrows'.trans hrows,
      hcols'.trans hcols, by rw [hresponses', hresponses, List.append_assoc]; rfl, ?_⟩
    rw [List.map_cons, List.map_cons, hmap, hrank]
    simp only [hpal]

/-! ### The whole image -/

/-- DECODE_IMAGE of a stream's bytes, whatever bits follow the codes: the grid's size, and for each code its key's pixel. -/
theorem execAll_decodeImage {rows cols : Word} {palette : Nat → Key} {n : Nat} {codes : List Key} {bytes : List Byte}
    {padding : List Bool} {u : State} (hbits : bytesBits bytes = streamBits rows cols palette n codes ++ padding)
    (hmax : bytes.length ≤ u.params.srcMax.toNat) (hn : n ≤ 2 ^ 18) (hgrid : codes.length = rows.toNat * cols.toNat)
    (hcodes : ∀ r ∈ codes, r.toNat < n) :
    ∃ x before responses, execAll (decodeImage bytes codes.length) u = .next x ∧ x.err = .noError ∧ x.rows = rows ∧
      x.cols = cols ∧ x.responses = before ++ responses ∧
      responses.map (fun r => r.r0) = codes.map fun r => packPixel (dequant (palette r.toNat)) := by
  obtain ⟨a, hstart, hsource, hload⟩ := execAll_loadIdle (u := respond (success 0 0 0) (resetState u)) rfl rfl rfl hmax
  rw [hbits, streamBits, List.append_assoc, List.append_assoc] at hsource
  have hncolors : (BitVec.ofNat 32 n).toNat = n := by
    rw [BitVec.toNat_ofNat]
    exact Nat.mod_eq_of_lt (lt_of_le_of_lt hn (by decide))
  obtain ⟨b, ⟨hheader, -, herr, -, -⟩, hrows, hcols, hncolorsb, hrcw, hrem, hphase, hpos, hlen, -, hbyte, -⟩ :=
    decHeader_completes hstart hsource.header (by rwa [hncolors])
  have hnb : b.ncolors.toNat = n := by rw [hncolorsb, hncolors]
  have hsourceb := hsource.advance hbyte hlen (by rw [hpos, hsource.rpos, headerBits_length]; rfl)
  rw [← hnb] at hsourceb
  obtain ⟨c, hpalette, herr', hphase', hpal, hsourcec, hrows', hcols', hncolorsc, hrcw', hrem'⟩ :=
    hsourceb.decPalette herr hphase (by rwa [hnb])
  have hrcwc : c.rcw.toNat = rankCodeWidth n := by rw [hrcw', hrcw, hncolors]
  rw [hnb, ← hrcwc] at hsourcec
  have hdecoding : Decoding codes.length c := ⟨herr', hphase', by rw [hrem', hrem, hgrid]⟩
  obtain ⟨x, responses, hpixels, herr'', hrows'', hcols'', hresponses, hmap⟩ := execAll_decPixels hdecoding
    (by rw [hrcwc]; exact (rankCodeWidth_le hn).trans (by decide)) hsourcec fun r hr => by
      rw [hncolorsc, hnb, hrcwc]
      exact ⟨hcodes r hr, lt_of_lt_of_le (hcodes r hr) (le_two_pow_rankCodeWidth n)⟩
  refine ⟨x, c.responses, responses, ?run, herr'', (hrows''.trans hrows').trans hrows, (hcols''.trans hcols').trans hcols,
    hresponses, ?pixels⟩
  case run =>
    simp only [decodeImage, List.cons_append, List.append_assoc, List.nil_append]
    rw [execAll_cons (exec_reset u), hload, execAll_cons hheader, execAll_cons hpalette, hpixels]
  case pixels =>
    rw [hmap]
    refine List.map_congr_left fun r hr => ?_
    rw [hpal r.toNat (by rw [hnb]; exact hcodes r hr)]

/-- Settles O60: the layout of the encoded stream makes each decoded pixel the one its own key stands for. -/
theorem decodingAnEncodedImageGivesTheQuantizedPixels :
    Obligations.DecodingAnEncodedImageGivesTheQuantizedPixels := by
  intro rows cols pixels s u hsrcMax hgrid ha
  obtain ⟨t, bytes, n, hencode, herr, hsink, hn, -, hbits, hranks, -⟩ :=
    encodedImageHasTheFileLayout rows cols pixels s hsrcMax hgrid ha
  refine ⟨t, bytes, hencode, herr, hsink, fun hmax => ?_⟩
  have hncolors : n ≤ 2 ^ 18 := hn ▸ length_le_of_nodup (List.nodup_dedup _)
  obtain ⟨padding, hstream⟩ : ∃ padding, bytesBits bytes =
      streamBits rows cols (palEntry t) n (pixels.map fun p => rankEntry t (quant p)) ++ padding := by
    rw [hbits, streamBits, paletteBits, codeBits, List.flatMap_map]
    exact ⟨_, rfl⟩
  obtain ⟨x, before, responses, hdecode, herr', hrows, hcols, hresponses, hmap⟩ :=
    execAll_decodeImage (u := u) hstream hmax hncolors (by rw [List.length_map, hgrid]) fun r hr => by
      obtain ⟨p, hp, rfl⟩ := List.mem_map.1 hr
      exact (hranks p hp).1
  rw [List.length_map] at hdecode
  refine ⟨x, before, responses, hdecode, herr', hrows, hcols, hresponses, ?pixels, fun p _ v out hmem => ?near⟩
  case pixels =>
    rw [hmap, List.map_map]
    refine List.map_congr_left fun p hp => ?_
    simp only [Function.comp, (hranks p hp).2]
  case near =>
    obtain ⟨hr, hg, hb⟩ := dequant_quant_toNat p
    have hmidpoint : out.toNat = 4 * (v.toNat / 4) + 2 := by
      simp only [List.mem_cons, List.not_mem_nil, or_false, Prod.mk.injEq] at hmem
      obtain ⟨rfl, rfl⟩ | ⟨rfl, rfl⟩ | ⟨rfl, rfl⟩ := hmem
      · exact hr
      · exact hg
      · exact hb
    obtain ⟨habove, hbelow, -⟩ := bucketMidpoint_near hmidpoint
    exact ⟨habove, hbelow⟩

end Sys2Proof.Machine
end

section
/-! ERR and the response's code (R165 to R167): the sticky refusal, the error entry, words that are no command in the error state,
and the idle block (R184). -/

namespace Sys2Proof.Machine

/-! ### The idle block -/

/-- Settles O7: with no input the step has no branch but the idle one. -/
theorem idleBlockKeepsItsState : Obligations.IdleBlockKeepsItsState := by
  intro s h
  rw [step, h]

/-! ### What a command's body does to ERR -/

/-- The code of a response is 0 (R80). -/
def IsSuccess (r : Response) : Prop := r.status = .noError

/-- Wherever a command's body, or a part of it, answers or raises an error, ERR is `code`, and Q holds of the answer. -/
def ErrStays {α : Type} (code : ErrCode) (Q : α → Prop) (r : Result α) : Prop :=
  match r with
  | .ok a t => t.err = code ∧ Q a
  | .raised _ t => t.err = code
  | .fault _ => True

section
variable {α β : Type} {code : ErrCode} {s t : State} {Q : β → Prop} {R : α → Prop}

theorem ErrStays.require {c : Prop} [Decidable c] {r : Result α} (hs : s.err = code) (h : ErrStays code R r) :
    ErrStays code R (require c s r) := by
  by_cases hc : c
  · rwa [require_true hc]
  · rwa [require_false hc]

theorem ErrStays.ite {c : Prop} [Decidable c] {r r' : Result α} (h : ErrStays code R r) (h' : ErrStays code R r') :
    ErrStays code R (if c then r else r') := by
  split
  · exact h
  · exact h'

/-- An operation that leaves SRC_MAX, TIE_BREAK and ERR as they were, and a body that goes on from there. -/
theorem ErrStays.after {P : State → Prop} {r : Result α} {k : α → State → Result β} (h : Ends s P r) (hs : s.err = code)
    (hk : ∀ a t, t.err = code → ErrStays code Q (k a t)) : ErrStays code Q (r.andThen k) := by
  cases r with
  | ok a t =>
    obtain ⟨⟨-, herr⟩, -⟩ := h
    exact hk a t (herr.trans hs)
  | raised e t =>
    obtain ⟨-, -, herr⟩ := h
    exact herr.trans hs
  | fault f => trivial

/-- The last line of a body: the command's answer. -/
theorem ErrStays.success {r0 r1 r2 : Word} (h : t.err = code) : ErrStays code IsSuccess (.ok (success r0 r1 r2) t) := ⟨h, rfl⟩

end

/-- The commands that the sticky error refuses: all but NOP, RESET and REG_READ (R166). -/
def RefusedInError (i : Instr) : Prop := i ≠ .nop ∧ i ≠ .reset ∧ ∀ n, i ≠ .regRead n

/-- Each of them is a body behind the sticky refusal, and only the end of the command sets ERR: the body leaves it alone and answers
with code 0. -/
theorem exec_eq_command {i : Instr} (hi : RefusedInError i) (s : State) :
    ∃ body, exec i s = command s body ∧ ErrStays s.err IsSuccess body := by
  obtain ⟨hnop, hreset, hregRead⟩ := hi
  cases i with
  | nop => exact absurd rfl hnop
  | reset => exact absurd rfl hreset
  | regRead number => exact absurd rfl (hregRead number)
  | writeBits width value =>
    exact ⟨_, rfl, .require rfl <| .require rfl <| .after (putBits_ends _ _ s) rfl fun _ _ => .success⟩
  | writeHeader rows cols numColors =>
    exact ⟨_, rfl, .require rfl <| .after (putHeader_ends _ _ _ s) rfl fun _ _ => .success⟩
  | flush => exact ⟨_, rfl, .require rfl <| .after (flushBuf_ends s) rfl fun _ _ => .success⟩
  | close => exact ⟨_, rfl, .require rfl <| .after (flushBuf_ends s) rfl fun _ _ ht => .success ht⟩
  | srcWrite | readerOpen => exact ⟨_, rfl, .require rfl <| .require rfl <| .success rfl⟩
  | readBits width =>
    exact ⟨_, rfl, .require rfl <| .require rfl <| .after (getBits_outcome _ s).ends rfl fun _ _ => .success⟩
  | readHeader => exact ⟨_, rfl, .require rfl <| .after (getHeader_outcome s).ends rfl fun _ _ => .success⟩
  | quantize | dequantize | rankWidth => exact ⟨_, rfl, .success rfl⟩
  | rankClear | palRead => exact ⟨_, rfl, .require rfl <| .success rfl⟩
  | rankCount | rankLookup => exact ⟨_, rfl, .require rfl <| .require rfl <| .success rfl⟩
  | rankSort =>
    have hsorted : (afterRankSort s).err = s.err := by rw [afterRankSort_eq]
    exact ⟨_, rfl, .require rfl <| .success hsorted⟩
  | encHeader rows cols =>
    exact ⟨_, rfl, .require rfl <| .require rfl <| .require rfl <| .require rfl <|
      .ite rfl <| .after (putHeader_ends _ _ _ s) rfl fun _ _ ht => .success ht⟩
  | encPalette =>
    exact ⟨_, rfl, .require rfl <| .require rfl <| .after (putPalette_ends _ _ s) rfl fun _ _ ht => .success ht⟩
  | encPixel pixel =>
    exact ⟨_, rfl, .require rfl <| .require rfl <| .require rfl <| .require rfl <|
      .after (putBits_ends _ _ s) rfl fun _ _ ht => .success ht⟩
  | encFinish =>
    exact ⟨_, rfl, .require rfl <| .require rfl <| .require rfl <| .after (flushBuf_ends s) rfl fun _ _ ht => .success ht⟩
  | decHeader =>
    exact ⟨_, rfl, .require rfl <| .require rfl <| .require rfl <|
      .after (getHeader_outcome s).ends rfl fun _ _ ht => .ite ht (.success ht)⟩
  | decPalette => exact ⟨_, rfl, .require rfl <| .after (getPalette_ends _ _ s) rfl fun _ _ ht => .success ht⟩
  | decPixel =>
    exact ⟨_, rfl, .require rfl <| .require rfl <| .after (getBits_outcome _ s).ends rfl fun _ _ ht => .ite (.success ht) ht⟩

/-! ### ERR = 0: the response's code becomes ERR -/

/-- In the outcome's next state, if it has one, ERR is the code of the last response. -/
def ErrIsCode (o : Host.Outcome State Fault Refusal) : Prop := ∀ t, o = .next t → t.err = t.rstatus

theorem ErrIsCode.respond {r : Response} {s : State} (h : s.err = r.status) : ErrIsCode (.next (respond r s)) := by
  rintro _ ⟨⟩
  exact h

/-- The first error sets ERR (R165). -/
theorem ErrIsCode.raiseError {s : State} (e : ErrCode) (h : s.err = .noError) : ErrIsCode (.next (raiseError e s)) := by
  rw [raiseError_noError h]
  exact .respond rfl

theorem command_errIsCode {s : State} {body : Result Response} (hs : s.err = .noError) (h : ErrStays s.err IsSuccess body) :
    ErrIsCode (command s body) := by
  rw [command_noError body hs]
  cases body with
  | ok r t =>
    obtain ⟨herr, hcode⟩ := h
    exact .respond ((herr.trans hs).trans hcode.symm)
  | raised e t => exact .raiseError e (h.trans hs)
  | fault f => rintro _ ⟨⟩

theorem execRegRead_errIsCode {s : State} (number : Word) (hs : s.err = .noError) : ErrIsCode (execRegRead number s) := by
  rw [execRegRead, if_pos hs]
  split
  · exact .respond hs
  · exact .raiseError _ hs

theorem exec_errIsCode {s : State} (i : Instr) (hs : s.err = .noError) : ErrIsCode (exec i s) := by
  by_cases hi : RefusedInError i
  · obtain ⟨body, hexec, hbody⟩ := exec_eq_command hi s
    rw [hexec]
    exact command_errIsCode hs hbody
  · cases i with
    | nop => exact .respond hs
    | reset => exact .respond rfl
    | regRead number => exact execRegRead_errIsCode number hs
    | _ => exact absurd ⟨nofun, nofun, nofun⟩ hi

/-! ### ERR ≠ 0: refusals -/

theorem exec_refused {i : Instr} {s : State} (hi : RefusedInError i) (hs : s.err ≠ .noError) :
    exec i s = .next (refuseSticky s) := by
  obtain ⟨body, hexec, -⟩ := exec_eq_command hi s
  rw [hexec, command_sticky body hs]

/-- Only RESET ends the error state (R166). -/
theorem exec_keeps_err {i : Instr} {s t : State} (hs : s.err ≠ .noError) (hi : i ≠ .reset) (h : exec i s = .next t) :
    t.err = s.err := by
  have hdoes := exec_does hi s
  rw [h] at hdoes
  rcases hdoes with ⟨-, r, draws, rfl⟩ | ⟨hzero, -⟩ | ⟨hzero, -⟩
  · rfl
  · exact absurd hzero hs
  · exact absurd hzero hs

theorem runCommand_of_not_decoded {w : Command} (h : ∀ i, decode w ≠ .ok i) (s : State) : runCommand w s = illegalWord w s := by
  cases hdec : decode w with
  | ok i => exact absurd hdec (h i)
  | error e => rw [runCommand, hdec]

theorem runsInError_iff (op : BitVec 8) : runsInError op = true ↔ op = 0x00 ∨ op = 0x01 ∨ op = 0x02 := by
  simp [runsInError, or_assoc]

theorem illegalWord_refused {w : Command} {s : State} (hs : s.err ≠ .noError) (hop : runsInError (opField w) = false) :
    illegalWord w s = .next (refuseSticky s) := if_pos ⟨hs, hop⟩

/-- The words that check 1 of R84 lets through fail a later check: UsageError. -/
theorem illegalWord_usageError {w : Command} {s : State} (hop : runsInError (opField w) = true) :
    illegalWord w s = .next (raiseError .usageError s) := if_neg (by simp [hop])

/-- Settles O16: the sticky refusal is a response and nothing else, for a command by the check its body stands behind and for a word
that is no command by its opcode. -/
theorem stickyErrorRefusesAllButThree : Obligations.StickyErrorRefusesAllButThree := by
  refine ⟨fun i s hs hnop hreset hregRead => ?command, fun w s hs hillegal hnop hreset hregRead => ?word,
    fun i s t hs hi h => exec_keeps_err hs hi h⟩
  case command =>
    exact ⟨refuseSticky s, exec_refused ⟨hnop, hreset, hregRead⟩ hs, respond_responded _ s, sameAll_respond _ s⟩
  case word =>
    have hop : runsInError (opField w) = false := by
      rw [← Bool.not_eq_true, runsInError_iff]
      rintro (h | h | h)
      · exact hnop h
      · exact hreset h
      · exact hregRead h
    exact ⟨refuseSticky s, (runCommand_of_not_decoded hillegal s).trans (illegalWord_refused hs hop), respond_responded _ s,
      sameAll_respond _ s⟩

/-- Settles O17: ERR follows the response's code from ERR = 0, and an error raised in the error state is a response and nothing
else. -/
theorem firstErrorSetsErr : Obligations.FirstErrorSetsErr := by
  refine ⟨fun i s t hs h => ⟨exec_errIsCode i hs t h, ?zero⟩, fun w s hs hillegal hop => ?sticky⟩
  case zero =>
    obtain ⟨r, ⟨hstatus, hr0, hr1, hr2, -⟩, hzero⟩ := exec_oneResponse i s t h
    rw [hstatus, hr0, hr1, hr2]
    exact hzero
  case sticky =>
    have hrun : runCommand w s = .next (raiseError .usageError s) :=
      (runCommand_of_not_decoded hillegal s).trans (illegalWord_usageError ((runsInError_iff _).2 hop))
    rw [raiseError_sticky hs] at hrun
    exact ⟨_, hrun, respond_responded _ s, sameAll_respond _ s⟩

end Sys2Proof.Machine
end

section
/-! RESET (R159): ResetState() of R185, and a response whose registers hold their reset values. -/

namespace Sys2Proof.Machine

/-- The one response that leaves RSTATUS and RES0 to RES2 at the values R57 gives them. -/
theorem HasResetValues.respond_zero {s : State} (h : HasResetValues s) : HasResetValues (respond (success 0 0 0) s) := by
  obtain ⟨hwriter, hreader, hcounts, hcodec, herr, habort, -⟩ := h
  exact ⟨hwriter, hreader, hcounts, hcodec, herr, habort, rfl, rfl, rfl, rfl⟩

/-- Settles O25: RESET is ResetState() and then the response (0, 0, 0, 0), whatever ERR is. -/
theorem resetCommandGivesResetValues : Obligations.ResetCommandGivesResetValues := by
  refine ⟨decodesAt_of_row (row := ⟨0x01, false, fun _ => .reset⟩) (by simp [opcodeMap]) rfl,
    fun s => ⟨_, exec_reset s, (resetState_hasResetValues s).respond_zero, ?responded, ?sink, ?answers, ?offers, ?host⟩⟩
  case responded => exact respond_responded _ (resetState s)
  case sink => rw [respond_sink, resetState_sink]
  case answers => rw [respond_sinkAnswers, resetState_sinkAnswers]
  case offers => rw [respond_sinkOffers, resetState_sinkOffers]
  case host => exact ⟨rfl, rfl⟩

end Sys2Proof.Machine
end
